-- ==== Sys2Proof/Word.lean ====
section
/-! DEFINITION. The values of the block: port symbols, Bits, BitVectors written most significant bit first, and
the value `Uninit` of state that nothing has written (spec/00_scope.md R7, R8, R14). Only the types stand here. -/

namespace Sys2Proof

/-- A Bit: the value 0 or 1 (R7). -/
abbrev Bit := Bool

/-- A BitVector: its Bits, most significant first (R8). The width is the length. -/
abbrev BitVector := List Bit

/-- A port symbol: ANY character (R7, D40), so that an invalid one can be presented. -/
abbrev Symbol := Char

/-- An operand as the host presents it: a string of symbols, most significant first (R80). -/
abbrev Symbols := List Symbol

/-- What a piece of state holds: the spec's own value `Uninit` (R14, R39) or a value. -/
inductive Held (α : Type) where
  /-- The value of state that nothing has written (R14). -/
  | uninit
  /-- A written value. -/
  | known (a : α)
  deriving DecidableEq, Repr

/-- A vector of state bits, each a Bit or `Uninit` (R34), most significant first. -/
abbrev HeldBits := List (Held Bit)

end Sys2Proof
end

