-- ==== Sys2Proof/Config.lean ====
section
/-! DEFINITION. The parameters of spec/00_scope.md R6 that are no size: what an n-input NAND, NOR, XNOR means and
which output line a DEMUX selector names. They are data in State that no step changes, so a statement over all
states holds for each of their values. WIDTH_POLICY has the single legal value `ZeroExtend` (R6, R10), so it is no
datum; INIT_Q and INIT_PREV belong to the construction of one component (Syntax.lean). -/

namespace Sys2Proof

/-- `NARY` (R6, D4): the meaning of NAND, NOR, XOR, XNOR with k >= 3 operands. -/
inductive Nary where
  /-- The complemented n-input gate. -/
  | standard
  /-- The left fold of the two-input gate. -/
  | leftFold
  deriving DecidableEq, Repr

/-- `DEMUX_ORDER` (R6, D12): which output bit the selector index names. -/
inductive DemuxOrder where
  /-- Line k is string position k, counted from the left. -/
  | stringIndex
  /-- Line k is bit number k, counted from the least significant end. -/
  | lsbNumber
  deriving DecidableEq, Repr

/-- The parameters that hold for the whole block. -/
structure Params where
  nary : Nary
  demuxOrder : DemuxOrder
  deriving DecidableEq, Repr

/-- The defaults of R6. -/
def Params.default : Params := { nary := .standard, demuxOrder := .stringIndex }

end Sys2Proof
end

