-- ==== Sys2Proof/Syntax.lean ====
section
/-! DEFINITION. The 23 operations of spec/opcode_table.json, the call record that carries one (spec/30_encoding.md
R80, R81), and the operations the host can perform on the block (spec/00_scope.md R15). -/

namespace Sys2Proof

/-- An operation named by its 8-bit selector or by a name (R81 format TG, R84, R85). -/
inductive OpName where
  | sel (b : BitVec 8)
  | name (n : Symbols)
  deriving DecidableEq, Repr

/-- One decoded call. Operands keep their symbols as presented, in the order of R81; `inst` is the identifier of
the component called. -/
inductive Instr where
  /-- AND (R102) -/
  | andGate (ops : List Symbols)
  /-- OR (R103) -/
  | orGate (ops : List Symbols)
  /-- NOT (R104) -/
  | notGate (x : Symbols)
  /-- NAND (R105) -/
  | nandGate (ops : List Symbols)
  /-- NOR (R106) -/
  | norGate (ops : List Symbols)
  /-- XOR (R107) -/
  | xorGate (ops : List Symbols)
  /-- XNOR (R108) -/
  | xnorGate (ops : List Symbols)
  /-- HALF_ADD (R140) -/
  | halfAdd (a b : Symbols)
  /-- FULL_ADD (R141) -/
  | fullAdd (a b cin : Symbols)
  /-- ADD (R143) -/
  | add (a b : Symbols)
  /-- ADD_FIXED with its parameter N (R144) -/
  | addFixed (n : Nat) (a b : Symbols)
  /-- TWO_COMPLEMENT (R150) -/
  | twoComplement (x : Symbols)
  /-- EQ (R151) -/
  | eqCompare (a b : Symbols)
  /-- ZERO (R152) -/
  | zeroTest (x : Symbols)
  /-- MUX (R180) -/
  | mux (inputs : List Symbols) (selector : Symbols)
  /-- DEMUX (R181) -/
  | demux (enable selector : Symbols)
  /-- DFF (R204) -/
  | dff (inst : Nat) (d clk : Symbols)
  /-- DFF_SC (R205) -/
  | dffSc (inst : Nat) (d set clr clk : Symbols)
  /-- SR_FF (R206) -/
  | srFf (inst : Nat) (s r clk : Symbols)
  /-- JK_FF (R207) -/
  | jkFf (inst : Nat) (j k clk : Symbols)
  /-- REGISTER (R208) -/
  | register (inst : Nat) (d clk : Symbols)
  /-- RAM_1R (R250) -/
  | ram1r (inst : Nat) (address dataIn write clk : Symbols)
  /-- TEST_GATE (R120); `numInputs` is an integer (R81), `sink` names the host's receiver -/
  | testGate (gate : OpName) (numInputs : Int) (sink : Nat)
  deriving DecidableEq, Repr

/-- The call parameters that are no symbol string: N of ADD_FIXED, and TEST_GATE's gate, numInputs and sink (R81). -/
structure CallParams where
  /-- N of ADD_FIXED, a size (R6) -/
  n : Nat
  gate : OpName
  /-- numInputs of TEST_GATE: "an integer n" (R81) -/
  numInputs : Int
  sink : Nat
  deriving DecidableEq, Repr

/-- The parameters of a call whose format has none. -/
def CallParams.none : CallParams := { n := 0, gate := .sel 0, numInputs := 0, sink := 0 }

/-- The call record of R80. -/
structure Call where
  op : BitVec 8
  inst : Nat
  operands : List Symbols
  params : CallParams
  deriving DecidableEq, Repr

/-- The flip-flop variants of R34 and the register of R36. -/
inductive SeqKind where
  | dff
  | dffSc
  | sr
  | jk
  | register
  deriving DecidableEq, Repr

/-- What the host constructs (R300, R302), with the parameters of R6: NF or NR is `width`; INIT_Q and INIT_PREV are
`Uninit`, 0 or 1. -/
inductive Component where
  | seq (kind : SeqKind) (width : Nat) (initQ initPrev : Held Bit)
  | ram (rows addrW w : Nat) (initPrev : Held Bit)
  deriving DecidableEq, Repr

/-- The outputs a host can read between calls (R40): `q` and `notq` of a flip-flop or register, `out` of a RAM. -/
inductive OutputName where
  | q
  | notq
  | out
  deriving DecidableEq, Repr

/-- What the host can do to the block (R15). Catching a fault takes no move of its own: the next operation follows. -/
inductive HostOp where
  /-- Construct a component under a fresh identifier (R300, R302) -/
  | construct (inst : Nat) (c : Component)
  /-- Preload RAM rows before the RAM's first call (R256) -/
  | preload (inst : Nat) (rows : List (Nat × Symbols))
  /-- Issue one call (R80) -/
  | call (c : Call)
  /-- Call a gate by its source name (R101) -/
  | evaluate (gateName : Symbols) (bitInputs : List Symbols)
  /-- Read an output between calls (R40) -/
  | read (inst : Nat) (output : OutputName)
  deriving DecidableEq, Repr

end Sys2Proof
end

