-- ==== Sys2Proof/Decode.lean ====
section
/-! DEFINITION. The selector table of spec/30_encoding.md R83, the gate names of R84, and the decoder from a call
record (R80) to an instruction, total and rejecting by name (R85); then the encoder, written from the same tables.
The block has no binary instruction words (R80): the "word" of a call is its selector, and the operands are the
strings of the record (log entry 4). -/

namespace Sys2Proof

/-- The operations of R83. -/
inductive Opcode where
  | and | or | not | nand | nor | xor | xnor
  | halfAdd | fullAdd | add | addFixed | twoComplement | eq | zero
  | mux | demux
  | dff | dffSc | srFf | jkFf | register
  | ram1r
  | testGate
  deriving DecidableEq, Repr

/-- R83, the selector column. -/
def Opcode.selector : Opcode → BitVec 8
  | .and => 0x01#8
  | .or => 0x02#8
  | .not => 0x03#8
  | .nand => 0x04#8
  | .nor => 0x05#8
  | .xor => 0x06#8
  | .xnor => 0x07#8
  | .halfAdd => 0x10#8
  | .fullAdd => 0x11#8
  | .add => 0x12#8
  | .addFixed => 0x13#8
  | .twoComplement => 0x14#8
  | .eq => 0x15#8
  | .zero => 0x16#8
  | .mux => 0x20#8
  | .demux => 0x21#8
  | .dff => 0x30#8
  | .dffSc => 0x31#8
  | .srFf => 0x32#8
  | .jkFf => 0x33#8
  | .register => 0x34#8
  | .ram1r => 0x40#8
  | .testGate => 0x70#8

/-- The rows of R83, in the table's order. -/
def opcodeTable : List Opcode :=
  [.and, .or, .not, .nand, .nor, .xor, .xnor, .halfAdd, .fullAdd, .add, .addFixed, .twoComplement, .eq, .zero,
   .mux, .demux, .dff, .dffSc, .srFf, .jkFf, .register, .ram1r, .testGate]

/-- The row a selector names; `none` for the reserved selectors of R85. -/
def Opcode.ofSelector (b : BitVec 8) : Option Opcode :=
  opcodeTable.find? fun o => o.selector == b

/-- The seven gates of spec/41_bit_algebra.md. -/
inductive Gate where
  | and | or | not | nand | nor | xor | xnor
  deriving DecidableEq, Repr

def Gate.opcode : Gate → Opcode
  | .and => .and
  | .or => .or
  | .not => .not
  | .nand => .nand
  | .nor => .nor
  | .xor => .xor
  | .xnor => .xnor

/-- The lowercase names of R84. -/
def Gate.name : Gate → Symbols
  | .and => ['a', 'n', 'd']
  | .or => ['o', 'r']
  | .not => ['n', 'o', 't']
  | .nand => ['n', 'a', 'n', 'd']
  | .nor => ['n', 'o', 'r']
  | .xor => ['x', 'o', 'r']
  | .xnor => ['x', 'n', 'o', 'r']

def gateTable : List Gate := [.and, .or, .not, .nand, .nor, .xor, .xnor]

/-- `evaluate`'s dispatch (R84, R101). -/
def Gate.ofName (n : Symbols) : Option Gate :=
  gateTable.find? fun g => g.name == n

/-- The gate a TEST_GATE names, by selector 0x01 to 0x07 or by name; `none` where it is no gate (R85, R120). -/
def OpName.gate? : OpName → Option Gate
  | .sel b => gateTable.find? fun g => g.opcode.selector == b
  | .name n => Gate.ofName n

/-- The operand counts of the gates (D3, R100, R104): NOT takes one, every other gate two or more. -/
def Gate.arityOk (g : Gate) (k : Nat) : Bool :=
  match g with
  | .not => k == 1
  | _ => decide (2 ≤ k)

/-- The legal values of TEST_GATE's numInputs, an integer (R81, R120, D3): the operand counts of the gate. -/
def Gate.inputsOk (g : Gate) (n : Int) : Bool := decide (0 ≤ n) && g.arityOk n.toNat

/-- Why a call record is no instruction. -/
inductive DecodeError where
  /-- The selector is reserved: the call raises `UnsupportedOperation` (R85). -/
  | unsupported (op : OpName)
  /-- The operation's format takes another number of operands (R81, R13): the call is refused. -/
  | operandCount
  deriving DecidableEq, Repr

/-- A list without its last element, and that element. -/
def splitLast {α : Type} : List α → Option (List α × α)
  | [] => none
  | [x] => some ([], x)
  | x :: y :: r => (splitLast (y :: r)).map fun p => (x :: p.1, p.2)

/-- The operands of a row, read by its format (R81). -/
def Opcode.assemble (o : Opcode) (c : Call) : Option Instr :=
  match o, c.operands with
  | .and, ops => some (.andGate ops)
  | .or, ops => some (.orGate ops)
  | .not, [x] => some (.notGate x)
  | .nand, ops => some (.nandGate ops)
  | .nor, ops => some (.norGate ops)
  | .xor, ops => some (.xorGate ops)
  | .xnor, ops => some (.xnorGate ops)
  | .halfAdd, [a, b] => some (.halfAdd a b)
  | .fullAdd, [a, b, cin] => some (.fullAdd a b cin)
  | .add, [a, b] => some (.add a b)
  | .addFixed, [a, b] => some (.addFixed c.params.n a b)
  | .twoComplement, [x] => some (.twoComplement x)
  | .eq, [a, b] => some (.eqCompare a b)
  | .zero, [x] => some (.zeroTest x)
  | .mux, ops => (splitLast ops).map fun p => .mux p.1 p.2
  | .demux, [e, sel] => some (.demux e sel)
  | .dff, [d, clk] => some (.dff c.inst d clk)
  | .dffSc, [d, set, clr, clk] => some (.dffSc c.inst d set clr clk)
  | .srFf, [s, r, clk] => some (.srFf c.inst s r clk)
  | .jkFf, [j, k, clk] => some (.jkFf c.inst j k clk)
  | .register, [d, clk] => some (.register c.inst d clk)
  | .ram1r, [address, dataIn, write, clk] => some (.ram1r c.inst address dataIn write clk)
  | .testGate, [] => some (.testGate c.params.gate c.params.numInputs c.params.sink)
  | _, _ => none

/-- The decoder: every call record is an instruction or is rejected by name (R83, R85). -/
def decode (c : Call) : Except DecodeError Instr :=
  match Opcode.ofSelector c.op with
  | none => .error (.unsupported (.sel c.op))
  | some o =>
    match o.assemble c with
    | none => .error .operandCount
    | some i => .ok i

/-- The operation an instruction is a call of. -/
def Instr.opcode : Instr → Opcode
  | .andGate _ => .and
  | .orGate _ => .or
  | .notGate _ => .not
  | .nandGate _ => .nand
  | .norGate _ => .nor
  | .xorGate _ => .xor
  | .xnorGate _ => .xnor
  | .halfAdd _ _ => .halfAdd
  | .fullAdd _ _ _ => .fullAdd
  | .add _ _ => .add
  | .addFixed _ _ _ => .addFixed
  | .twoComplement _ => .twoComplement
  | .eqCompare _ _ => .eq
  | .zeroTest _ => .zero
  | .mux _ _ => .mux
  | .demux _ _ => .demux
  | .dff _ _ _ => .dff
  | .dffSc _ _ _ _ _ => .dffSc
  | .srFf _ _ _ _ => .srFf
  | .jkFf _ _ _ _ => .jkFf
  | .register _ _ _ => .register
  | .ram1r _ _ _ _ _ => .ram1r
  | .testGate _ _ _ => .testGate

/-- An instruction's operand strings in the order of R81, which is the order R272 counts them in. -/
def Instr.operands : Instr → List Symbols
  | .andGate ops => ops
  | .orGate ops => ops
  | .notGate x => [x]
  | .nandGate ops => ops
  | .norGate ops => ops
  | .xorGate ops => ops
  | .xnorGate ops => ops
  | .halfAdd a b => [a, b]
  | .fullAdd a b cin => [a, b, cin]
  | .add a b => [a, b]
  | .addFixed _ a b => [a, b]
  | .twoComplement x => [x]
  | .eqCompare a b => [a, b]
  | .zeroTest x => [x]
  | .mux inputs selector => inputs ++ [selector]
  | .demux e sel => [e, sel]
  | .dff _ d clk => [d, clk]
  | .dffSc _ d set clr clk => [d, set, clr, clk]
  | .srFf _ s r clk => [s, r, clk]
  | .jkFf _ j k clk => [j, k, clk]
  | .register _ d clk => [d, clk]
  | .ram1r _ address dataIn write clk => [address, dataIn, write, clk]
  | .testGate _ _ _ => []

/-- The component a sequential or storage call names; `none` for the other formats (R80). -/
def Instr.inst? : Instr → Option Nat
  | .dff inst _ _ => some inst
  | .dffSc inst _ _ _ _ => some inst
  | .srFf inst _ _ _ => some inst
  | .jkFf inst _ _ _ => some inst
  | .register inst _ _ => some inst
  | .ram1r inst _ _ _ _ => some inst
  | _ => none

/-- The operations of a format with an instance (R81): the sequential and the storage ones. -/
def Opcode.hasInst : Opcode → Bool
  | .dff | .dffSc | .srFf | .jkFf | .register | .ram1r => true
  | _ => false

/-- The component a call record names: `inst` is there for the formats with an instance only (R80). -/
def Call.target? (c : Call) : Option Nat :=
  match Opcode.ofSelector c.op with
  | none => none
  | some o => if o.hasInst then some c.inst else none

/-- The parameters a call of the instruction carries; those its format has not are the least value. -/
def Instr.callParams : Instr → CallParams
  | .addFixed n _ _ => { CallParams.none with n := n }
  | .testGate gate n sink => { CallParams.none with gate := gate, numInputs := n, sink := sink }
  | _ => CallParams.none

/-- The encoder: the call record of an instruction (R80, R81, R83). -/
def encode (i : Instr) : Call :=
  { op := i.opcode.selector, inst := i.inst?.getD 0, operands := i.operands, params := i.callParams }

/-- How many operand strings the least legal call of a row has (R81). -/
def Opcode.leastOperands : Opcode → Nat
  | .not | .twoComplement | .zero => 1
  | .fullAdd | .srFf | .jkFf => 3
  | .dffSc | .ram1r => 4
  | .testGate => 0
  | _ => 2

/-- The call a word of the opcode table stands for: the table gives a row its selector alone, and every operand is
the shortest vector of zeros, `"0"`, the operand list the shortest legal one, the component number 0, and the
parameters the least legal ones (log entry 4). -/
def Call.ofTableWord (w : Nat) : Call :=
  let op := BitVec.ofNat 8 w
  let k := match Opcode.ofSelector op with
    | some o => o.leastOperands
    | none => 0
  { op := op, inst := 0, operands := List.replicate k ['0']
    params := { n := 1, gate := .sel 0x01#8, numInputs := 2, sink := 0 } }

/-- The instruction the decoder reads from a word of the opcode table. -/
def decodeTableWord (nbits w : Nat) : Option Instr :=
  if 8 ≤ nbits ∧ w < 256 then
    match decode (Call.ofTableWord w) with
    | .ok i => some i
    | .error _ => none
  else none

end Sys2Proof
end

