-- ==== Sys2Proof/Machine/State.lean ====
section
/-! DEFINITION. The state of the block as plain data (spec/10_state.md), the errors of spec/60_exceptions.md with
their codes and recorded info, the reasons a step can stop, and the state after reset. -/

namespace Sys2Proof.Machine

/-- The errors of R271. A call that raises one takes a NEXT state: the error is recorded and the host may go on
(R280 to R282); no error of this type stops the machine. -/
inductive Error where
  /-- Code 1: operand index, string position, the symbol (R272). -/
  | invalidBitSymbol (operand position : Nat) (symbol : Symbol)
  /-- Code 2: never raised under the adopted width policy (R273). -/
  | widthMismatch
  /-- Code 3: never raised under the adopted width policy (R273). -/
  | autoPadded
  /-- Code 4: the lowest bit position with s = r = 1 (R274). -/
  | invalidState (bit : Nat)
  /-- Code 5: the selector's value and the number of inputs (R275). -/
  | selectorOutOfRange (n inputs : Nat)
  /-- Code 6: belongs to the CPU's control unit, never raised (R276). -/
  | unsupportedOpcode
  /-- Code 7: never raised (R276). -/
  | notImplemented
  /-- Code 16: the selector or name (R278). -/
  | unsupportedOperation (op : OpName)
  /-- Code 17 (R278). -/
  | asyncSetClearConflict
  /-- Code 18: the row index (R278). -/
  | addressOutOfRange (index : Nat)
  /-- Code 19 (R278). -/
  | uninitialisedClock
  /-- Code 20: the component and the output's name (R277). -/
  | uninitialisedRead (inst : Nat) (output : OutputName)
  deriving DecidableEq, Repr

/-- The numeric codes of R271. -/
def Error.code : Error → Nat
  | .invalidBitSymbol _ _ _ => 1
  | .widthMismatch => 2
  | .autoPadded => 3
  | .invalidState _ => 4
  | .selectorOutOfRange _ _ => 5
  | .unsupportedOpcode => 6
  | .notImplemented => 7
  | .unsupportedOperation _ => 16
  | .asyncSetClearConflict => 17
  | .addressOutOfRange _ => 18
  | .uninitialisedClock => 19
  | .uninitialisedRead _ _ => 20

/-- One entry of the fault record (R38, R280). -/
structure FaultEntry where
  /-- the index of the host's call (R31) -/
  callIndex : Nat
  /-- the component called; `none` for a combinational call -/
  inst : Option Nat
  /-- the error with its info -/
  error : Error
  deriving DecidableEq, Repr

/-- Why a call is not well formed (R13). -/
inductive IllFormed where
  /-- an operand of width 0 (R13 a) -/
  | zeroWidth
  /-- another operand count than the operation takes (R13 b) -/
  | operandCount
  /-- an operand longer than the port it meets (R13 c) -/
  | tooWide
  /-- an operand that must be one bit and is wider (R140, R141, R181, control lines) -/
  | notOneBit
  /-- an illegal parameter (R13 d) -/
  | badParameter
  /-- a MUX without data inputs (R13 e) -/
  | noInputs
  deriving DecidableEq, Repr

/-- What the host observes of one operation (R310). -/
inductive Event where
  /-- a call returned these outputs, in the order of R81 -/
  | returned (outputs : List HeldBits)
  /-- a call, a preload or a read faulted -/
  | raised (e : Error)
  /-- a call was refused as not well formed (R12, R13), or so was a preload or a construction -/
  | refused (why : IllFormed)
  /-- a host read received this value (R40) -/
  | readValue (v : BitVector)
  deriving DecidableEq, Repr

/-- One record a TEST_GATE delivers (R120): the receiver, the one-bit operands, the gate's result. -/
structure SinkRecord where
  sink : Nat
  inputs : List BitVector
  output : BitVector
  deriving DecidableEq, Repr

/-- A flip-flop (R34) or a register (R36). NF or NR is the width of `q`; `notq` is no state (R35). -/
structure SeqInst where
  kind : SeqKind
  q : HeldBits
  prev : Held Bit
  deriving DecidableEq, Repr

/-- The rows of a RAM that hold a value, by row number: numbers strictly rising, an unlisted row is `Uninit`. -/
abbrev Memory := List (Nat × BitVector)

/-- A RAM_1R component (R37) with its parameters ROWS, ADDR_W and W. -/
structure RamInst where
  rowCount : Nat
  addrW : Nat
  w : Nat
  mem : Memory
  addr : Held BitVector
  prev : Held Bit
  deriving DecidableEq, Repr

/-- A stateful component (R30). -/
inductive Inst where
  | seq (x : SeqInst)
  | ram (x : RamInst)
  deriving DecidableEq, Repr

/-- The state of a run: the parameters, the components, the host's operations still to come, and what a run records
(R38, R310). -/
structure State where
  /-- NARY and DEMUX_ORDER (R6); no step changes them -/
  params : Params
  /-- the constructed components by identifier, identifiers strictly rising (R34 to R37, R300) -/
  insts : List (Nat × Inst)
  /-- the host's operations still to come, the next one first (R5; the model's own field) -/
  pending : List HostOp
  /-- how many calls the host has issued: the index of its last call (R31) -/
  calls : Nat
  /-- the constructed components that a call has been issued on, in the order of their first calls: a preload comes
  before the first call (R256, R302), and a call that faults or is refused is a call (R12) -/
  called : List Nat
  /-- every call's outcome and every host read's value or fault, in order (R310) -/
  outcomes : List Event
  /-- the records TEST_GATE delivered, in order (R120, R121) -/
  sink : List SinkRecord
  /-- the fault record (R38) -/
  faults : List FaultEntry
  deriving DecidableEq, Repr

/-- Why a run of the model stops with a fault. The spec's own errors are not among them: they are recorded (R280). -/
inductive Fault where
  /-- Raised by `step` when the host has no operation left: "The run ends after its last host operation" (R310).
  Safe: nothing is claimed of what the host might have done next. -/
  | endOfRun
  deriving DecidableEq, Repr

/-- Why an operation has no meaning (R12, R13, D36). An `illFormed` call is refused by `exec`; the step records that
refusal as the call's outcome and the run goes on (R310). On each of the others the step stops: D36 gives the model no
move. Each is safe: nothing is claimed of what the operation does. -/
inductive Refusal where
  /-- Raised by `exec` for an instruction the model does not give a meaning yet (none is left). Safe. -/
  | notModelled (mnemonic : String)
  /-- Raised by every meaning for a call that R13 refuses, and by a construction or preload it refuses; recorded by the
  step (`recordRefusal`). Safe. -/
  | illFormed (why : IllFormed)
  /-- Raised by a call, preload or read that names no constructed component (D36). Safe. -/
  | noComponent (inst : Nat)
  /-- Raised by a call or preload that names a component of another kind (D36). Safe. -/
  | wrongComponent (inst : Nat)
  /-- Raised by a construction under an identifier in use: a component is constructed once (R300). Safe. -/
  | alreadyConstructed (inst : Nat)
  /-- Raised by a preload after the RAM's first call, whatever that call's outcome was (R256, R302, D36). Safe. -/
  | preloadAfterCall (inst : Nat)
  /-- Raised by a read of an output the component has not (R40). Safe. -/
  | noSuchOutput (inst : Nat) (output : OutputName)
  deriving DecidableEq, Repr

/-- What a step of the block answers. -/
abbrev Result := Host.Outcome State Fault Refusal

/-- The machine after reset: no component is constructed (R300 "Reset is construction"), the parameters have their
defaults (R6), the fault record is empty (R39), and nothing has been called, observed or delivered yet. -/
def State.reset : State :=
  { params := Params.default, insts := [], pending := [], calls := 0, called := [], outcomes := [], sink := [],
    faults := [] }

end Sys2Proof.Machine
end

