-- ==== Sys2Proof/Machine/Ops.lean ====
section
/-! DEFINITION. The named operations over components and rows: association lists in one canonical form, RAM rows
(spec/20_memory.md R62, R63), components, returning from a call, and taking an error (spec/60_exceptions.md R280),
one shared operation. There is no return from an error: "There is no return-from-trap operation" (R282). -/

namespace Sys2Proof.Machine

/-- Keys strictly rising: the canonical form of the lists below. -/
abbrev Rising {α : Type} (l : List (Nat × α)) : Prop := (l.map Prod.fst).Pairwise (· < ·)

/-- What a list holds under a key. -/
def assocGet {α : Type} (k : Nat) : List (Nat × α) → Option α
  | [] => none
  | (j, v) :: r => if j = k then some v else assocGet k r

/-- The list with a key holding a value, in canonical form. -/
def assocSet {α : Type} (k : Nat) (v : α) : List (Nat × α) → List (Nat × α)
  | [] => [(k, v)]
  | (j, u) :: r =>
    if k < j then (k, v) :: (j, u) :: r
    else if k = j then (k, v) :: r
    else (j, u) :: assocSet k v r

/-- What a row that nothing has written or preloaded reads as: `Uninit` (R39, R62). -/
def Memory.unlisted : Held BitVector := .uninit

/-- The canonical form of the rows of a RAM of `rows` rows of `w` bits: row numbers strictly rising and in range,
every listed row `w` bits wide. A listed row is a BitVector, so none equals what an unlisted row reads as. -/
abbrev Memory.wf (rows w : Nat) (m : Memory) : Prop :=
  Rising m ∧ ∀ p ∈ m, p.1 < rows ∧ p.2.length = w

/-- The value of row `a`. -/
def Memory.read (m : Memory) (a : Nat) : Held BitVector :=
  match assocGet a m with
  | none => Memory.unlisted
  | some v => .known v

/-- The rows with row `a` replaced whole. -/
def Memory.write (m : Memory) (a : Nat) (v : BitVector) : Memory := assocSet a v m

/-- `MemRead(a, W)` (R62). -/
def memRead (x : RamInst) (a : Nat) : Except Error (Held BitVector) :=
  if x.rowCount ≤ a then .error (.addressOutOfRange a) else .ok (x.mem.read a)

/-- `MemWrite(a, W, v)` (R63): the addressed row is replaced whole, no other row changes. -/
def memWrite (x : RamInst) (a : Nat) (v : BitVector) : Except Error RamInst :=
  if x.rowCount ≤ a then .error (.addressOutOfRange a) else .ok { x with mem := x.mem.write a v }

/-- The component under an identifier. -/
def State.inst? (s : State) (k : Nat) : Option Inst := assocGet k s.insts

/-- The state with a component's state replaced (or a new one constructed). -/
def State.setInst (s : State) (k : Nat) (x : Inst) : State := { s with insts := assocSet k x s.insts }

/-- The state at the next call: its index is counted (R31), and the constructed component it names, if any, is from
now on one that has been called. -/
def State.issueCall (s : State) (target : Option Nat) : State :=
  { s with
    calls := s.calls + 1
    called :=
      match target with
      | none => s.called
      | some k => if (s.inst? k).isSome ∧ k ∉ s.called then s.called ++ [k] else s.called }

/-- A call returns these outputs (R12). -/
def State.returns (s : State) (outputs : List HeldBits) : State :=
  { s with outcomes := s.outcomes ++ [.returned outputs] }

/-- A call is refused (R12): the refusal is its outcome (R310), and nothing else changes. -/
def State.refuses (s : State) (why : IllFormed) : State := { s with outcomes := s.outcomes ++ [.refused why] }

/-- A host read receives a value (R40). -/
def State.answersRead (s : State) (v : BitVector) : State :=
  { s with outcomes := s.outcomes ++ [.readValue v] }

/-- TEST_GATE delivers records to the host's sink (R120). -/
def State.deliver (s : State) (rs : List SinkRecord) : State := { s with sink := s.sink ++ rs }

/-- TAKING AN ERROR (R280, R281): the call ends at the check that failed and returns the error instead of outputs;
(call index, component, error, info) is appended to the fault record; no component changes, and control moves
nowhere. -/
def State.raises (s : State) (inst : Option Nat) (e : Error) : State :=
  { s with
    faults := s.faults ++ [{ callIndex := s.calls, inst := inst, error := e }]
    outcomes := s.outcomes ++ [.raised e] }

/-- The answer of a call that raises an error: the run goes on (R282). -/
def raise (s : State) (inst : Option Nat) (e : Error) : Result := .next (s.raises inst e)

/-- The answer of a call that is not well formed: it has no meaning (R12, R13). -/
def refuseCall (why : IllFormed) : Result := .refused (.illFormed why)

/-- An operation performed in the state `s` answers `r`: a refusal of R13 is recorded as its outcome, and the run goes
on (R310). A refusal for which D36 gives no move stays one. -/
def recordRefusal (s : State) (r : Result) : Result :=
  match r with
  | .refused (.illFormed why) => .next (s.refuses why)
  | other => other

end Sys2Proof.Machine
end

