-- ==== Sys2Proof/Machine/Operands.lean ====
section
/-! DEFINITION. Operands: symbols and their validation (spec/60_exceptions.md R272), ports and the widths they take
(spec/00_scope.md R10, R13), the vector notation of R9, and the shared front of every call (spec/30_encoding.md R86). -/

namespace Sys2Proof.Machine

/-- A valid symbol (R7, R82). -/
def validSymbol (c : Symbol) : Bool := c == '0' || c == '1'

/-- The Bit of a valid symbol (R82). -/
def symbolBit (c : Symbol) : Bit := c == '1'

/-- The BitVector an operand string presents (R8). -/
def bitsOf (x : Symbols) : BitVector := x.map symbolBit

/-- The Bit a one-bit operand presents. -/
def bitOf (x : Symbols) : Bit := (bitsOf x).headD false

/-- `v[i]` of R9: bit number i, 0 = least significant; 0 beyond the width, which is what zero-extension adds. -/
def bitAt (v : BitVector) (i : Nat) : Bit := v.reverse.getD i false

/-- `udec(v)` of R9. -/
def udec : BitVector → Nat
  | [] => 0
  | b :: v => b.toNat * 2 ^ v.length + udec v

/-- `sdec(v)` of R9: the two's-complement value. -/
def sdec (v : BitVector) : Int := (udec v : Int) - (v.headD false).toNat * 2 ^ v.length

/-- `zext_n(v)` of R9, for n >= width(v). -/
def zext (n : Nat) (v : BitVector) : BitVector := List.replicate (n - v.length) false ++ v

/-- `trunc_n(v)` of R9: the n least significant bits. -/
def trunc (n : Nat) (v : BitVector) : BitVector := v.drop (v.length - n)

/-- `bits_n(x)` of R9: the n-bit vector of x modulo 2^n. -/
def bitsNat : Nat → Nat → BitVector
  | 0, _ => []
  | n + 1, x => x.testBit n :: bitsNat n x

/-- The width of the widest vector (R10). -/
def maxWidth (vs : List BitVector) : Nat := (vs.map List.length).foldr max 0

/-- A vector whose bits are all known, as an output. -/
def knownBits (v : BitVector) : HeldBits := v.map .known

/-- `not` on a state bit: `not Uninit = Uninit` (R35). -/
def heldNot : Held Bit → Held Bit
  | .uninit => .uninit
  | .known b => .known (!b)

/-- The complement output of R35. -/
def notq (q : HeldBits) : HeldBits := q.map heldNot

/-- What an operand position accepts (R13, R81). -/
inductive Port where
  /-- any width >= 1 -/
  | any
  /-- exactly one bit (D10, D13, control lines) -/
  | bit
  /-- width 1 to n (D9) -/
  | upTo (n : Nat)
  deriving DecidableEq, Repr

/-- Why an operand does not fit its port; `none` where it fits. DESIGN CHOICE (log entry 19): width 0 comes first. -/
def Port.misfit (p : Port) (x : Symbols) : Option IllFormed :=
  if x.length = 0 then some .zeroWidth
  else match p with
    | .any => none
    | .bit => if x.length = 1 then none else some .notOneBit
    | .upTo n => if x.length ≤ n then none else some .tooWide

/-- The first misfit of a call's operands, in operand order. DESIGN CHOICE (log entry 19): R13 gives no order among its
conditions. -/
def firstMisfit : List (Port × Symbols) → Option IllFormed
  | [] => none
  | (p, x) :: r =>
    match p.misfit x with
    | some why => some why
    | none => firstMisfit r

/-- The leftmost invalid symbol of one operand and its string position, counted from `pos`. -/
def badSymbolFrom (pos : Nat) : Symbols → Option (Nat × Symbol)
  | [] => none
  | c :: r => if validSymbol c then badSymbolFrom (pos + 1) r else some (pos, c)

/-- The first invalid symbol in operand order, leftmost first, the operands counted from `k` (R272). -/
def badOperandFrom (k : Nat) : List Symbols → Option Error
  | [] => none
  | x :: r =>
    match badSymbolFrom 0 x with
    | some (pos, c) => some (.invalidBitSymbol k pos c)
    | none => badOperandFrom (k + 1) r

/-- The front of every call, in the order of R86 and R279: well-formedness (refused), then every symbol of every
operand (raised), then the call's own rule `k`. `legal` is what makes the call ill-formed beside its widths. DESIGN CHOICE (log
entry 19): where several conditions of R13 hold, the reason recorded is `legal`'s (a parameter, a count, a MUX without
inputs) before the first misfit of an operand; R12, R13 and R279 give no order among the reasons. -/
def callFront (inst : Option Nat) (legal : Option IllFormed) (ports : List (Port × Symbols)) (s : State)
    (k : Result) : Result :=
  match legal with
  | some why => refuseCall why
  | none =>
    match firstMisfit ports with
    | some why => refuseCall why
    | none =>
      match badOperandFrom 0 (ports.map Prod.snd) with
      | some e => raise s inst e
      | none => k

end Sys2Proof.Machine
end

