-- ==== Sys2Proof/Machine/Flags.lean ====
section
/-! DEFINITION. The carry chain and the one-bit results computed from it. The block keeps no flag (spec/10_state.md
R32): carry-out, overflow, equality and zero are outputs of the call that computes them (spec/42_arithmetic.md). -/

namespace Sys2Proof.Machine

/-- `(sum, carry)` of the half adder (R140). -/
def halfAdder (a b : Bit) : Bit × Bit := (a ^^ b, a && b)

/-- `(sum, carry)` of the full adder (R141). -/
def fullAdder (a b cin : Bit) : Bit × Bit := ((a ^^ b) ^^ cin, (a && b) || (a && cin) || (b && cin))

/-- The carry chain of R142 on vectors written LEAST significant bit first: the sum bits, and every carry from the
one going in to the one coming out. -/
def rippleLsb (c : Bit) : BitVector → BitVector → BitVector × List Bit
  | a :: as, b :: bs =>
    let fa := fullAdder a b c
    let rest := rippleLsb fa.2 as bs
    (fa.1 :: rest.1, c :: rest.2)
  | _, _ => ([], [c])

/-- `chain(A, B)` of R142: the sum, most significant first, and the carries `c[0]` to `c[w]` by index. The chain
starts from 0 (R146). -/
def chain (a b : BitVector) : BitVector × List Bit :=
  let r := rippleLsb false a.reverse b.reverse
  (r.1.reverse, r.2)

/-- `c[i]`. -/
def carryAt (c : List Bit) (i : Nat) : Bit := c.getD i false

/-- `add(a, b)` (R143): the result grows by the carry. -/
def addVec (a b : BitVector) : BitVector :=
  let w := maxWidth [a, b]
  let r := chain (zext w a) (zext w b)
  if carryAt r.2 w then true :: r.1 else r.1

/-- `addN(a, b)` (R144): the sum, `cout` and `overflow`. -/
def addFixedVec (n : Nat) (a b : BitVector) : BitVector × Bit × Bit :=
  let r := chain (zext n a) (zext n b)
  (r.1, carryAt r.2 n, carryAt r.2 (n - 1) ^^ carryAt r.2 n)

/-- `eq(a, b)` (R151). -/
def eqVec (a b : BitVector) : Bit :=
  let w := maxWidth [a, b]
  zext w a == zext w b

/-- `zero(x)` is `eq(x, "0")` (R152). -/
def zeroVec (x : BitVector) : Bit := eqVec x [false]

/-- `twoComplement(x)` (R150): the carry out of the add is dropped. -/
def twoComplementVec (x : BitVector) : BitVector :=
  let w := x.length
  trunc w (addVec (x.map not) (zext w [true]))

end Sys2Proof.Machine
end

