-- ==== Sys2Proof/Machine/Arithmetic.lean ====
section
/-! DEFINITION. The arithmetic family (spec/42_arithmetic.md): adders, negation, equality and zero test. -/

namespace Sys2Proof.Machine

/-- HALF_ADD (R140). -/
def execHalfAdd (a b : Symbols) (s : State) : Result :=
  callFront none none [(.bit, a), (.bit, b)] s
    (let r := halfAdder (bitOf a) (bitOf b)
     .next (s.returns [knownBits [r.1], knownBits [r.2]]))

/-- FULL_ADD (R141). -/
def execFullAdd (a b cin : Symbols) (s : State) : Result :=
  callFront none none [(.bit, a), (.bit, b), (.bit, cin)] s
    (let r := fullAdder (bitOf a) (bitOf b) (bitOf cin)
     .next (s.returns [knownBits [r.1], knownBits [r.2]]))

/-- ADD (R143). -/
def execAdd (a b : Symbols) (s : State) : Result :=
  callFront none none [(.any, a), (.any, b)] s
    (.next (s.returns [knownBits (addVec (bitsOf a) (bitsOf b))]))

/-- ADD_FIXED (R144) with its parameter N >= 1. -/
def execAddFixed (n : Nat) (a b : Symbols) (s : State) : Result :=
  callFront none (if 1 ≤ n then none else some .badParameter) [(.upTo n, a), (.upTo n, b)] s
    (let r := addFixedVec n (bitsOf a) (bitsOf b)
     .next (s.returns [knownBits r.1, knownBits [r.2.1], knownBits [r.2.2]]))

/-- TWO_COMPLEMENT (R150). -/
def execTwoComplement (x : Symbols) (s : State) : Result :=
  callFront none none [(.any, x)] s (.next (s.returns [knownBits (twoComplementVec (bitsOf x))]))

/-- EQ (R151). -/
def execEqCompare (a b : Symbols) (s : State) : Result :=
  callFront none none [(.any, a), (.any, b)] s (.next (s.returns [knownBits [eqVec (bitsOf a) (bitsOf b)]]))

/-- ZERO (R152). -/
def execZeroTest (x : Symbols) (s : State) : Result :=
  callFront none none [(.any, x)] s (.next (s.returns [knownBits [zeroVec (bitsOf x)]]))

end Sys2Proof.Machine
end

