-- ==== Sys2Proof/Machine/BitAlgebra.lean ====
section
/-! DEFINITION. The bit-algebra family (spec/41_bit_algebra.md): the seven gates and the truth-table harness. -/

namespace Sys2Proof.Machine

/-- The left fold of a two-input gate over the operands' bits (D4). -/
def foldGate (f : Bit → Bit → Bit) : List Bit → Bit
  | [] => false
  | b :: bs => bs.foldl f b

/-- Odd parity (R107). -/
def oddParity (bs : List Bit) : Bit := bs.foldr xor false

/-- The per-bit function of a gate (R102 to R108, D4). -/
def gateBit (nary : Nary) : Gate → List Bit → Bit
  | .and, bs => bs.all id
  | .or, bs => bs.any id
  | .not, bs => !bs.headD false
  | .nand, bs =>
    match nary with
    | .standard => !bs.all id
    | .leftFold => foldGate (fun x y => !(x && y)) bs
  | .nor, bs =>
    match nary with
    | .standard => !bs.any id
    | .leftFold => foldGate (fun x y => !(x || y)) bs
  | .xor, bs => oddParity bs
  | .xnor, bs =>
    match nary with
    | .standard => !oddParity bs
    | .leftFold => foldGate (fun x y => !(x ^^ y)) bs

/-- The result of R100: the bit function position by position, the operands zero-extended to the widest. -/
def gateVec (f : List Bit → Bit) (vs : List BitVector) : BitVector :=
  let w := maxWidth vs
  (List.range w).map fun j => f (vs.map fun v => (zext w v).getD j false)

/-- A gate call (R100). -/
def gateCall (g : Gate) (ops : List Symbols) (s : State) : Result :=
  callFront none (if g.arityOk ops.length then none else some .operandCount) (ops.map fun x => (Port.any, x)) s
    (.next (s.returns [knownBits (gateVec (gateBit s.params.nary g) (ops.map bitsOf))]))

/-- AND (R102). -/
def execAndGate (ops : List Symbols) (s : State) : Result := gateCall .and ops s

/-- OR (R103). -/
def execOrGate (ops : List Symbols) (s : State) : Result := gateCall .or ops s

/-- NOT (R104). -/
def execNotGate (x : Symbols) (s : State) : Result := gateCall .not [x] s

/-- NAND (R105). -/
def execNandGate (ops : List Symbols) (s : State) : Result := gateCall .nand ops s

/-- NOR (R106). -/
def execNorGate (ops : List Symbols) (s : State) : Result := gateCall .nor ops s

/-- XOR (R107). -/
def execXorGate (ops : List Symbols) (s : State) : Result := gateCall .xor ops s

/-- XNOR (R108). -/
def execXnorGate (ops : List Symbols) (s : State) : Result := gateCall .xnor ops s

/-- The records of R120 in ascending order of the pattern; operand j is string position j. -/
def gateRecords (nary : Nary) (g : Gate) (n sink : Nat) : List SinkRecord :=
  (List.range (2 ^ n)).map fun c =>
    let inputs := (bitsNat n c).map fun b => [b]
    { sink := sink, inputs := inputs, output := gateVec (gateBit nary g) inputs }

/-- TEST_GATE (R120): a gate that is none raises `UnsupportedOperation` (R85); a wrong input count, a negative one among
them, is refused (D3). -/
def execTestGate (gate : OpName) (n : Int) (sink : Nat) (s : State) : Result :=
  match gate.gate? with
  | none => raise s none (.unsupportedOperation gate)
  | some g =>
    if g.inputsOk n then .next ((s.deliver (gateRecords s.params.nary g n.toNat sink)).returns [])
    else refuseCall .operandCount

end Sys2Proof.Machine
end

