-- ==== Sys2Proof/Machine/Selection.lean ====
section
/-! DEFINITION. The selection family (spec/43_selection.md): multiplexer and demultiplexer. -/

namespace Sys2Proof.Machine

/-- MUX (R180): every input, selected or not, and the selector are validated before the range check (D11, D24). -/
def execMux (inputs : List Symbols) (selector : Symbols) (s : State) : Result :=
  callFront none (if inputs.length = 0 then some .noInputs else none)
    ((inputs ++ [selector]).map fun x => (Port.any, x)) s
    (let vs := inputs.map bitsOf
     let n := udec (bitsOf selector)
     match vs[n]? with
     | none => raise s none (.selectorOutOfRange n vs.length)
     | some v => .next (s.returns [knownBits (zext (maxWidth vs) v)]))

/-- The string position of output line n among `lines` lines (R181, D12). -/
def demuxPosition (order : DemuxOrder) (lines n : Nat) : Nat :=
  match order with
  | .stringIndex => n
  | .lsbNumber => lines - 1 - n

/-- The output of R181. -/
def demuxVec (order : DemuxOrder) (enable : Bit) (selector : BitVector) : BitVector :=
  let lines := 2 ^ selector.length
  let at_ := demuxPosition order lines (udec selector)
  (List.range lines).map fun j => enable && j == at_

/-- DEMUX (R181). -/
def execDemux (enable selector : Symbols) (s : State) : Result :=
  callFront none none [(.bit, enable), (.any, selector)] s
    (.next (s.returns [knownBits (demuxVec s.params.demuxOrder (bitOf enable) (bitsOf selector))]))

end Sys2Proof.Machine
end

