-- ==== Sys2Proof/Machine/Sequential.lean ====
section
/-! DEFINITION. The sequential family (spec/44_sequential.md): the edge-triggered contract, the flip-flops and the
register. -/

namespace Sys2Proof.Machine

/-- The result of the rising-edge test of R201. -/
inductive Edge where
  | rising
  | still
  | unknown
  deriving DecidableEq, Repr

/-- `edgeOf(st, clk)` (R201). -/
def edgeOf (prev : Held Bit) (clk : Bit) : Edge :=
  match clk, prev with
  | false, _ => .still
  | true, .known false => .rising
  | true, .known true => .still
  | true, .uninit => .unknown

/-- The S-R column of R203. A rising edge with s = r = 1 raises (R206), so that line is never read (log entry 13). -/
def srNext (q : Held Bit) (s r : Bit) : Held Bit :=
  match s, r with
  | true, _ => .known true
  | false, true => .known false
  | false, false => q

/-- The J-K column of R203. -/
def jkNext (q : Held Bit) (j k : Bit) : Held Bit :=
  match j, k with
  | true, false => .known true
  | false, true => .known false
  | false, false => q
  | true, true => heldNot q

/-- A per-bit rule at every position of equally wide vectors (R209). -/
def eachBit (f : Held Bit → Bit → Bit → Held Bit) : HeldBits → BitVector → BitVector → HeldBits
  | q :: qs, a :: as, b :: bs => f q a b :: eachBit f qs as bs
  | _, _, _ => []

/-- The lowest bit number with s = r = 1, for vectors written LEAST significant bit first (R206). -/
def conflictFrom (i : Nat) : BitVector → BitVector → Option Nat
  | s :: ss, r :: rs => if s && r then some i else conflictFrom (i + 1) ss rs
  | _, _ => none

/-- The lowest bit number with s = r = 1 (R206, R274). -/
def lowestConflict (s r : BitVector) : Option Nat := conflictFrom 0 s.reverse r.reverse

/-- A call on a flip-flop or register: the component must be constructed and of the operation's kind (D36), and its
width legal (R6, R13 d); then the front of every call, the ports depending on the width. DESIGN CHOICE (log entry 19):
the component is looked at before the call's well-formedness. -/
def seqFront (inst : Nat) (kind : SeqKind) (ports : Nat → List (Port × Symbols)) (s : State)
    (k : SeqInst → Result) : Result :=
  match s.inst? inst with
  | some (.seq x) =>
    if x.kind = kind then
      callFront (some inst) (if x.q.length = 0 then some .badParameter else none) (ports x.q.length) s (k x)
    else .refused (.wrongComponent inst)
  | some (.ram _) => .refused (.wrongComponent inst)
  | none => .refused (.noComponent inst)

/-- A call completes: the new output is kept, `st.prev <- clk` (R202), and q and notq are returned (R35). -/
def seqDone (inst : Nat) (x : SeqInst) (q : HeldBits) (clk : Bit) (s : State) : Result :=
  .next ((s.setInst inst (.seq { x with q := q, prev := .known clk })).returns [q, notq q])

/-- The synchronous path (R201, R202): on an edge `next` gives the new output or the error, without one q holds. -/
def seqSync (inst : Nat) (x : SeqInst) (clk : Bit) (next : Except Error HeldBits) (s : State) : Result :=
  match edgeOf x.prev clk with
  | .unknown => raise s (some inst) .uninitialisedClock
  | .still => seqDone inst x x.q clk s
  | .rising =>
    match next with
    | .error e => raise s (some inst) e
    | .ok q => seqDone inst x q clk s

/-- DFF (R204). -/
def execDff (inst : Nat) (d clk : Symbols) (s : State) : Result :=
  seqFront inst .dff (fun n => [(.upTo n, d), (.bit, clk)]) s fun x =>
    seqSync inst x (bitOf clk) (.ok (knownBits (zext x.q.length (bitsOf d)))) s

/-- DFF_SC (R205): the async lines act without the edge test, and both record the clock (R202, C7). -/
def execDffSc (inst : Nat) (d set clr clk : Symbols) (s : State) : Result :=
  seqFront inst .dffSc (fun n => [(.upTo n, d), (.bit, set), (.bit, clr), (.bit, clk)]) s fun x =>
    if bitOf set && bitOf clr then raise s (some inst) .asyncSetClearConflict
    else if bitOf set then seqDone inst x (List.replicate x.q.length (.known true)) (bitOf clk) s
    else if bitOf clr then seqDone inst x (List.replicate x.q.length (.known false)) (bitOf clk) s
    else seqSync inst x (bitOf clk) (.ok (knownBits (zext x.q.length (bitsOf d)))) s

/-- What an S-R flip-flop takes on an edge (R206). -/
def srEdge (q : HeldBits) (s r : BitVector) : Except Error HeldBits :=
  match lowestConflict s r with
  | some i => .error (.invalidState i)
  | none => .ok (eachBit srNext q s r)

/-- SR_FF (R206). -/
def execSrFf (inst : Nat) (s r clk : Symbols) (st : State) : Result :=
  seqFront inst .sr (fun n => [(.upTo n, s), (.upTo n, r), (.bit, clk)]) st fun x =>
    seqSync inst x (bitOf clk) (srEdge x.q (zext x.q.length (bitsOf s)) (zext x.q.length (bitsOf r))) st

/-- JK_FF (R207). -/
def execJkFf (inst : Nat) (j k clk : Symbols) (s : State) : Result :=
  seqFront inst .jk (fun n => [(.upTo n, j), (.upTo n, k), (.bit, clk)]) s fun x =>
    seqSync inst x (bitOf clk)
      (.ok (eachBit jkNext x.q (zext x.q.length (bitsOf j)) (zext x.q.length (bitsOf k)))) s

/-- REGISTER (R208): all NR bits at once, no load enable. -/
def execRegister (inst : Nat) (d clk : Symbols) (s : State) : Result :=
  seqFront inst .register (fun n => [(.upTo n, d), (.bit, clk)]) s fun x =>
    seqSync inst x (bitOf clk) (.ok (knownBits (zext x.q.length (bitsOf d)))) s

end Sys2Proof.Machine
end

