-- ==== Sys2Proof/Machine/Storage.lean ====
section
/-! DEFINITION. The storage family (spec/45_storage.md): the single-read-port RAM. -/

namespace Sys2Proof.Machine

/-- A row as an output of W bits (R250, R258). -/
def rowOut (w : Nat) : Held BitVector → HeldBits
  | .uninit => List.replicate w .uninit
  | .known v => knownBits v

/-- The RAM's output as it stands: the row at the address register, `Uninit` before the first call (R40, R258). -/
def ramOut (x : RamInst) : HeldBits :=
  match x.addr with
  | .uninit => rowOut x.w .uninit
  | .known a => rowOut x.w (x.mem.read (udec a))

/-- The parameters of R6: W >= 1, ADDR_W >= 1, 1 <= ROWS <= 2^ADDR_W. -/
def ramLegal (rows addrW w : Nat) : Bool :=
  decide (1 ≤ w ∧ 1 ≤ addrW ∧ 1 ≤ rows ∧ rows ≤ 2 ^ addrW)

/-- A call on a RAM: the component must be constructed and be a RAM (D36), its parameters legal (R13 d); then the
front of every call. DESIGN CHOICE (log entry 19): the component is looked at before the call's well-formedness. -/
def ramFront (inst : Nat) (ports : RamInst → List (Port × Symbols)) (s : State) (k : RamInst → Result) : Result :=
  match s.inst? inst with
  | some (.ram x) =>
    callFront (some inst) (if ramLegal x.rowCount x.addrW x.w then none else some .badParameter) (ports x) s (k x)
  | some (.seq _) => .refused (.wrongComponent inst)
  | none => .refused (.noComponent inst)

/-- The RAM after a call that completes (R250 to R254): the address register is overwritten by every call, the row
on a rising edge with `write`, the previous clock by every call. -/
def ramNext (x : RamInst) (a : BitVector) (dataIn : BitVector) (write clk : Bit) : RamInst :=
  let mem :=
    if write && edgeOf x.prev clk == .rising then x.mem.write (udec a) (zext x.w dataIn) else x.mem
  { x with addr := .known a, mem := mem, prev := .known clk }

/-- RAM_1R (R250): all checks precede every change; the output is read after the write (R253, R255). -/
def execRam1r (inst : Nat) (address dataIn write clk : Symbols) (s : State) : Result :=
  ramFront inst (fun x => [(.upTo x.addrW, address), (.upTo x.w, dataIn), (.bit, write), (.bit, clk)]) s fun x =>
    let a := zext x.addrW (bitsOf address)
    if x.rowCount ≤ udec a then raise s (some inst) (.addressOutOfRange (udec a))
    else if bitOf write && edgeOf x.prev (bitOf clk) == .unknown then raise s (some inst) .uninitialisedClock
    else
      let x' := ramNext x a (bitsOf dataIn) (bitOf write) (bitOf clk)
      .next ((s.setInst inst (.ram x')).returns [ramOut x'])

end Sys2Proof.Machine
end

