-- ==== Sys2Proof/Machine/Dispatch.lean ====
section
/-! DEFINITION. One arm per instruction: which meaning an instruction has. -/

namespace Sys2Proof.Machine

def exec (i : Instr) (s : State) : Host.Outcome State Fault Refusal :=
  match i with
  | .andGate ops => Sys2Proof.Machine.execAndGate ops s
  | .orGate ops => Sys2Proof.Machine.execOrGate ops s
  | .notGate x => Sys2Proof.Machine.execNotGate x s
  | .nandGate ops => Sys2Proof.Machine.execNandGate ops s
  | .norGate ops => Sys2Proof.Machine.execNorGate ops s
  | .xorGate ops => Sys2Proof.Machine.execXorGate ops s
  | .xnorGate ops => Sys2Proof.Machine.execXnorGate ops s
  | .halfAdd a b => Sys2Proof.Machine.execHalfAdd a b s
  | .fullAdd a b cin => Sys2Proof.Machine.execFullAdd a b cin s
  | .add a b => Sys2Proof.Machine.execAdd a b s
  | .addFixed n a b => Sys2Proof.Machine.execAddFixed n a b s
  | .twoComplement x => Sys2Proof.Machine.execTwoComplement x s
  | .eqCompare a b => Sys2Proof.Machine.execEqCompare a b s
  | .zeroTest x => Sys2Proof.Machine.execZeroTest x s
  | .mux inputs selector => Sys2Proof.Machine.execMux inputs selector s
  | .demux enable selector => Sys2Proof.Machine.execDemux enable selector s
  | .dff inst d clk => Sys2Proof.Machine.execDff inst d clk s
  | .dffSc inst d set clr clk => Sys2Proof.Machine.execDffSc inst d set clr clk s
  | .srFf inst sIn rIn clk => Sys2Proof.Machine.execSrFf inst sIn rIn clk s
  | .jkFf inst j k clk => Sys2Proof.Machine.execJkFf inst j k clk s
  | .register inst d clk => Sys2Proof.Machine.execRegister inst d clk s
  | .ram1r inst address dataIn write clk => Sys2Proof.Machine.execRam1r inst address dataIn write clk s
  | .testGate gate n sink => Sys2Proof.Machine.execTestGate gate n sink s

end Sys2Proof.Machine
end

