-- ==== Sys2Proof/Machine/HostOps.lean ====
section
/-! DEFINITION. What the host does beside the opcode table (spec/00_scope.md R15): issuing a call record, calling a
gate by name (R101), constructing a component (R300, R302), preloading RAM rows (R256) and reading an output between
calls (R40, R277). -/

namespace Sys2Proof.Machine

/-- A call of an operation that does not exist: `UnsupportedOperation` (R85), after the well-formedness that R13 (a)
and R279 put before it. -/
def unsupportedCall (op : OpName) (operands : List Symbols) (s : State) : Result :=
  if operands.any fun x => x.length == 0 then refuseCall .zeroWidth
  else raise s none (.unsupportedOperation op)

/-- One call record in the state that counts the call: it is decoded, and the instruction runs. -/
def execCall (c : Call) (s : State) : Result :=
  match decode c with
  | .ok i => exec i s
  | .error (.unsupported op) => unsupportedCall op c.operands s
  | .error .operandCount => refuseCall .operandCount

/-- One call (R80): it is issued (R31), runs, and a refusal is its outcome (R12, R310). -/
def runCall (c : Call) (s : State) : Result :=
  recordRefusal (s.issueCall c.target?) (execCall c (s.issueCall c.target?))

/-- The call that `evaluate` makes of a gate (R101). -/
def gateCallRecord (g : Gate) (bitInputs : List Symbols) : Call :=
  { op := g.opcode.selector, inst := 0, operands := bitInputs, params := CallParams.none }

/-- `evaluate(gateName, bitInputs)` (R101): an unknown name raises `UnsupportedOperation` (R85). -/
def runEvaluate (gateName : Symbols) (bitInputs : List Symbols) (s : State) : Result :=
  match Gate.ofName gateName with
  | some g => runCall (gateCallRecord g bitInputs) s
  | none => recordRefusal (s.issueCall none) (unsupportedCall (.name gateName) bitInputs (s.issueCall none))

/-- A component at its reset values (R39); `none` where a parameter is illegal (R6). -/
def buildComponent : Component → Option Inst
  | .seq kind width initQ initPrev =>
    if 1 ≤ width then some (.seq { kind := kind, q := List.replicate width initQ, prev := initPrev }) else none
  | .ram rows addrW w initPrev =>
    if ramLegal rows addrW w then
      some (.ram { rowCount := rows, addrW := addrW, w := w, mem := [], addr := .uninit, prev := initPrev })
    else none

/-- Construction (R300, R302): "constructed once". An illegal parameter is refused (R13 d). DESIGN CHOICE (log entry
19): the identifier is looked at before the parameters. -/
def runConstruct (inst : Nat) (c : Component) (s : State) : Result :=
  match s.inst? inst with
  | some _ => .refused (.alreadyConstructed inst)
  | none =>
    match buildComponent c with
    | none => recordRefusal s (refuseCall .badParameter)
    | some x => .next (s.setInst inst x)

/-- A row number of a preload that is out of range raises (R256). DESIGN CHOICE (log entry 18): where several are, the
first in list order is the one reported; R256 does not say which. -/
def badRow (rowCount : Nat) : List (Nat × Symbols) → Option Error
  | [] => none
  | (r, _) :: rest => if rowCount ≤ r then some (.addressOutOfRange r) else badRow rowCount rest

/-- The rows after a preload, set in list order (R256). -/
def preloadRows (w : Nat) (mem : Memory) : List (Nat × Symbols) → Memory
  | [] => mem
  | (r, v) :: rest => preloadRows w (mem.write r (zext w (bitsOf v))) rest

/-- No call has been issued on the component (R256, R302). -/
def beforeFirstCall (inst : Nat) (s : State) : Bool := decide (inst ∉ s.called)

/-- The effect of a preload (R256): none on `st.addr` or `st.prev`, and none at all where it faults. -/
def setRows (inst : Nat) (rows : List (Nat × Symbols)) (s : State) : Result :=
  ramFront inst (fun x => rows.map fun p => (Port.upTo x.w, p.2)) s fun x =>
    match badRow x.rowCount rows with
    | some e => raise s (some inst) e
    | none => .next (s.setInst inst (.ram { x with mem := preloadRows x.w x.mem rows }))

/-- Preload (R256): only before the first call (R302, D36); a value wider than a row is refused. DESIGN CHOICE (log
entry 19): whether a call came first is looked at before the values. -/
def runPreload (inst : Nat) (rows : List (Nat × Symbols)) (s : State) : Result :=
  if beforeFirstCall inst s then recordRefusal s (setRows inst rows s) else .refused (.preloadAfterCall inst)

/-- An output between calls (R40); `none` where the component has not that output. -/
def outputOf : Inst → OutputName → Option HeldBits
  | .seq x, .q => some x.q
  | .seq x, .notq => some (notq x.q)
  | .seq _, .out => none
  | .ram x, .out => some (ramOut x)
  | .ram _, .q => none
  | .ram _, .notq => none

/-- The Bits of an output, where every one holds a value. -/
def allKnown : HeldBits → Option BitVector
  | [] => some []
  | .uninit :: _ => none
  | .known b :: r => (allKnown r).map (b :: ·)

/-- A host read (R40): an output that holds `Uninit` raises `UninitialisedRead` (R277). -/
def runRead (inst : Nat) (output : OutputName) (s : State) : Result :=
  match s.inst? inst with
  | none => .refused (.noComponent inst)
  | some x =>
    match outputOf x output with
    | none => .refused (.noSuchOutput inst output)
    | some o =>
      match allKnown o with
      | none => raise s (some inst) (.uninitialisedRead inst output)
      | some v => .next (s.answersRead v)

/-- One operation of the host (R15). -/
def runHostOp (op : HostOp) (s : State) : Result :=
  match op with
  | .construct inst c => runConstruct inst c s
  | .preload inst rows => runPreload inst rows s
  | .call c => runCall c s
  | .evaluate gateName bitInputs => runEvaluate gateName bitInputs s
  | .read inst output => runRead inst output s

/-- The least legal component an operation can be called on (log entry 3); `none` for the operations without one. -/
def leastInst : Opcode → Option Inst
  | .dff => buildComponent (.seq .dff 1 .uninit .uninit)
  | .dffSc => buildComponent (.seq .dffSc 1 .uninit .uninit)
  | .srFf => buildComponent (.seq .sr 1 .uninit .uninit)
  | .jkFf => buildComponent (.seq .jk 1 .uninit .uninit)
  | .register => buildComponent (.seq .register 1 .uninit .uninit)
  | .ram1r => buildComponent (.ram 1 1 1 .uninit)
  | _ => none

/-- Whether a component is one the operation is called on. -/
def fitsOpcode : Opcode → Inst → Bool
  | .dff, .seq x => x.kind == .dff
  | .dffSc, .seq x => x.kind == .dffSc
  | .srFf, .seq x => x.kind == .sr
  | .jkFf, .seq x => x.kind == .jk
  | .register, .seq x => x.kind == .register
  | .ram1r, .ram _ => true
  | _, _ => false

/-- The state with component 0 one the operation can be called on: unchanged where it is, or where the operation has
no component. -/
def State.withComponentFor (s : State) (o : Opcode) : State :=
  match leastInst o with
  | none => s
  | some x =>
    match s.inst? 0 with
    | none => s.setInst 0 x
    | some y => if fitsOpcode o y then s else s.setInst 0 x

end Sys2Proof.Machine
end

