-- ==== Sys2Proof/Machine/Step.lean ====
section
/-! DEFINITION. One step: the host performs its next operation (spec/00_scope.md R5, R15). The block fetches nothing
(spec/20_memory.md R71), so the host's operations still to come stand in the state (log entry 1). -/

namespace Sys2Proof.Machine

/-- The next host operation runs; without one the run has ended (R310). -/
def step (s : State) : Host.Outcome State Fault Refusal :=
  match s.pending with
  | [] => .fault .endOfRun
  | op :: rest => runHostOp op { s with pending := rest }

/-- The state whose next step runs the call of a word of the opcode table: the host issues it next, and component 0
is one it can be called on (log entries 3, 4). -/
def State.withFetchWord (s : State) (nbits w : Nat) : State :=
  let c := Call.ofTableWord (w % 2 ^ nbits)
  let s := match Opcode.ofSelector c.op with
    | none => s
    | some o => s.withComponentFor o
  { s with pending := .call c :: s.pending }

end Sys2Proof.Machine
end

