-- ==== Sys2Proof/WellFormed.lean ====
section
/-! DEFINITION. The well-formedness of spec/00_scope.md R13 as far as the instruction alone decides it: no operand of
width 0 (a), the operand count of a gate (b), operands no longer than ADD_FIXED's N (c), its N legal (d), a MUX with
inputs (e), and the one-bit operands of R140, R141, R181 and of the control lines. What depends on a component's
widths stands in Safety.lean (`Accepts`). -/

namespace Sys2Proof

/-- Width at least 1 (D5). -/
def nonZeroWidth (x : Symbols) : Bool := decide (1 ≤ x.length)

/-- Exactly one bit wide (D10, D13). -/
def oneBitWide (x : Symbols) : Bool := decide (x.length = 1)

/-- Width 1 to n (D9). -/
def fitsPort (n : Nat) (x : Symbols) : Bool := decide (1 ≤ x.length ∧ x.length ≤ n)

/-- Two or more operands, none of width 0 (D3, D5). -/
def gateOperandsOk (ops : List Symbols) : Bool := decide (2 ≤ ops.length) && ops.all nonZeroWidth

/-- R13 for one instruction. A TEST_GATE of no gate is well formed: it is a fault (R85), no refusal. -/
def Instr.wf : Instr → Bool
  | .andGate ops => gateOperandsOk ops
  | .orGate ops => gateOperandsOk ops
  | .notGate x => nonZeroWidth x
  | .nandGate ops => gateOperandsOk ops
  | .norGate ops => gateOperandsOk ops
  | .xorGate ops => gateOperandsOk ops
  | .xnorGate ops => gateOperandsOk ops
  | .halfAdd a b => oneBitWide a && oneBitWide b
  | .fullAdd a b cin => oneBitWide a && oneBitWide b && oneBitWide cin
  | .add a b => nonZeroWidth a && nonZeroWidth b
  | .addFixed n a b => decide (1 ≤ n) && fitsPort n a && fitsPort n b
  | .twoComplement x => nonZeroWidth x
  | .eqCompare a b => nonZeroWidth a && nonZeroWidth b
  | .zeroTest x => nonZeroWidth x
  | .mux inputs selector => decide (1 ≤ inputs.length) && inputs.all nonZeroWidth && nonZeroWidth selector
  | .demux enable selector => oneBitWide enable && nonZeroWidth selector
  | .dff _ d clk => nonZeroWidth d && oneBitWide clk
  | .dffSc _ d set clr clk => nonZeroWidth d && oneBitWide set && oneBitWide clr && oneBitWide clk
  | .srFf _ s r clk => nonZeroWidth s && nonZeroWidth r && oneBitWide clk
  | .jkFf _ j k clk => nonZeroWidth j && nonZeroWidth k && oneBitWide clk
  | .register _ d clk => nonZeroWidth d && oneBitWide clk
  | .ram1r _ address dataIn write clk =>
    nonZeroWidth address && nonZeroWidth dataIn && oneBitWide write && oneBitWide clk
  | .testGate gate n _ =>
    match gate.gate? with
    | none => true
    | some g => g.inputsOk n

end Sys2Proof
end

