-- ==== Sys2Proof/Safety.lean ====
section
/-! DEFINITION. The terms claims use: a good run (spec/70_reset_and_hazards.md R310), which calls the block accepts
(spec/00_scope.md R13), and the invariant of the block's state. -/

namespace Sys2Proof.Machine

/-- The refusal an observed event is (R12). -/
def Event.refusal? : Event → Option IllFormed
  | .refused why => some why
  | .returned _ => none
  | .raised _ => none
  | .readValue _ => none

/-- A run is good so far when no call was refused and the fault record is empty (R310). -/
abbrev State.good (s : State) : Prop := s.faults = [] ∧ ∀ e ∈ s.outcomes, e.refusal? = none

/-- Every symbol of every operand is `'0'` or `'1'` (R7). -/
abbrev AllSymbolsValid (ops : List Symbols) : Prop := ∀ x ∈ ops, ∀ c ∈ x, c = '0' ∨ c = '1'

/-- The width of the constructed flip-flop or register of that kind under an identifier, 0 if there is none. -/
def seqWidth (s : State) (inst : Nat) (kind : SeqKind) : Nat :=
  match s.inst? inst with
  | some (.seq x) => if x.kind = kind then x.q.length else 0
  | _ => 0

/-- The constructed RAM under an identifier, with legal parameters. -/
def legalRam? (s : State) (inst : Nat) : Option RamInst :=
  match s.inst? inst with
  | some (.ram x) => if ramLegal x.rowCount x.addrW x.w then some x else none
  | _ => none

/-- The block accepts the call: it is well formed (R13), the component it names is constructed and of the operation's
kind (D36), and its operands fit the component's ports (R10, D9). -/
def Accepts (s : State) : Instr → Bool
  | .dff inst d clk => fitsPort (seqWidth s inst .dff) d && oneBitWide clk
  | .dffSc inst d set clr clk =>
    fitsPort (seqWidth s inst .dffSc) d && oneBitWide set && oneBitWide clr && oneBitWide clk
  | .srFf inst sIn rIn clk =>
    fitsPort (seqWidth s inst .sr) sIn && fitsPort (seqWidth s inst .sr) rIn && oneBitWide clk
  | .jkFf inst j k clk => fitsPort (seqWidth s inst .jk) j && fitsPort (seqWidth s inst .jk) k && oneBitWide clk
  | .register inst d clk => fitsPort (seqWidth s inst .register) d && oneBitWide clk
  | .ram1r inst address dataIn write clk =>
    match legalRam? s inst with
    | none => false
    | some x => fitsPort x.addrW address && fitsPort x.w dataIn && oneBitWide write && oneBitWide clk
  | .andGate ops => (Instr.andGate ops).wf
  | .orGate ops => (Instr.orGate ops).wf
  | .notGate x => (Instr.notGate x).wf
  | .nandGate ops => (Instr.nandGate ops).wf
  | .norGate ops => (Instr.norGate ops).wf
  | .xorGate ops => (Instr.xorGate ops).wf
  | .xnorGate ops => (Instr.xnorGate ops).wf
  | .halfAdd a b => (Instr.halfAdd a b).wf
  | .fullAdd a b cin => (Instr.fullAdd a b cin).wf
  | .add a b => (Instr.add a b).wf
  | .addFixed n a b => (Instr.addFixed n a b).wf
  | .twoComplement x => (Instr.twoComplement x).wf
  | .eqCompare a b => (Instr.eqCompare a b).wf
  | .zeroTest x => (Instr.zeroTest x).wf
  | .mux inputs selector => (Instr.mux inputs selector).wf
  | .demux enable selector => (Instr.demux enable selector).wf
  | .testGate gate n sink => (Instr.testGate gate n sink).wf

/-- The clock operand of a sequential or storage call (R81). -/
def clockOf : Instr → Option Symbols
  | .dff _ _ clk => some clk
  | .dffSc _ _ _ _ clk => some clk
  | .srFf _ _ _ clk => some clk
  | .jkFf _ _ _ clk => some clk
  | .register _ _ clk => some clk
  | .ram1r _ _ _ _ clk => some clk
  | _ => none

/-- A DFF_SC call with `set` or `clr` asserted: the one way q changes without an edge (R211, R301). -/
def assertsAsync : Instr → Bool
  | .dffSc _ _ set clr _ => bitOf set || bitOf clr
  | _ => false

/-- The edge detector's level of a component (`st.prev`, R34, R36, R37). -/
def Inst.prev : Inst → Held Bit
  | .seq x => x.prev
  | .ram x => x.prev

/-- A sequence of calls, each a next state of the one before; `none` where one is refused. -/
def execAll : List Instr → State → Option State
  | [], s => some s
  | i :: rest, s =>
    match exec i s with
    | .next t => execAll rest t
    | .fault _ => none
    | .refused _ => none

/-- A flip-flop or register as R6 and R34 allow it. -/
abbrev SeqInst.wf (x : SeqInst) : Prop := 1 ≤ x.q.length

/-- What the address register of R37 may hold: `Uninit`, or an ADDR_W-bit vector that names a row. -/
def addrWf (rowCount addrW : Nat) : Held BitVector → Bool
  | .uninit => true
  | .known a => decide (a.length = addrW) && decide (udec a < rowCount)

/-- A RAM as R6 and R37 allow it: legal parameters, the rows in canonical form, the address register in range. -/
abbrev RamInst.wf (x : RamInst) : Prop :=
  ramLegal x.rowCount x.addrW x.w = true ∧ Memory.wf x.rowCount x.w x.mem ∧
    addrWf x.rowCount x.addrW x.addr = true

/-- A component as the spec allows it. -/
def Inst.wf : Inst → Prop
  | .seq x => x.wf
  | .ram x => x.wf

/-- The error an observed event carries. -/
def Event.error? : Event → Option Error
  | .raised e => some e
  | .returned _ => none
  | .refused _ => none
  | .readValue _ => none

/-- The components are in canonical form and each is as the spec allows it. -/
def State.ComponentsWf (s : State) : Prop := Rising s.insts ∧ ∀ p ∈ s.insts, p.2.wf

/-- The fault record is exactly what was raised, in call order, with indices of calls made (R38, R280). -/
def State.RecordsWf (s : State) : Prop :=
  s.outcomes.filterMap Event.error? = s.faults.map FaultEntry.error ∧
    (s.faults.map FaultEntry.callIndex).Pairwise (· ≤ ·) ∧ ∀ f ∈ s.faults, f.callIndex ≤ s.calls

/-- The errors of R271 that the block can raise: not the two width policies (R273), not the CPU's
`UnsupportedOpcode`, not `NotImplemented` (R276). -/
def Error.raisable (e : Error) : Bool := [1, 4, 5, 16, 17, 18, 19, 20].contains e.code

/-- The components that have been called are constructed ones, each listed once, and a RAM whose address register is
written has been called: only a call writes it (R39, R251). -/
def State.CalledWf (s : State) : Prop :=
  s.called.Nodup ∧ (∀ k ∈ s.called, (s.inst? k).isSome = true) ∧
    ∀ k x, s.inst? k = some (.ram x) → x.addr ≠ .uninit → k ∈ s.called

/-- The invariant of the block's state. -/
def State.Inv (s : State) : Prop :=
  s.ComponentsWf ∧ s.RecordsWf ∧ s.CalledWf ∧ ∀ f ∈ s.faults, f.error.raisable = true

end Sys2Proof.Machine
end

