-- ==== Sys2Proof/Certificates/Slice0/Obligations.lean ====
section
/-! DEFINITION. The statements for the provers. `s.returns`, `s.raises`, `s.deliver` and `s.setInst` (Machine/Ops.lean)
are the state with outputs returned, with an error recorded, with records delivered and with one component replaced,
and every other field as before; an error recorded by `s.raises` carries the state's count of calls as its index
(log entry 6 says how it counts). -/

open Sys2Proof Sys2Proof.Machine

/-! ## Encoding and the step -/

/-- Decoding the call record of any instruction gives the instruction back (spec/30_encoding.md R80, R81, R83). -/
def Obligations.DecodeOfEncodeIsIdentity : Prop :=
  ∀ i : Instr, decode (encode i) = .ok i

/-- The other direction: what the decoder reads keeps the call's selector and operands, the component it names, and
the parameters its format has (R80, R81); and it rejects a call for its operand count exactly where its format takes
another count (R81; that this is a refusal for formats other than the gates' is the model's inference, log entry 12; that
the count comes before the operands' widths, which R13 does not order, is the model's, log entries 12 and 19). -/
def Obligations.EncodeOfDecodeKeepsTheCall : Prop :=
  (∀ (c : Call) (i : Instr), decode c = .ok i →
    (encode i).op = c.op ∧ (encode i).operands = c.operands ∧ (∀ k, i.inst? = some k → k = c.inst) ∧
      (∀ n a b, i = .addFixed n a b → n = c.params.n) ∧
      ∀ g n k, i = .testGate g n k → g = c.params.gate ∧ n = c.params.numInputs ∧ k = c.params.sink) ∧
  ∀ c : Call, decode c = .error .operandCount ↔
    (c.op ∈ [0x03#8, 0x14#8, 0x16#8] ∧ c.operands.length ≠ 1) ∨
    (c.op ∈ [0x10#8, 0x12#8, 0x13#8, 0x15#8, 0x21#8, 0x30#8, 0x34#8] ∧ c.operands.length ≠ 2) ∨
    (c.op ∈ [0x11#8, 0x32#8, 0x33#8] ∧ c.operands.length ≠ 3) ∨
    (c.op ∈ [0x31#8, 0x40#8] ∧ c.operands.length ≠ 4) ∨
    (c.op = 0x20#8 ∧ c.operands.length = 0) ∨ (c.op = 0x70#8 ∧ c.operands.length ≠ 0)

/-- The decoder finds no operation exactly under the reserved selectors that spec/93 U10 lists. -/
def Obligations.ReservedSelectorsAreExactlyTheRest : Prop :=
  ∀ c : Call, decode c = .error (.unsupported (.sel c.op)) ↔
    c.op.toNat = 0x00 ∨ (0x08 ≤ c.op.toNat ∧ c.op.toNat ≤ 0x0F) ∨ (0x17 ≤ c.op.toNat ∧ c.op.toNat ≤ 0x1F) ∨
      (0x22 ≤ c.op.toNat ∧ c.op.toNat ≤ 0x2F) ∨ (0x35 ≤ c.op.toNat ∧ c.op.toNat ≤ 0x3F) ∨
      (0x41 ≤ c.op.toNat ∧ c.op.toNat ≤ 0x6F) ∨ 0x71 ≤ c.op.toNat

/-- R85: a reserved selector, an unknown gate name, and a TEST_GATE of no gate, whatever its input count, raise
`UnsupportedOperation` and change no component. An operand of width 0 is refused before (R13, R279; log entry 9, the
model's reading), the refusal being recorded (log entry 16, its inference). That the call and the evaluate are counted
and the entry's index is that count is the model's choice (log entry 6). -/
def Obligations.UnknownOperationsRaiseAndChangeNothing : Prop :=
  (∀ (s : State) (c : Call) (rest : List HostOp), s.pending = .call c :: rest →
    decode c = .error (.unsupported (.sel c.op)) →
    ((∀ x ∈ c.operands, x ≠ []) →
      ∃ t, step s = .next t ∧ t.insts = s.insts ∧ t.params = s.params ∧ t.sink = s.sink ∧ t.pending = rest ∧
        t.calls = s.calls + 1 ∧ t.called = s.called ∧
        t.outcomes = s.outcomes ++ [.raised (.unsupportedOperation (.sel c.op))] ∧
        t.faults = s.faults ++ [⟨s.calls + 1, none, .unsupportedOperation (.sel c.op)⟩]) ∧
    ([] ∈ c.operands → step s = .next { s with
      pending := rest, calls := s.calls + 1, outcomes := s.outcomes ++ [.refused .zeroWidth] })) ∧
  (∀ (s : State) (n : Symbols) (ops : List Symbols) (rest : List HostOp), s.pending = .evaluate n ops :: rest →
    n ∉ [['a', 'n', 'd'], ['o', 'r'], ['n', 'a', 'n', 'd'], ['n', 'o', 'r'], ['x', 'o', 'r'], ['x', 'n', 'o', 'r'],
      ['n', 'o', 't']] →
    ((∀ x ∈ ops, x ≠ []) →
      ∃ t, step s = .next t ∧ t.insts = s.insts ∧ t.params = s.params ∧ t.sink = s.sink ∧ t.pending = rest ∧
        t.calls = s.calls + 1 ∧ t.called = s.called ∧
        t.outcomes = s.outcomes ++ [.raised (.unsupportedOperation (.name n))] ∧
        t.faults = s.faults ++ [⟨s.calls + 1, none, .unsupportedOperation (.name n)⟩]) ∧
    ([] ∈ ops → step s = .next { s with
      pending := rest, calls := s.calls + 1, outcomes := s.outcomes ++ [.refused .zeroWidth] })) ∧
  ∀ (s : State) (g : OpName) (n : Int) (sink : Nat),
    (∀ b, g = .sel b → ¬(1 ≤ b.toNat ∧ b.toNat ≤ 7)) →
    (∀ m, g = .name m → m ∉ [['a', 'n', 'd'], ['o', 'r'], ['n', 'a', 'n', 'd'], ['n', 'o', 'r'], ['x', 'o', 'r'],
      ['x', 'n', 'o', 'r'], ['n', 'o', 't']]) →
    exec (.testGate g n sink) s = .next (s.raises none (.unsupportedOperation g))

/-- Words written out from R83: one per family decodes to the instruction it stands for, and NOT with two operands is
rejected for its operand count (R13 b, R81). -/
def Obligations.WrittenOutWordsDecode : Prop :=
  let p : CallParams := { n := 4, gate := .sel 0x06#8, numInputs := 2, sink := 0 }
  decode ⟨0b00000001#8, 0, [['1', '0'], ['1']], p⟩ = .ok (.andGate [['1', '0'], ['1']]) ∧
    decode ⟨0b00000011#8, 0, [['1'], ['0']], p⟩ = .error .operandCount ∧
    decode ⟨0b00010011#8, 0, [['1'], ['0']], p⟩ = .ok (.addFixed 4 ['1'] ['0']) ∧
    decode ⟨0b00100000#8, 0, [['0'], ['1'], ['1']], p⟩ = .ok (.mux [['0'], ['1']] ['1']) ∧
    decode ⟨0b00110001#8, 5, [['1'], ['0'], ['1'], ['0']], p⟩ = .ok (.dffSc 5 ['1'] ['0'] ['1'] ['0']) ∧
    decode ⟨0b01000000#8, 7, [['1'], ['0'], ['1'], ['0']], p⟩ = .ok (.ram1r 7 ['1'] ['0'] ['1'] ['0']) ∧
    decode ⟨0b01110000#8, 0, [], p⟩ = .ok (.testGate (.sel 0x06#8) 2 0)

/-- When the host's next operation is a call that decodes to an instruction, the step is `exec` of it, on the state
with that operation taken off and the call issued: counted (the model's choice, log entry 6), and the component it names
marked as called (log entry 11). Where `exec` refuses the call by R13, that refusal is its outcome, nothing else
changes, and the run goes on (R12, R310; the model's inference, log entry 16); where D36 gives no move, the step is
refused too. A call record of another operand count than its format's is such a refused call (R13 b; log entry 12);
that the count is the reason recorded, whatever other condition of R13 holds, is the model's (log entries 12 and 19). -/
def Obligations.StepRunsTheDecodedCall : Prop :=
  (∀ (s : State) (c : Call) (rest : List HostOp) (i : Instr), s.pending = .call c :: rest → decode c = .ok i →
    let s' := State.issueCall { s with pending := rest } i.inst?
    s'.calls = s.calls + 1 ∧ s'.insts = s.insts ∧ s'.pending = rest ∧
      (∀ t, exec i s' = .next t → step s = .next t) ∧
      (∀ why, exec i s' = .refused (.illFormed why) →
        step s = .next { s' with outcomes := s.outcomes ++ [.refused why] }) ∧
      ∀ r, exec i s' = .refused r → (∀ why, r ≠ .illFormed why) → step s = .refused r) ∧
  ∀ (s : State) (c : Call) (rest : List HostOp), s.pending = .call c :: rest → decode c = .error .operandCount →
    step s = .next { State.issueCall { s with pending := rest } c.target? with
      outcomes := s.outcomes ++ [.refused .operandCount] }

/-- `evaluate` calls the gate whose name it is given on its operand list (R101), as a call of that gate is made; NOT
with another operand count than one is a refused call (R13 b). That an evaluate is counted as a call is the model's
choice (log entry 6); that a refusal is recorded and the run goes on is its inference (log entry 16). R13 does not order
its conditions: that the operand count is the reason recorded where an operand has width 0 too is the model's (log entries
12 and 19). -/
def Obligations.EvaluateRunsTheNamedGate : Prop :=
  ∀ (s : State) (n : Symbols) (ops : List Symbols) (rest : List HostOp), s.pending = .evaluate n ops :: rest →
    let s' := State.issueCall { s with pending := rest } none
    (n = ['a', 'n', 'd'] → step s = recordRefusal s' (exec (.andGate ops) s')) ∧
    (n = ['o', 'r'] → step s = recordRefusal s' (exec (.orGate ops) s')) ∧
    (n = ['n', 'a', 'n', 'd'] → step s = recordRefusal s' (exec (.nandGate ops) s')) ∧
    (n = ['n', 'o', 'r'] → step s = recordRefusal s' (exec (.norGate ops) s')) ∧
    (n = ['x', 'o', 'r'] → step s = recordRefusal s' (exec (.xorGate ops) s')) ∧
    (n = ['x', 'n', 'o', 'r'] → step s = recordRefusal s' (exec (.xnorGate ops) s')) ∧
    (∀ x, n = ['n', 'o', 't'] → ops = [x] → step s = recordRefusal s' (exec (.notGate x) s')) ∧
    (n = ['n', 'o', 't'] → ops.length ≠ 1 → step s = .next (s'.refuses .operandCount))

/-- The machine stops with a fault exactly at the end of a run: when the host has no operation left (R310). -/
def Obligations.StepFaultsExactlyAtTheEndOfTheRun : Prop :=
  ∀ (s : State) (f : Fault), step s = .fault f ↔ s.pending = []

/-! ## Every call -/

/-- R13 and D36: a call is refused exactly where the block does not accept it; every accepted call has a next state. -/
def Obligations.RefusedExactlyWhereNotAccepted : Prop :=
  ∀ (i : Instr) (s : State),
    ((∃ r, exec i s = .refused r) ↔ Accepts s i = false) ∧ (Accepts s i = true → ∃ t, exec i s = .next t)

/-- R272: of several invalid symbols the first in operand order, leftmost first, is raised, whatever else is true of
the call. That each MUX input counts as an operand, the selector after them, is the model's inference (log entry 4). -/
def Obligations.FirstInvalidSymbolIsRaised : Prop :=
  ∀ (i : Instr) (s : State) (j p : Nat) (x : Symbols) (c : Symbol), Accepts s i = true →
    i.operands[j]? = some x → x[p]? = some c → ¬(c = '0' ∨ c = '1') →
    AllSymbolsValid (i.operands.take j) → (∀ d ∈ x.take p, d = '0' ∨ d = '1') →
    exec i s = .next (s.raises i.inst? (.invalidBitSymbol j p c))

/-- R109: a call with an invalid symbol anywhere raises `InvalidBitSymbol`, though an AND or OR might be settled. -/
def Obligations.ShortCircuitIsNotObservable : Prop :=
  ∀ (i : Instr) (s : State), Accepts s i = true → (∃ x ∈ i.operands, ∃ c ∈ x, ¬(c = '0' ∨ c = '1')) →
    ∃ j p c, exec i s = .next (s.raises i.inst? (.invalidBitSymbol j p c)) ∧
      (∃ x, i.operands[j]? = some x ∧ x[p]? = some c) ∧ ¬(c = '0' ∨ c = '1')

/-- R280, R281: a call that faults records (call index, component, error), returns the error and changes nothing else.
The index is the state's count of calls, whose numbering is the model's choice (log entry 6). -/
def Obligations.FaultingCallChangesNothing : Prop :=
  ∀ (i : Instr) (s t : State), exec i s = .next t → t.faults ≠ s.faults →
    ∃ e, t.faults = s.faults ++ [⟨s.calls, i.inst?, e⟩] ∧ t.outcomes = s.outcomes ++ [.raised e] ∧
      t.insts = s.insts ∧ t.sink = s.sink ∧ t.params = s.params ∧ t.pending = s.pending ∧ t.calls = s.calls ∧
      t.called = s.called

/-- R38, R310: nothing clears the fault record or the list of outcomes; a step adds at most one fault, and exactly the
ones it returns, and at most one outcome; so a run that is not good stays so. -/
def Obligations.FaultRecordOnlyGrows : Prop :=
  ∀ s t : State, step s = .next t →
    ∃ new, t.faults = s.faults ++ new ∧ new.length ≤ 1 ∧
      t.outcomes.filterMap Event.error? = s.outcomes.filterMap Event.error? ++ new.map FaultEntry.error ∧
      (∃ evs, t.outcomes = s.outcomes ++ evs ∧ evs.length ≤ 1) ∧ (t.good → s.good)

/-- R271, R273, R276: what a step records is one of the eight errors the block raises. -/
def Obligations.OnlyTheBlocksErrorsAreRaised : Prop :=
  ∀ s t : State, step s = .next t →
    ∀ f ∈ t.faults, f ∈ s.faults ∨ f.error.code ∈ [1, 4, 5, 16, 17, 18, 19, 20]

/-- R271, the columns "Raised by" and "Cause": a call that raises an error is a call of the operation that raises it,
and the error's cause holds with the info it records. Under `UninitialisedClock` that is a call whose clk is 1 on a
component whose clock level was never recorded, not an asynchronous one, and for the RAM one with write = 1. -/
def Obligations.EveryErrorHasItsCause : Prop :=
  ∀ (i : Instr) (s t : State) (e : Error), exec i s = .next t → t.outcomes = s.outcomes ++ [.raised e] →
    match e with
    | .invalidBitSymbol j p c => (∃ x, i.operands[j]? = some x ∧ x[p]? = some c) ∧ ¬(c = '0' ∨ c = '1')
    | .invalidState b => ∃ inst x a r clk, i = .srFf inst a r clk ∧ s.inst? inst = some (.seq x) ∧
        x.prev = .known false ∧ bitOf clk = true ∧ bitAt (bitsOf a) b = true ∧ bitAt (bitsOf r) b = true
    | .selectorOutOfRange n m => ∃ inputs sel, i = .mux inputs sel ∧ n = udec (bitsOf sel) ∧ m = inputs.length ∧ m ≤ n
    | .unsupportedOperation g => ∃ n k, i = .testGate g n k ∧ g.gate? = none
    | .asyncSetClearConflict =>
      ∃ inst d set clr clk, i = .dffSc inst d set clr clk ∧ bitOf set = true ∧ bitOf clr = true
    | .addressOutOfRange a => ∃ inst x address d w clk, i = .ram1r inst address d w clk ∧
        s.inst? inst = some (.ram x) ∧ a = udec (bitsOf address) ∧ x.rowCount ≤ a
    | .uninitialisedClock => ∃ inst y clk, i.inst? = some inst ∧ s.inst? inst = some y ∧ y.prev = .uninit ∧
        clockOf i = some clk ∧ bitOf clk = true ∧ assertsAsync i = false ∧
        ∀ a d w c, i = .ram1r inst a d w c → bitOf w = true
    | .widthMismatch | .autoPadded | .unsupportedOpcode | .notImplemented | .uninitialisedRead _ _ => False

/-- No host operation changes the parameters NARY and DEMUX_ORDER (R6). That they hold for the whole block, as data that
no step changes, is the model's choice (log entry 15). -/
def Obligations.ParametersNeverChange : Prop :=
  ∀ s t : State, step s = .next t → t.params = s.params

/-- Every step keeps the invariant: components in canonical form and legal, RAM rows in canonical form, the fault
record exactly what was raised, in call order, the components marked as called constructed ones, each listed once, and
a RAM whose address register is written marked as called. -/
def Obligations.StepKeepsTheInvariant : Prop :=
  ∀ s t : State, s.Inv → Sys2Proof.Machine.step s = .next t → t.Inv

/-- The invariant holds after reset. -/
def Obligations.ResetMeetsTheInvariant : Prop :=
  State.Inv Sys2Proof.Machine.State.reset

/-- R33: a combinational call keeps no state and its outcome is a function of the call alone (and of the parameters):
in any other state it gives the same outcome. -/
def Obligations.CombinationalCallsHoldNoState : Prop :=
  ∀ (i : Instr) (s s' t : State), i.inst? = none → s.params = s'.params → exec i s = .next t →
    t.insts = s.insts ∧
      ∃ t' ev, exec i s' = .next t' ∧ t.outcomes = s.outcomes ++ [ev] ∧ t'.outcomes = s'.outcomes ++ [ev]

/-- R5: a call changes no other component; the parameters, the host's further operations and the record of calls stay,
the sink stays but for TEST_GATE, the outcomes grow by exactly one, the fault record by at most that error. The index
of the entry is the state's count of calls, whose numbering is the model's choice (log entry 6). -/
def Obligations.CallsTouchOnlyTheirOwnComponent : Prop :=
  ∀ (i : Instr) (s t : State), exec i s = .next t →
    (∀ k, i.inst? ≠ some k → t.inst? k = s.inst? k) ∧ t.params = s.params ∧ t.pending = s.pending ∧
      t.calls = s.calls ∧ t.called = s.called ∧ ((∀ g n k, i ≠ .testGate g n k) → t.sink = s.sink) ∧
      ∃ ev, t.outcomes = s.outcomes ++ [ev] ∧
        (t.faults = s.faults ∨ ∃ e, ev = .raised e ∧ t.faults = s.faults ++ [⟨s.calls, i.inst?, e⟩])

/-- A call never changes what its component is: a flip-flop's variant and width, a RAM's ROWS, ADDR_W and W (R6). -/
def Obligations.CallsKeepTheComponentsParameters : Prop :=
  ∀ (i : Instr) (s t : State) (k : Nat), exec i s = .next t →
    (∀ x, s.inst? k = some (.seq x) → ∃ y, t.inst? k = some (.seq y) ∧ y.kind = x.kind ∧ y.q.length = x.q.length) ∧
    ∀ x, s.inst? k = some (.ram x) →
      ∃ y, t.inst? k = some (.ram y) ∧ y.rowCount = x.rowCount ∧ y.addrW = x.addrW ∧ y.w = x.w

/-! ## Bit algebra -/

/-- AND (R100, R102): each bit is the conjunction of the operands' bits, 0 above an operand's width. -/
def Obligations.AndResult : Prop :=
  ∀ (s : State) (ops : List Symbols), Accepts s (.andGate ops) = true → AllSymbolsValid ops →
    ∃ y, exec (.andGate ops) s = .next (s.returns [knownBits y]) ∧ y.length = maxWidth (ops.map bitsOf) ∧
      ∀ i < y.length, (bitAt y i = true ↔ ∀ x ∈ ops, bitAt (bitsOf x) i = true)

/-- OR (R100, R103). -/
def Obligations.OrResult : Prop :=
  ∀ (s : State) (ops : List Symbols), Accepts s (.orGate ops) = true → AllSymbolsValid ops →
    ∃ y, exec (.orGate ops) s = .next (s.returns [knownBits y]) ∧ y.length = maxWidth (ops.map bitsOf) ∧
      ∀ i < y.length, (bitAt y i = true ↔ ∃ x ∈ ops, bitAt (bitsOf x) i = true)

/-- NOT (R104): the width is kept, each bit is complemented. -/
def Obligations.NotResult : Prop :=
  ∀ (s : State) (x : Symbols), Accepts s (.notGate x) = true → AllSymbolsValid [x] →
    ∃ y, exec (.notGate x) s = .next (s.returns [knownBits y]) ∧ y.length = x.length ∧
      ∀ i < x.length, bitAt y i = !bitAt (bitsOf x) i

/-- XOR (R107): odd parity. -/
def Obligations.XorResult : Prop :=
  ∀ (s : State) (ops : List Symbols), Accepts s (.xorGate ops) = true → AllSymbolsValid ops →
    ∃ y, exec (.xorGate ops) s = .next (s.returns [knownBits y]) ∧ y.length = maxWidth (ops.map bitsOf) ∧
      ∀ i < y.length, (bitAt y i = true ↔ (ops.countP fun x => bitAt (bitsOf x) i) % 2 = 1)

/-- NAND (R105), for both values of NARY: the complemented AND, or the left fold of the two-input gate. -/
def Obligations.NandResult : Prop :=
  ∀ (s : State) (ops : List Symbols), Accepts s (.nandGate ops) = true → AllSymbolsValid ops →
    ∃ y, exec (.nandGate ops) s = .next (s.returns [knownBits y]) ∧ y.length = maxWidth (ops.map bitsOf) ∧
      (s.params.nary = .standard →
        ∀ i < y.length, (bitAt y i = true ↔ ¬∀ x ∈ ops, bitAt (bitsOf x) i = true)) ∧
      (s.params.nary = .leftFold → ∀ a rest, ops = a :: rest →
        ∀ i < y.length,
          bitAt y i = rest.foldl (fun acc x => !(acc && bitAt (bitsOf x) i)) (bitAt (bitsOf a) i))

/-- NOR (R106), for both values of NARY. -/
def Obligations.NorResult : Prop :=
  ∀ (s : State) (ops : List Symbols), Accepts s (.norGate ops) = true → AllSymbolsValid ops →
    ∃ y, exec (.norGate ops) s = .next (s.returns [knownBits y]) ∧ y.length = maxWidth (ops.map bitsOf) ∧
      (s.params.nary = .standard →
        ∀ i < y.length, (bitAt y i = true ↔ ∀ x ∈ ops, bitAt (bitsOf x) i = false)) ∧
      (s.params.nary = .leftFold → ∀ a rest, ops = a :: rest →
        ∀ i < y.length,
          bitAt y i = rest.foldl (fun acc x => !(acc || bitAt (bitsOf x) i)) (bitAt (bitsOf a) i))

/-- XNOR (R108), for both values of NARY: even parity, or odd parity with an odd number of operands. -/
def Obligations.XnorResult : Prop :=
  ∀ (s : State) (ops : List Symbols), Accepts s (.xnorGate ops) = true → AllSymbolsValid ops →
    ∃ y, exec (.xnorGate ops) s = .next (s.returns [knownBits y]) ∧ y.length = maxWidth (ops.map bitsOf) ∧
      (s.params.nary = .standard →
        ∀ i < y.length, (bitAt y i = true ↔ (ops.countP fun x => bitAt (bitsOf x) i) % 2 = 0)) ∧
      (s.params.nary = .leftFold →
        ∀ i < y.length,
          (bitAt y i = true ↔ ((ops.countP fun x => bitAt (bitsOf x) i) + ops.length) % 2 = 0))

/-- R110: the laws of the gates under `NARY = Standard` for operands of one width: NAND, NOR, XNOR are the complements,
the two-operand gates commute, AND, OR, XOR associate. -/
def Obligations.GateLaws : Prop :=
  (∀ vs : List BitVector, vs ≠ [] → (∀ v ∈ vs, v.length = maxWidth vs) →
    gateVec (gateBit .standard .nand) vs = gateVec (gateBit .standard .not) [gateVec (gateBit .standard .and) vs] ∧
    gateVec (gateBit .standard .nor) vs = gateVec (gateBit .standard .not) [gateVec (gateBit .standard .or) vs] ∧
    gateVec (gateBit .standard .xnor) vs = gateVec (gateBit .standard .not) [gateVec (gateBit .standard .xor) vs]) ∧
  (∀ (g : Gate) (a b : BitVector), g ≠ .not → a.length = b.length →
    gateVec (gateBit .standard g) [a, b] = gateVec (gateBit .standard g) [b, a]) ∧
  ∀ (g : Gate) (a b c : BitVector), g = .and ∨ g = .or ∨ g = .xor → a.length = b.length → b.length = c.length →
    gateVec (gateBit .standard g) [a, b, c] =
      gateVec (gateBit .standard g) [gateVec (gateBit .standard g) [a, b], c]

/-- TEST_GATE (R84, R120): each of the seven selectors and of the seven names means its gate. For a legal input count n
it delivers 2^n records in ascending order of the pattern, operand j at string position j, each with what a call of that
gate returns on those operands; nothing else changes. Any other count, a negative one among them, is refused (D3). -/
def Obligations.TestGateResult : Prop :=
  ∀ (s : State) (gate : OpName) (n : Int) (sink : Nat) (call : List Symbols → Instr) (isNot : Bool),
    (gate, call, isNot) ∈
      [(.sel 0x01#8, .andGate, false), (.sel 0x02#8, .orGate, false), (.sel 0x03#8, fun ops => .notGate ops.flatten, true),
       (.sel 0x04#8, .nandGate, false), (.sel 0x05#8, .norGate, false), (.sel 0x06#8, .xorGate, false),
       (.sel 0x07#8, .xnorGate, false), (.name ['a', 'n', 'd'], .andGate, false), (.name ['o', 'r'], .orGate, false),
       (.name ['n', 'o', 't'], fun ops => .notGate ops.flatten, true), (.name ['n', 'a', 'n', 'd'], .nandGate, false),
       (.name ['n', 'o', 'r'], .norGate, false), (.name ['x', 'o', 'r'], .xorGate, false),
       (.name ['x', 'n', 'o', 'r'], .xnorGate, false)] →
    ((if isNot then n = 1 else 2 ≤ n) →
      ∃ rs, exec (.testGate gate n sink) s = .next ((s.deliver rs).returns []) ∧ rs.length = 2 ^ n.toNat ∧
        ∀ c < 2 ^ n.toNat, ∃ (p : BitVector) (y : Bit), (p.length : Int) = n ∧ udec p = c ∧
          rs[c]? = some { sink := sink, inputs := p.map fun b => [b], output := [y] } ∧
          exec (call (p.map fun b => [if b then '1' else '0'])) s = .next (s.returns [[.known y]])) ∧
    (¬(if isNot then n = 1 else 2 ≤ n) → exec (.testGate gate n sink) s = .refused (.illFormed .operandCount))

/-! ## Arithmetic -/

/-- HALF_ADD (R140). -/
def Obligations.HalfAddResult : Prop :=
  ∀ (s : State) (a b : Symbols), Accepts s (.halfAdd a b) = true → AllSymbolsValid [a, b] →
    ∃ sum carry : Bit, exec (.halfAdd a b) s = .next (s.returns [[.known sum], [.known carry]]) ∧
      sum = (bitOf a ^^ bitOf b) ∧ carry = (bitOf a && bitOf b) ∧
      2 * carry.toNat + sum.toNat = udec (bitsOf a) + udec (bitsOf b)

/-- FULL_ADD (R141). -/
def Obligations.FullAddResult : Prop :=
  ∀ (s : State) (a b cin : Symbols), Accepts s (.fullAdd a b cin) = true → AllSymbolsValid [a, b, cin] →
    ∃ sum carry : Bit, exec (.fullAdd a b cin) s = .next (s.returns [[.known sum], [.known carry]]) ∧
      sum = (bitOf a ^^ bitOf b ^^ bitOf cin) ∧
      carry = (bitOf a && bitOf b || bitOf a && bitOf cin || bitOf b && bitOf cin) ∧
      2 * carry.toNat + sum.toNat = udec (bitsOf a) + udec (bitsOf b) + udec (bitsOf cin)

/-- ADD (R143): the exact sum; the width grows by one bit exactly where the sum does not fit the wider operand. -/
def Obligations.AddResult : Prop :=
  ∀ (s : State) (a b : Symbols), Accepts s (.add a b) = true → AllSymbolsValid [a, b] →
    ∃ r, exec (.add a b) s = .next (s.returns [knownBits r]) ∧ udec r = udec (bitsOf a) + udec (bitsOf b) ∧
      r.length = if 2 ^ max a.length b.length ≤ udec (bitsOf a) + udec (bitsOf b)
        then max a.length b.length + 1 else max a.length b.length

/-- ADD_FIXED (R144) and its laws (R145), for every N >= 1: sum and carry-out give the exact unsigned sum, overflow is
asserted exactly where the signed sum leaves the range, and the signed value of the sum is then off by 2^N. -/
def Obligations.AddFixedResult : Prop :=
  ∀ (s : State) (n : Nat) (a b : Symbols), Accepts s (.addFixed n a b) = true → AllSymbolsValid [a, b] →
    ∃ (sum : BitVector) (cout ov : Bit),
      exec (.addFixed n a b) s = .next (s.returns [knownBits sum, [.known cout], [.known ov]]) ∧ sum.length = n ∧
      2 ^ n * cout.toNat + udec sum = udec (bitsOf a) + udec (bitsOf b) ∧
      let va := sdec (zext n (bitsOf a))
      let vb := sdec (zext n (bitsOf b))
      (ov = true ↔ ¬(-(2 ^ (n - 1) : Int) ≤ va + vb ∧ va + vb ≤ 2 ^ (n - 1) - 1)) ∧
      (ov = false → sdec sum = va + vb) ∧
      (ov = true → 0 ≤ va + vb → sdec sum = va + vb - 2 ^ n) ∧
      (ov = true → va + vb < 0 → sdec sum = va + vb + 2 ^ n) ∧
      (ov = true ↔ bitAt (bitsOf a) (n - 1) = bitAt (bitsOf b) (n - 1) ∧ bitAt sum (n - 1) ≠ bitAt (bitsOf a) (n - 1))

/-- TWO_COMPLEMENT (R150): the width is kept and the value is the negation modulo 2^w. -/
def Obligations.TwoComplementResult : Prop :=
  ∀ (s : State) (x : Symbols), Accepts s (.twoComplement x) = true → AllSymbolsValid [x] →
    ∃ y, exec (.twoComplement x) s = .next (s.returns [knownBits y]) ∧ y.length = x.length ∧
      udec y = (2 ^ x.length - udec (bitsOf x)) % 2 ^ x.length

/-- R150: negating twice gives the vector back, for every width and value. -/
def Obligations.NegationIsAnInvolution : Prop :=
  ∀ v : BitVector, twoComplementVec (twoComplementVec v) = v

/-- EQ (R151): '1' exactly where the values are equal, whatever the widths. -/
def Obligations.EqResult : Prop :=
  ∀ (s : State) (a b : Symbols), Accepts s (.eqCompare a b) = true → AllSymbolsValid [a, b] →
    ∃ e : Bit, exec (.eqCompare a b) s = .next (s.returns [[.known e]]) ∧
      (e = true ↔ udec (bitsOf a) = udec (bitsOf b))

/-- ZERO (R152): it is EQ with "0" on every operand, and answers '1' exactly where every symbol is '0'. -/
def Obligations.ZeroResult : Prop :=
  (∀ (s : State) (x : Symbols), exec (.zeroTest x) s = exec (.eqCompare x ['0']) s) ∧
  ∀ (s : State) (x : Symbols), Accepts s (.zeroTest x) = true → AllSymbolsValid [x] →
    ∃ z : Bit, exec (.zeroTest x) s = .next (s.returns [[.known z]]) ∧ (z = true ↔ ∀ c ∈ x, c = '0')

/-! ## Selection -/

/-- MUX (R180): the selected input, zero-extended to the widest. -/
def Obligations.MuxResult : Prop :=
  ∀ (s : State) (inputs : List Symbols) (sel x : Symbols), Accepts s (.mux inputs sel) = true →
    AllSymbolsValid inputs → AllSymbolsValid [sel] → inputs[udec (bitsOf sel)]? = some x →
    ∃ out, exec (.mux inputs sel) s = .next (s.returns [knownBits out]) ∧
      out.length = maxWidth (inputs.map bitsOf) ∧ udec out = udec (bitsOf x)

/-- R275: a selector value of M or more raises `SelectorOutOfRange`; a DEMUX never raises it. -/
def Obligations.MuxSelectorOutOfRange : Prop :=
  (∀ (s : State) (inputs : List Symbols) (sel : Symbols), Accepts s (.mux inputs sel) = true →
    AllSymbolsValid inputs → AllSymbolsValid [sel] → inputs.length ≤ udec (bitsOf sel) →
    exec (.mux inputs sel) s = .next (s.raises none (.selectorOutOfRange (udec (bitsOf sel)) inputs.length))) ∧
  ∀ (s t : State) (e sel : Symbols) (n m : Nat), exec (.demux e sel) s = .next t →
    t.outcomes ≠ s.outcomes ++ [.raised (.selectorOutOfRange n m)]

/-- DEMUX (R181), for both values of DEMUX_ORDER: 2^S bits, set exactly at the selector's line where enabled. -/
def Obligations.DemuxResult : Prop :=
  ∀ (s : State) (e sel : Symbols), Accepts s (.demux e sel) = true → AllSymbolsValid [e, sel] →
    ∃ out, exec (.demux e sel) s = .next (s.returns [knownBits out]) ∧ out.length = 2 ^ sel.length ∧
      udec (bitsOf sel) < 2 ^ sel.length ∧
      (s.params.demuxOrder = .stringIndex →
        ∀ j < 2 ^ sel.length, (out[j]? = some true ↔ e = ['1'] ∧ j = udec (bitsOf sel))) ∧
      (s.params.demuxOrder = .lsbNumber →
        ∀ i < 2 ^ sel.length, (bitAt out i = true ↔ e = ['1'] ∧ i = udec (bitsOf sel)))

/-! ## Sequential elements -/

/-- DFF and REGISTER (R204, R208): d on a rising edge, q held without one, the clock recorded, q and notq returned;
nothing but that component changes. Without a recorded clock level the call needs clk = 0 (R201). -/
def Obligations.DffAndRegisterResult : Prop :=
  ∀ (s : State) (inst : Nat) (x : SeqInst) (d clk : Symbols), s.inst? inst = some (.seq x) →
    fitsPort x.q.length d = true → oneBitWide clk = true → AllSymbolsValid [d, clk] →
    (x.prev ≠ .uninit ∨ bitOf clk = false) →
    ∃ q, (x.prev = .known false ∧ bitOf clk = true → q = knownBits (zext x.q.length (bitsOf d))) ∧
      (¬(x.prev = .known false ∧ bitOf clk = true) → q = x.q) ∧
      (x.kind = .dff → exec (.dff inst d clk) s =
        .next ((s.setInst inst (.seq ⟨x.kind, q, .known (bitOf clk)⟩)).returns [q, notq q])) ∧
      (x.kind = .register → exec (.register inst d clk) s =
        .next ((s.setInst inst (.seq ⟨x.kind, q, .known (bitOf clk)⟩)).returns [q, notq q]))

/-- DFF_SC (R205): set and clear act whatever the clock is and whatever was recorded, and record the clock; with
neither asserted it is a DFF. -/
def Obligations.DffScResult : Prop :=
  ∀ (s : State) (inst : Nat) (x : SeqInst) (d set clr clk : Symbols), s.inst? inst = some (.seq x) →
    x.kind = .dffSc → fitsPort x.q.length d = true → oneBitWide set = true → oneBitWide clr = true →
    oneBitWide clk = true → AllSymbolsValid [d, set, clr, clk] → ¬(bitOf set = true ∧ bitOf clr = true) →
    (bitOf set = true ∨ bitOf clr = true ∨ x.prev ≠ .uninit ∨ bitOf clk = false) →
    ∃ q, exec (.dffSc inst d set clr clk) s =
        .next ((s.setInst inst (.seq ⟨x.kind, q, .known (bitOf clk)⟩)).returns [q, notq q]) ∧
      (bitOf set = true → q = List.replicate x.q.length (.known true)) ∧
      (bitOf clr = true → q = List.replicate x.q.length (.known false)) ∧
      (bitOf set = false → bitOf clr = false →
        (x.prev = .known false ∧ bitOf clk = true → q = knownBits (zext x.q.length (bitsOf d))) ∧
        (¬(x.prev = .known false ∧ bitOf clk = true) → q = x.q))

/-- SR_FF (R206, R203): on a rising edge without a conflict each bit is set, cleared or held; without an edge q holds,
whatever s and r are. -/
def Obligations.SrResult : Prop :=
  ∀ (st : State) (inst : Nat) (x : SeqInst) (s r clk : Symbols), st.inst? inst = some (.seq x) → x.kind = .sr →
    fitsPort x.q.length s = true → fitsPort x.q.length r = true → oneBitWide clk = true →
    AllSymbolsValid [s, r, clk] → (x.prev ≠ .uninit ∨ bitOf clk = false) →
    ((x.prev = .known false ∧ bitOf clk = true) →
      ∀ i < x.q.length, ¬(bitAt (bitsOf s) i = true ∧ bitAt (bitsOf r) i = true)) →
    ∃ q, exec (.srFf inst s r clk) st =
        .next ((st.setInst inst (.seq ⟨x.kind, q, .known (bitOf clk)⟩)).returns [q, notq q]) ∧
      q.length = x.q.length ∧
      (¬(x.prev = .known false ∧ bitOf clk = true) → q = x.q) ∧
      (x.prev = .known false ∧ bitOf clk = true → ∀ i < x.q.length,
        (bitAt (bitsOf s) i = true → q[x.q.length - 1 - i]? = some (.known true)) ∧
        (bitAt (bitsOf s) i = false → bitAt (bitsOf r) i = true → q[x.q.length - 1 - i]? = some (.known false)) ∧
        (bitAt (bitsOf s) i = false → bitAt (bitsOf r) i = false →
          q[x.q.length - 1 - i]? = x.q[x.q.length - 1 - i]?))

/-- JK_FF (R207, R203): on a rising edge each bit is set, cleared, held or toggled, and a toggle of `Uninit` stays
`Uninit`; without an edge q holds. -/
def Obligations.JkResult : Prop :=
  ∀ (s : State) (inst : Nat) (x : SeqInst) (j k clk : Symbols), s.inst? inst = some (.seq x) → x.kind = .jk →
    fitsPort x.q.length j = true → fitsPort x.q.length k = true → oneBitWide clk = true →
    AllSymbolsValid [j, k, clk] → (x.prev ≠ .uninit ∨ bitOf clk = false) →
    ∃ q, exec (.jkFf inst j k clk) s =
        .next ((s.setInst inst (.seq ⟨x.kind, q, .known (bitOf clk)⟩)).returns [q, notq q]) ∧
      q.length = x.q.length ∧
      (¬(x.prev = .known false ∧ bitOf clk = true) → q = x.q) ∧
      (x.prev = .known false ∧ bitOf clk = true → ∀ i < x.q.length,
        (bitAt (bitsOf j) i = true → bitAt (bitsOf k) i = false → q[x.q.length - 1 - i]? = some (.known true)) ∧
        (bitAt (bitsOf j) i = false → bitAt (bitsOf k) i = true → q[x.q.length - 1 - i]? = some (.known false)) ∧
        (bitAt (bitsOf j) i = false → bitAt (bitsOf k) i = false →
          q[x.q.length - 1 - i]? = x.q[x.q.length - 1 - i]?) ∧
        (bitAt (bitsOf j) i = true → bitAt (bitsOf k) i = true →
          (∀ b, x.q[x.q.length - 1 - i]? = some (.known b) → q[x.q.length - 1 - i]? = some (.known (!b))) ∧
          (x.q[x.q.length - 1 - i]? = some .uninit → q[x.q.length - 1 - i]? = some .uninit)))

/-- R201, R278: an accepted call that needs the edge with clk = 1 on a component whose clock level was never recorded
raises `UninitialisedClock`, before `InvalidState` (R279); the DFF_SC only on its D path, the RAM only with write = 1
and a row that exists. -/
def Obligations.UninitialisedClockIsRaised : Prop :=
  ∀ (i : Instr) (s : State) (inst : Nat) (y : Inst) (clk : Symbols), Accepts s i = true →
    AllSymbolsValid i.operands → i.inst? = some inst → s.inst? inst = some y → y.prev = .uninit →
    clockOf i = some clk → bitOf clk = true → assertsAsync i = false →
    (∀ a d w c, i = .ram1r inst a d w c → bitOf w = true ∧ ∀ x, y = .ram x → udec (bitsOf a) < x.rowCount) →
    exec i s = .next (s.raises (some inst) .uninitialisedClock)

/-- R205, D16: set and clr both asserted raise `AsyncSetClearConflict`, whatever the clock is and was. -/
def Obligations.AsyncSetClearConflictIsRaised : Prop :=
  ∀ (s : State) (inst : Nat) (d set clr clk : Symbols), Accepts s (.dffSc inst d set clr clk) = true →
    AllSymbolsValid [d, set, clr, clk] → bitOf set = true → bitOf clr = true →
    exec (.dffSc inst d set clr clk) s = .next (s.raises (some inst) .asyncSetClearConflict)

/-- R206, R274: on a rising edge with s and r both 1 at some bit, `InvalidState` is raised with the lowest such bit;
without a rising edge, and by any other operation, it is not raised. -/
def Obligations.InvalidStateIsRaised : Prop :=
  (∀ (st : State) (inst : Nat) (x : SeqInst) (s r clk : Symbols) (i : Nat), st.inst? inst = some (.seq x) →
    x.kind = .sr → fitsPort x.q.length s = true → fitsPort x.q.length r = true → oneBitWide clk = true →
    AllSymbolsValid [s, r, clk] → x.prev = .known false → bitOf clk = true →
    bitAt (bitsOf s) i = true → bitAt (bitsOf r) i = true →
    (∀ k < i, ¬(bitAt (bitsOf s) k = true ∧ bitAt (bitsOf r) k = true)) →
    exec (.srFf inst s r clk) st = .next (st.raises (some inst) (.invalidState i))) ∧
  ∀ (c : Instr) (st t : State) (b : Nat), exec c st = .next t →
    t.outcomes = st.outcomes ++ [.raised (.invalidState b)] →
    ∃ inst x s r clk, c = .srFf inst s r clk ∧ st.inst? inst = some (.seq x) ∧ x.prev = .known false ∧
      bitOf clk = true

/-- R202, R254: every call that completes records its clock level, on every path; one that faults changes nothing. -/
def Obligations.CompletedCallsRecordTheClock : Prop :=
  ∀ (i : Instr) (s t : State) (k : Nat) (clk : Symbols), exec i s = .next t → i.inst? = some k →
    clockOf i = some clk →
    (t.faults = s.faults → ∃ y, t.inst? k = some y ∧ y.prev = .known (bitOf clk)) ∧
    (t.faults ≠ s.faults → t.insts = s.insts)

/-- R35, R212: at every return of a call on a flip-flop or register the outputs are its q and the bit-by-bit
complement, `Uninit` where q is. -/
def Obligations.ComplementOutputHoldsAtEveryReturn : Prop :=
  ∀ (i : Instr) (s t : State) (k : Nat) (x : SeqInst), exec i s = .next t → i.inst? = some k →
    s.inst? k = some (.seq x) → t.faults = s.faults →
    ∃ y nq, t.inst? k = some (.seq y) ∧ t.outcomes = s.outcomes ++ [.returned [y.q, nq]] ∧
      nq.length = y.q.length ∧
      ∀ j : Nat, (∀ b, y.q[j]? = some (.known b) → nq[j]? = some (.known (!b))) ∧
        (y.q[j]? = some .uninit → nq[j]? = some .uninit)

/-- R211: q changes only in a call whose clk is 1 and whose component had recorded 0, the async lines of DFF_SC being
the only exception; a run of calls with clk = 1 that starts from a recorded 1 leaves q as it is; and in a run of calls
with clk = 1 from any recorded clock, once a call has changed q, or completed on the component, none changes it again,
the async lines again excepted. -/
def Obligations.OneUpdatePerRisingEdge : Prop :=
  (∀ (i : Instr) (s t : State) (k : Nat) (x y : SeqInst) (clk : Symbols), exec i s = .next t → i.inst? = some k →
    clockOf i = some clk → s.inst? k = some (.seq x) → t.inst? k = some (.seq y) → y.q ≠ x.q →
    assertsAsync i = true ∨ (bitOf clk = true ∧ x.prev = .known false)) ∧
  (∀ (calls : List Instr) (s t : State) (k : Nat) (x : SeqInst), execAll calls s = some t →
    s.inst? k = some (.seq x) → x.prev = .known true →
    (∀ i ∈ calls, i.inst? = some k → assertsAsync i = false ∧ ∀ clk, clockOf i = some clk → bitOf clk = true) →
    t.inst? k = some (.seq x)) ∧
  ∀ (i j : Instr) (between : List Instr) (s s' s'' t : State) (k : Nat) (x y : SeqInst),
    exec i s = .next s' → execAll between s' = some s'' → exec j s'' = .next t →
    (∀ c ∈ i :: (between ++ [j]), c.inst? = some k → ∀ clk, clockOf c = some clk → bitOf clk = true) →
    s.inst? k = some (.seq x) → s'.inst? k = some (.seq y) →
    (y.q ≠ x.q ∨ (i.inst? = some k ∧ s'.faults = s.faults)) → assertsAsync j = false → t.inst? k = s''.inst? k

/-- R304: an asynchronous set or clear with clk = 1 consumes the rising edge, so the next call with clk = 1 and the
lines deasserted does not load d. -/
def Obligations.AsyncCallConsumesTheEdge : Prop :=
  ∀ (s : State) (inst : Nat) (x : SeqInst) (d set clr clk d' set' clr' clk' : Symbols),
    s.inst? inst = some (.seq x) → x.kind = .dffSc → x.prev = .known false →
    Accepts s (.dffSc inst d set clr clk) = true → AllSymbolsValid [d, set, clr, clk] →
    Accepts s (.dffSc inst d' set' clr' clk') = true → AllSymbolsValid [d', set', clr', clk'] →
    bitOf set ≠ bitOf clr → bitOf clk = true → bitOf set' = false → bitOf clr' = false → bitOf clk' = true →
    ∃ t u, exec (.dffSc inst d set clr clk) s = .next t ∧ exec (.dffSc inst d' set' clr' clk') t = .next u ∧
      u.inst? inst = some (.seq ⟨.dffSc, List.replicate x.q.length (.known (bitOf set)), .known true⟩)

/-! ## Storage -/

/-- RAM_1R (R250 to R254): the address register is overwritten by every call, row udec(address) is replaced exactly on
a rising edge with write, every other row stays, the clock is recorded, and the output is the addressed row as it
stands at the end of the call. -/
def Obligations.RamResult : Prop :=
  ∀ (s : State) (inst : Nat) (x : RamInst) (address dataIn write clk : Symbols), s.inst? inst = some (.ram x) →
    ramLegal x.rowCount x.addrW x.w = true → fitsPort x.addrW address = true → fitsPort x.w dataIn = true →
    oneBitWide write = true → oneBitWide clk = true → AllSymbolsValid [address, dataIn, write, clk] →
    udec (bitsOf address) < x.rowCount → ¬(bitOf write = true ∧ bitOf clk = true ∧ x.prev = .uninit) →
    ∃ mem out, exec (.ram1r inst address dataIn write clk) s =
        .next ((s.setInst inst (.ram ⟨x.rowCount, x.addrW, x.w, mem, .known (zext x.addrW (bitsOf address)),
          .known (bitOf clk)⟩)).returns [out]) ∧
      (∀ r, Memory.read mem r =
        if bitOf write = true ∧ bitOf clk = true ∧ x.prev = .known false ∧ r = udec (bitsOf address)
        then .known (zext x.w (bitsOf dataIn)) else x.mem.read r) ∧
      (∀ v, Memory.read mem (udec (bitsOf address)) = .known v → out = knownBits v) ∧
      (Memory.read mem (udec (bitsOf address)) = .uninit → out = List.replicate x.w .uninit)

/-- R255: a call that writes V to row A returns V, not the prior contents. -/
def Obligations.RamWriteIsReadInTheSameCall : Prop :=
  ∀ (s : State) (inst : Nat) (x : RamInst) (address dataIn write clk : Symbols), s.inst? inst = some (.ram x) →
    Accepts s (.ram1r inst address dataIn write clk) = true → AllSymbolsValid [address, dataIn, write, clk] →
    udec (bitsOf address) < x.rowCount → bitOf write = true → bitOf clk = true → x.prev = .known false →
    ∃ t, exec (.ram1r inst address dataIn write clk) s = .next t ∧
      t.outcomes = s.outcomes ++ [.returned [knownBits (zext x.w (bitsOf dataIn))]]

/-- R62, R250: a row index of ROWS or more raises `AddressOutOfRange`, before the edge is looked at (R279). -/
def Obligations.RamAddressOutOfRange : Prop :=
  ∀ (s : State) (inst : Nat) (x : RamInst) (address dataIn write clk : Symbols), s.inst? inst = some (.ram x) →
    Accepts s (.ram1r inst address dataIn write clk) = true → AllSymbolsValid [address, dataIn, write, clk] →
    x.rowCount ≤ udec (bitsOf address) →
    exec (.ram1r inst address dataIn write clk) s =
      .next (s.raises (some inst) (.addressOutOfRange (udec (bitsOf address))))

/-- R62, R63, R69: a RAM call writes with `MemWrite` on a rising edge with write, then reads with `MemRead`; the error
of either is the call's error. -/
def Obligations.RamCallIsMemWriteThenMemRead : Prop :=
  ∀ (s : State) (inst : Nat) (x : RamInst) (address dataIn write clk : Symbols), s.inst? inst = some (.ram x) →
    Accepts s (.ram1r inst address dataIn write clk) = true → AllSymbolsValid [address, dataIn, write, clk] →
    ¬(bitOf write = true ∧ bitOf clk = true ∧ x.prev = .uninit) →
    exec (.ram1r inst address dataIn write clk) s =
      match (if bitOf write = true ∧ bitOf clk = true ∧ x.prev = .known false
        then memWrite x (udec (bitsOf address)) (zext x.w (bitsOf dataIn)) else .ok x) with
      | .error e => .next (s.raises (some inst) e)
      | .ok y =>
        match memRead y (udec (bitsOf address)) with
        | .error e => .next (s.raises (some inst) e)
        | .ok v =>
          .next ((s.setInst inst (.ram ⟨y.rowCount, y.addrW, y.w, y.mem, .known (zext x.addrW (bitsOf address)),
            .known (bitOf clk)⟩)).returns [rowOut x.w v])

/-! ## The host's other operations -/

/-- R39, R300: a constructed component holds its reset values, the fault record is empty after reset, and construction
changes nothing else. -/
def Obligations.ConstructedComponentsHoldTheirResetValues : Prop :=
  State.reset.faults = [] ∧ State.reset.insts = [] ∧
  (∀ (s : State) (inst : Nat) (kind : SeqKind) (width : Nat) (initQ initPrev : Held Bit) (rest : List HostOp),
    s.pending = .construct inst (.seq kind width initQ initPrev) :: rest → s.inst? inst = none → 1 ≤ width →
    ∃ t x, step s = .next t ∧ t.inst? inst = some (.seq x) ∧ x.kind = kind ∧ x.q.length = width ∧
      (∀ b ∈ x.q, b = initQ) ∧ (∀ b ∈ notq x.q, b = heldNot initQ) ∧ x.prev = initPrev ∧
      t = { s with pending := rest, insts := t.insts } ∧ ∀ k, k ≠ inst → t.inst? k = s.inst? k) ∧
  ∀ (s : State) (inst rows addrW w : Nat) (initPrev : Held Bit) (rest : List HostOp),
    s.pending = .construct inst (.ram rows addrW w initPrev) :: rest → s.inst? inst = none → 1 ≤ w → 1 ≤ addrW →
    1 ≤ rows → rows ≤ 2 ^ addrW →
    ∃ t x, step s = .next t ∧ t.inst? inst = some (.ram x) ∧ x.rowCount = rows ∧ x.addrW = addrW ∧ x.w = w ∧
      (∀ r, x.mem.read r = .uninit) ∧ x.addr = .uninit ∧ x.prev = initPrev ∧
      t = { s with pending := rest, insts := t.insts } ∧ ∀ k, k ≠ inst → t.inst? k = s.inst? k

/-- R256: a preload before the first call sets the rows in list order, zero-extended, and touches neither the address
register nor the clock level. Otherwise it changes nothing: a value with an invalid symbol raises `InvalidBitSymbol` for
the first such symbol (R272), before any row number is looked at (R279); a row number out of range raises; a value wider
than a row, or of width 0, is refused before both (R13). The model's choices and inferences: which of several such
row numbers is reported (log entry 18, not stated), which of several refusals (log entry 19, not stated), that the
values count as operands in list order (log entry 11), that a refusal is recorded (log entries 7 and 16), and the call
index a preload's fault carries (log entry 6). -/
def Obligations.PreloadSetsTheRowsInListOrder : Prop :=
  ∀ (s : State) (inst : Nat) (x : RamInst) (rows : List (Nat × Symbols)) (rest : List HostOp),
    s.pending = .preload inst rows :: rest → s.inst? inst = some (.ram x) →
    ramLegal x.rowCount x.addrW x.w = true → inst ∉ s.called →
    ((∀ p ∈ rows, fitsPort x.w p.2 = true) →
      (AllSymbolsValid (rows.map Prod.snd) →
        ((∀ p ∈ rows, p.1 < x.rowCount) →
          ∃ t y, step s = .next t ∧ t = { s with pending := rest, insts := t.insts } ∧
            t.inst? inst = some (.ram y) ∧ y = { x with mem := y.mem } ∧
            (∀ r, y.mem.read r =
              rows.foldl (fun old p => if p.1 = r then .known (zext x.w (bitsOf p.2)) else old) (x.mem.read r)) ∧
            ∀ k, k ≠ inst → t.inst? k = s.inst? k) ∧
        ((∃ p ∈ rows, x.rowCount ≤ p.1) →
          ∃ a, x.rowCount ≤ a ∧ a ∈ rows.map Prod.fst ∧
            step s = .next (State.raises { s with pending := rest } (some inst) (.addressOutOfRange a)))) ∧
      ∀ (j p : Nat) (v : Symbols) (c : Symbol), (rows.map Prod.snd)[j]? = some v → v[p]? = some c →
        ¬(c = '0' ∨ c = '1') → AllSymbolsValid ((rows.map Prod.snd).take j) →
        (∀ d ∈ v.take p, d = '0' ∨ d = '1') →
        step s = .next (State.raises { s with pending := rest } (some inst) (.invalidBitSymbol j p c))) ∧
    ((∃ p ∈ rows, fitsPort x.w p.2 = false) →
      ∃ why, step s = .next (State.refuses { s with pending := rest } why) ∧
        ∃ p ∈ rows, (why = .tooWide ∧ x.w < p.2.length) ∨ (why = .zeroWidth ∧ p.2 = []))

/-- R256, R302: a preload after a call has been issued on the RAM has no move (D36) and is refused, whatever was called
and whatever it answered; every call issued on a component, whether it returned, faulted or was refused, for its operand
count too (R12; the model's inference, log entry 11), marks it, and no step takes a mark away. -/
def Obligations.PreloadIsOnlyBeforeTheFirstCall : Prop :=
  (∀ (s : State) (inst : Nat) (rows : List (Nat × Symbols)) (rest : List HostOp),
    s.pending = .preload inst rows :: rest → inst ∈ s.called → step s = .refused (.preloadAfterCall inst)) ∧
  (∀ (s t : State) (c : Call) (rest : List HostOp) (i : Instr) (k : Nat), s.pending = .call c :: rest →
    decode c = .ok i → i.inst? = some k → step s = .next t → k ∈ t.called) ∧
  (∀ (s t : State) (c : Call) (rest : List HostOp), s.pending = .call c :: rest →
    c.op ∈ [0x30#8, 0x31#8, 0x32#8, 0x33#8, 0x34#8, 0x40#8] → (s.inst? c.inst).isSome = true → step s = .next t →
    c.inst ∈ t.called) ∧
  ∀ s t : State, step s = .next t → ∀ k ∈ s.called, k ∈ t.called

/-- R40, R258, R277: between calls the host reads q, notq, or the addressed RAM row as they stand; an output that holds
`Uninit` raises `UninitialisedRead`, and so does every RAM output before the first call. A read changes nothing.
That a read is of a whole output, which faults on any `Uninit` bit, is the model's inference (log entry 14), and the call
index of its fault the model's choice (log entry 6). -/
def Obligations.ReadsAnswerTheOutputsAsTheyStand : Prop :=
  (∀ (s : State) (inst : Nat) (x : SeqInst) (rest : List HostOp), s.inst? inst = some (.seq x) →
    (s.pending = .read inst .q :: rest →
      (∀ v, x.q = knownBits v → step s = .next (State.answersRead { s with pending := rest } v)) ∧
      (.uninit ∈ x.q →
        step s = .next (State.raises { s with pending := rest } (some inst) (.uninitialisedRead inst .q)))) ∧
    (s.pending = .read inst .notq :: rest →
      (∀ v, x.q = knownBits v → step s = .next (State.answersRead { s with pending := rest } (v.map not))) ∧
      (.uninit ∈ x.q →
        step s = .next (State.raises { s with pending := rest } (some inst) (.uninitialisedRead inst .notq))))) ∧
  ∀ (s : State) (inst : Nat) (x : RamInst) (rest : List HostOp), s.inst? inst = some (.ram x) →
    s.pending = .read inst .out :: rest → 1 ≤ x.w →
    (∀ a v, x.addr = .known a → x.mem.read (udec a) = .known v →
      step s = .next (State.answersRead { s with pending := rest } v)) ∧
    ((x.addr = .uninit ∨ ∃ a, x.addr = .known a ∧ x.mem.read (udec a) = .uninit) →
      step s = .next (State.raises { s with pending := rest } (some inst) (.uninitialisedRead inst .out)))
end

