-- ==== Sys2Proof/Laws/State.lean ====
section
/-! SUPPORT. One lemma per field per update of the state: what each update of Machine/Ops.lean writes and keeps. -/

namespace Sys2Proof.Machine

@[simp] theorem State.issueCall_params (s : State) (k : Option Nat) :
    (s.issueCall k).params = s.params := rfl
@[simp] theorem State.issueCall_insts (s : State) (k : Option Nat) :
    (s.issueCall k).insts = s.insts := rfl
@[simp] theorem State.issueCall_pending (s : State) (k : Option Nat) :
    (s.issueCall k).pending = s.pending := rfl
@[simp] theorem State.issueCall_calls (s : State) (k : Option Nat) :
    (s.issueCall k).calls = s.calls + 1 := rfl
@[simp] theorem State.issueCall_outcomes (s : State) (k : Option Nat) :
    (s.issueCall k).outcomes = s.outcomes := rfl
@[simp] theorem State.issueCall_sink (s : State) (k : Option Nat) :
    (s.issueCall k).sink = s.sink := rfl
@[simp] theorem State.issueCall_faults (s : State) (k : Option Nat) :
    (s.issueCall k).faults = s.faults := rfl

@[simp] theorem State.returns_params (s : State) (o : List HeldBits) :
    (s.returns o).params = s.params := rfl
@[simp] theorem State.returns_insts (s : State) (o : List HeldBits) :
    (s.returns o).insts = s.insts := rfl
@[simp] theorem State.returns_pending (s : State) (o : List HeldBits) :
    (s.returns o).pending = s.pending := rfl
@[simp] theorem State.returns_calls (s : State) (o : List HeldBits) :
    (s.returns o).calls = s.calls := rfl
@[simp] theorem State.returns_outcomes (s : State) (o : List HeldBits) :
    (s.returns o).outcomes = s.outcomes ++ [.returned o] := rfl
@[simp] theorem State.returns_sink (s : State) (o : List HeldBits) :
    (s.returns o).sink = s.sink := rfl
@[simp] theorem State.returns_faults (s : State) (o : List HeldBits) :
    (s.returns o).faults = s.faults := rfl

@[simp] theorem State.refuses_params (s : State) (why : IllFormed) :
    (s.refuses why).params = s.params := rfl
@[simp] theorem State.refuses_insts (s : State) (why : IllFormed) :
    (s.refuses why).insts = s.insts := rfl
@[simp] theorem State.refuses_pending (s : State) (why : IllFormed) :
    (s.refuses why).pending = s.pending := rfl
@[simp] theorem State.refuses_calls (s : State) (why : IllFormed) :
    (s.refuses why).calls = s.calls := rfl
@[simp] theorem State.refuses_outcomes (s : State) (why : IllFormed) :
    (s.refuses why).outcomes = s.outcomes ++ [.refused why] := rfl
@[simp] theorem State.refuses_sink (s : State) (why : IllFormed) :
    (s.refuses why).sink = s.sink := rfl
@[simp] theorem State.refuses_faults (s : State) (why : IllFormed) :
    (s.refuses why).faults = s.faults := rfl

@[simp] theorem State.answersRead_params (s : State) (v : BitVector) :
    (s.answersRead v).params = s.params := rfl
@[simp] theorem State.answersRead_insts (s : State) (v : BitVector) :
    (s.answersRead v).insts = s.insts := rfl
@[simp] theorem State.answersRead_pending (s : State) (v : BitVector) :
    (s.answersRead v).pending = s.pending := rfl
@[simp] theorem State.answersRead_calls (s : State) (v : BitVector) :
    (s.answersRead v).calls = s.calls := rfl
@[simp] theorem State.answersRead_outcomes (s : State) (v : BitVector) :
    (s.answersRead v).outcomes = s.outcomes ++ [.readValue v] := rfl
@[simp] theorem State.answersRead_sink (s : State) (v : BitVector) :
    (s.answersRead v).sink = s.sink := rfl
@[simp] theorem State.answersRead_faults (s : State) (v : BitVector) :
    (s.answersRead v).faults = s.faults := rfl

@[simp] theorem State.deliver_params (s : State) (rs : List SinkRecord) :
    (s.deliver rs).params = s.params := rfl
@[simp] theorem State.deliver_insts (s : State) (rs : List SinkRecord) :
    (s.deliver rs).insts = s.insts := rfl
@[simp] theorem State.deliver_pending (s : State) (rs : List SinkRecord) :
    (s.deliver rs).pending = s.pending := rfl
@[simp] theorem State.deliver_calls (s : State) (rs : List SinkRecord) :
    (s.deliver rs).calls = s.calls := rfl
@[simp] theorem State.deliver_outcomes (s : State) (rs : List SinkRecord) :
    (s.deliver rs).outcomes = s.outcomes := rfl
@[simp] theorem State.deliver_sink (s : State) (rs : List SinkRecord) :
    (s.deliver rs).sink = s.sink ++ rs := rfl
@[simp] theorem State.deliver_faults (s : State) (rs : List SinkRecord) :
    (s.deliver rs).faults = s.faults := rfl

@[simp] theorem State.raises_params (s : State) (k : Option Nat) (e : Error) :
    (s.raises k e).params = s.params := rfl
@[simp] theorem State.raises_insts (s : State) (k : Option Nat) (e : Error) :
    (s.raises k e).insts = s.insts := rfl
@[simp] theorem State.raises_pending (s : State) (k : Option Nat) (e : Error) :
    (s.raises k e).pending = s.pending := rfl
@[simp] theorem State.raises_calls (s : State) (k : Option Nat) (e : Error) :
    (s.raises k e).calls = s.calls := rfl
@[simp] theorem State.raises_outcomes (s : State) (k : Option Nat) (e : Error) :
    (s.raises k e).outcomes = s.outcomes ++ [.raised e] := rfl
@[simp] theorem State.raises_sink (s : State) (k : Option Nat) (e : Error) :
    (s.raises k e).sink = s.sink := rfl
@[simp] theorem State.raises_faults (s : State) (k : Option Nat) (e : Error) :
    (s.raises k e).faults = s.faults ++ [⟨s.calls, k, e⟩] := rfl

@[simp] theorem State.setInst_params (s : State) (k : Nat) (x : Inst) :
    (s.setInst k x).params = s.params := rfl
@[simp] theorem State.setInst_insts (s : State) (k : Nat) (x : Inst) :
    (s.setInst k x).insts = assocSet k x s.insts := rfl
@[simp] theorem State.setInst_pending (s : State) (k : Nat) (x : Inst) :
    (s.setInst k x).pending = s.pending := rfl
@[simp] theorem State.setInst_calls (s : State) (k : Nat) (x : Inst) :
    (s.setInst k x).calls = s.calls := rfl
@[simp] theorem State.setInst_outcomes (s : State) (k : Nat) (x : Inst) :
    (s.setInst k x).outcomes = s.outcomes := rfl
@[simp] theorem State.setInst_sink (s : State) (k : Nat) (x : Inst) :
    (s.setInst k x).sink = s.sink := rfl
@[simp] theorem State.setInst_faults (s : State) (k : Nat) (x : Inst) :
    (s.setInst k x).faults = s.faults := rfl

@[simp] theorem State.returns_called (s : State) (o : List HeldBits) : (s.returns o).called = s.called := rfl
@[simp] theorem State.refuses_called (s : State) (why : IllFormed) : (s.refuses why).called = s.called := rfl
@[simp] theorem State.answersRead_called (s : State) (v : BitVector) : (s.answersRead v).called = s.called := rfl
@[simp] theorem State.deliver_called (s : State) (rs : List SinkRecord) : (s.deliver rs).called = s.called := rfl
@[simp] theorem State.raises_called (s : State) (k : Option Nat) (e : Error) : (s.raises k e).called = s.called := rfl
@[simp] theorem State.setInst_called (s : State) (k : Nat) (x : Inst) : (s.setInst k x).called = s.called := rfl
@[simp] theorem State.issueCall_none_called (s : State) : (s.issueCall none).called = s.called := rfl

/-- Issuing a call adds the constructed component it names, and no other. -/
theorem State.mem_issueCall_called {s : State} {target : Option Nat} {j : Nat} :
    j ∈ (s.issueCall target).called ↔ j ∈ s.called ∨ (target = some j ∧ (s.inst? j).isSome = true) := by
  cases target with
  | none => simp [State.issueCall]
  | some k =>
    simp only [State.issueCall, Option.some.injEq]
    split_ifs with h
    · simp only [List.mem_append, List.mem_singleton]
      constructor
      · rintro (h' | rfl)
        · exact .inl h'
        · exact .inr ⟨rfl, h.1⟩
      · rintro (h' | ⟨rfl, -⟩)
        · exact .inl h'
        · exact .inr rfl
    · constructor
      · exact .inl
      · rintro (h' | ⟨rfl, h'⟩)
        · exact h'
        · by_contra hn; exact h ⟨h', hn⟩

theorem State.issueCall_called_nodup {s : State} (h : s.called.Nodup) (target : Option Nat) :
    (s.issueCall target).called.Nodup := by
  cases target with
  | none => exact h
  | some k =>
    simp only [State.issueCall]
    split_ifs with hk
    · simp only [List.nodup_append, h, List.nodup_singleton, List.mem_singleton, true_and]
      rintro a ha b rfl rfl
      exact hk.2 ha
    · exact h

/-! What is recorded of a refusal. -/

@[simp] theorem recordRefusal_next (s t : State) : recordRefusal s (.next t) = .next t := rfl
@[simp] theorem recordRefusal_illFormed (s : State) (why : IllFormed) :
    recordRefusal s (.refused (.illFormed why)) = .next (s.refuses why) := rfl

/-- A next state after recording is the operation's own, or the record of its refusal. -/
theorem recordRefusal_cases {s t : State} {r : Result} (h : recordRefusal s r = .next t) :
    r = .next t ∨ ∃ why, r = .refused (.illFormed why) ∧ t = s.refuses why := by
  unfold recordRefusal at h
  split at h
  · next why => cases h; exact .inr ⟨why, rfl, rfl⟩
  · exact .inl h

/-- Recording adds no fault of the model. -/
theorem recordRefusal_fault {s : State} {r : Result} {f : Fault} : recordRefusal s r = .fault f ↔ r = .fault f := by
  unfold recordRefusal
  split <;> simp

/-- Only a component update changes what a component identifier names. -/
@[simp] theorem State.issueCall_inst? (s : State) (k : Option Nat) (j : Nat) :
    (s.issueCall k).inst? j = s.inst? j := rfl
@[simp] theorem State.returns_inst? (s : State) (o : List HeldBits) (j : Nat) : (s.returns o).inst? j = s.inst? j := rfl
@[simp] theorem State.refuses_inst? (s : State) (why : IllFormed) (j : Nat) :
    (s.refuses why).inst? j = s.inst? j := rfl
@[simp] theorem State.answersRead_inst? (s : State) (v : BitVector) (j : Nat) :
    (s.answersRead v).inst? j = s.inst? j := rfl
@[simp] theorem State.deliver_inst? (s : State) (rs : List SinkRecord) (j : Nat) :
    (s.deliver rs).inst? j = s.inst? j := rfl
@[simp] theorem State.raises_inst? (s : State) (k : Option Nat) (e : Error) (j : Nat) :
    (s.raises k e).inst? j = s.inst? j := rfl
@[simp] theorem State.deliver_nil (s : State) : s.deliver [] = s := by simp [State.deliver]

end Sys2Proof.Machine
end

