-- ==== Sys2Proof/Laws/Assoc.lean ====
section
/-! SUPPORT. Association lists in canonical form, and with them the RAM rows and the components: read after write,
every other place unchanged, and that each operation keeps the form. -/

namespace Sys2Proof.Machine

variable {α : Type}

@[simp] theorem assocGet_set_same (k : Nat) (v : α) (l : List (Nat × α)) : assocGet k (assocSet k v l) = some v := by
  induction l with
  | nil => simp [assocSet, assocGet]
  | cons p r ih =>
    obtain ⟨j, u⟩ := p
    simp only [assocSet]
    split_ifs with h1 h2
    · simp [assocGet]
    · simp [assocGet]
    · simp [assocGet, Ne.symm h2, ih]

theorem assocGet_set_other {k j : Nat} (h : j ≠ k) (v : α) (l : List (Nat × α)) :
    assocGet j (assocSet k v l) = assocGet j l := by
  induction l with
  | nil => simp [assocSet, assocGet, Ne.symm h]
  | cons p r ih =>
    obtain ⟨i, u⟩ := p
    simp only [assocSet]
    split_ifs with h1 h2
    · simp [assocGet, Ne.symm h]
    · subst h2; simp [assocGet, Ne.symm h]
    · simp [assocGet, ih]

theorem mem_of_assocGet {k : Nat} {v : α} {l : List (Nat × α)} (h : assocGet k l = some v) : (k, v) ∈ l := by
  induction l with
  | nil => simp [assocGet] at h
  | cons p r ih =>
    obtain ⟨j, u⟩ := p
    simp only [assocGet] at h
    split_ifs at h with hj
    · cases h; subst hj; simp
    · exact List.mem_cons_of_mem _ (ih h)

theorem mem_assocSet {k : Nat} {v : α} {l : List (Nat × α)} {p : Nat × α} (h : p ∈ assocSet k v l) :
    p = (k, v) ∨ p ∈ l := by
  induction l with
  | nil => simpa [assocSet] using h
  | cons q r ih =>
    obtain ⟨j, u⟩ := q
    simp only [assocSet] at h
    split_ifs at h with h1 h2
    · simpa using h
    · rcases List.mem_cons.1 h with h | h
      · exact .inl h
      · exact .inr (List.mem_cons_of_mem _ h)
    · rcases List.mem_cons.1 h with h | h
      · exact .inr (by simp [h])
      · exact (ih h).imp_right (List.mem_cons_of_mem _)

/-- Writing keeps the keys strictly rising. -/
theorem rising_assocSet (k : Nat) (v : α) {l : List (Nat × α)} (h : Rising l) : Rising (assocSet k v l) := by
  induction l with
  | nil => simp [assocSet, Rising]
  | cons p r ih =>
    obtain ⟨j, u⟩ := p
    simp only [Rising, List.map_cons, List.pairwise_cons] at h
    simp only [assocSet]
    split_ifs with h1 h2
    · simp only [Rising, List.map_cons, List.pairwise_cons]
      refine ⟨?_, h⟩
      intro a ha
      rcases List.mem_cons.1 ha with ha | ha
      · exact ha ▸ h1
      · exact lt_trans h1 (h.1 a ha)
    · subst h2; simpa [Rising] using h
    · simp only [Rising, List.map_cons, List.pairwise_cons]
      refine ⟨?_, ih h.2⟩
      intro a ha
      obtain ⟨p, hp, rfl⟩ := List.mem_map.1 ha
      rcases mem_assocSet hp with rfl | hp
      · exact lt_of_le_of_ne (not_lt.1 h1) (Ne.symm h2)
      · exact h.1 _ (List.mem_map_of_mem hp)

/-! The RAM rows (R62, R63). -/

@[simp] theorem Memory.read_write_same (m : Memory) (a : Nat) (v : BitVector) :
    (m.write a v).read a = .known v := by simp [Memory.read, Memory.write]

theorem Memory.read_write_other (m : Memory) {a b : Nat} (h : b ≠ a) (v : BitVector) :
    (m.write a v).read b = m.read b := by simp [Memory.read, Memory.write, assocGet_set_other h]

theorem Memory.write_wf {rows w : Nat} {m : Memory} (h : Memory.wf rows w m) {a : Nat} (ha : a < rows)
    {v : BitVector} (hv : v.length = w) : Memory.wf rows w (m.write a v) := by
  refine ⟨rising_assocSet a v h.1, fun p hp => ?_⟩
  rcases mem_assocSet hp with rfl | hp
  · exact ⟨ha, hv⟩
  · exact h.2 p hp

theorem Memory.wf_nil (rows w : Nat) : Memory.wf rows w [] := ⟨List.Pairwise.nil, by simp⟩

/-- A row that holds a value holds one of the row's width. -/
theorem Memory.read_width {rows w : Nat} {m : Memory} (h : Memory.wf rows w m) {a : Nat} {v : BitVector}
    (hv : m.read a = .known v) : v.length = w := by
  unfold Memory.read at hv
  split at hv
  · simp [Memory.unlisted] at hv
  · next u hu => cases hv; exact (h.2 _ (mem_of_assocGet hu)).2

/-! The components. -/

@[simp] theorem State.setInst_inst?_same (s : State) (k : Nat) (x : Inst) : (s.setInst k x).inst? k = some x :=
  assocGet_set_same k x s.insts

theorem State.setInst_inst?_other (s : State) {k j : Nat} (h : j ≠ k) (x : Inst) :
    (s.setInst k x).inst? j = s.inst? j := assocGet_set_other h x s.insts

theorem State.inst?_mem {s : State} {k : Nat} {x : Inst} (h : s.inst? k = some x) : (k, x) ∈ s.insts :=
  mem_of_assocGet h

end Sys2Proof.Machine
end

