-- ==== Sys2Proof/Laws/Decode.lean ====
section
/-! SUPPORT. The selector table and the operand lists: what the decoder's lookups find. -/

namespace Sys2Proof

/-- A row is found under its own selector: no two rows of R83 share one. -/
@[simp] theorem Opcode.ofSelector_selector (o : Opcode) : Opcode.ofSelector o.selector = some o := by
  cases o <;> decide

theorem Opcode.selector_of_ofSelector {b : BitVec 8} {o : Opcode} (h : Opcode.ofSelector b = some o) :
    o.selector = b := by
  have := List.find?_some h
  simpa using this

theorem Opcode.opcode_of_assemble {o : Opcode} {c : Call} {i : Instr} (h : o.assemble c = some i) :
    i.opcode = o ∧ ∀ k, i.inst? = some k → k = c.inst := by
  unfold Opcode.assemble at h
  split at h
  all_goals first
    | (cases h; done)
    | (cases h; exact ⟨rfl, by simp [Instr.inst?]⟩)
    | (simp only [Option.map_eq_some_iff] at h; obtain ⟨p, -, rfl⟩ := h; exact ⟨rfl, by simp [Instr.inst?]⟩)

theorem Instr.inst?_isSome (i : Instr) : i.inst?.isSome = i.opcode.hasInst := by
  cases i <;> rfl

/-- A call record names the component of the instruction it decodes to. -/
theorem Call.target?_of_decode {c : Call} {i : Instr} (h : decode c = .ok i) : c.target? = i.inst? := by
  unfold decode at h
  unfold Call.target?
  split at h
  · cases h
  · next o ho =>
    split at h
    · cases h
    · next j hj =>
      cases h
      obtain ⟨rfl, hc⟩ := Opcode.opcode_of_assemble hj
      simp only [← Instr.inst?_isSome]
      rcases hi : i.inst? with - | k
      · rfl
      · simp [hc k hi]

/-- A call of an operation that does not exist names no component. -/
theorem Call.target?_of_unsupported {c : Call} {op : OpName} (h : decode c = .error (.unsupported op)) :
    c.target? = none := by
  unfold decode at h
  unfold Call.target?
  split at h
  · rfl
  · split at h <;> cases h

@[simp] theorem splitLast_append {α : Type} (l : List α) (x : α) : splitLast (l ++ [x]) = some (l, x) := by
  induction l with
  | nil => rfl
  | cons y r ih =>
    cases r with
    | nil => rfl
    | cons z r =>
      simp only [List.cons_append] at ih ⊢
      simp [splitLast, ih]

theorem eq_of_splitLast {α : Type} {l : List α} {p : List α × α} (h : splitLast l = some p) : l = p.1 ++ [p.2] := by
  induction l generalizing p with
  | nil => simp [splitLast] at h
  | cons y r ih =>
    cases r with
    | nil => simp [splitLast] at h; subst h; rfl
    | cons z r =>
      simp only [splitLast, Option.map_eq_some_iff] at h
      obtain ⟨q, hq, rfl⟩ := h
      rw [ih hq]; rfl

end Sys2Proof
end

