-- ==== Sys2Proof/Laws/Vectors.lean ====
section
/-! SUPPORT. Vectors: widths, values (`udec`), single bits (`bitAt`), zero-extension, and the carry chain. -/

namespace Sys2Proof.Machine

@[simp] theorem bitsOf_length (x : Symbols) : (bitsOf x).length = x.length := by simp [bitsOf]

@[simp] theorem knownBits_length (v : BitVector) : (knownBits v).length = v.length := by simp [knownBits]

theorem zext_length {n : Nat} {v : BitVector} (h : v.length ≤ n) : (zext n v).length = n := by
  simp [zext]; omega

theorem trunc_length {n : Nat} {v : BitVector} (h : n ≤ v.length) : (trunc n v).length = n := by
  simp [trunc]; omega

@[simp] theorem zext_self (v : BitVector) : zext v.length v = v := by simp [zext]

theorem udec_append (u v : BitVector) : udec (u ++ v) = udec u * 2 ^ v.length + udec v := by
  induction u with
  | nil => simp [udec]
  | cons b u ih =>
    simp only [List.cons_append, udec, List.length_append, ih, pow_add]
    ring

@[simp] theorem udec_zeros (n : Nat) : udec (List.replicate n false) = 0 := by
  induction n with
  | zero => rfl
  | succ n ih => simp [List.replicate_succ, udec, ih]

@[simp] theorem udec_zext (n : Nat) (v : BitVector) : udec (zext n v) = udec v := by
  simp [zext, udec_append]

theorem udec_lt (v : BitVector) : udec v < 2 ^ v.length := by
  induction v with
  | nil => simp [udec]
  | cons b v ih =>
    simp only [udec, List.length_cons, pow_succ]
    cases b <;> simp <;> omega

/-- Vectors of one width with one value are the same vector. -/
theorem udec_inj {u v : BitVector} (hl : u.length = v.length) (h : udec u = udec v) : u = v := by
  induction u generalizing v with
  | nil => exact (List.length_eq_zero_iff.1 hl.symm).symm
  | cons b u ih =>
    cases v with
    | nil => simp at hl
    | cons c v =>
      have hl' : u.length = v.length := by simpa using hl
      have hu := udec_lt u
      have hv := udec_lt v
      simp only [udec, hl'] at h hu
      cases b <;> cases c <;> simp at h
      · rw [ih hl' h]
      · omega
      · omega
      · rw [ih hl' h]

theorem udec_concat (v : BitVector) (b : Bit) : udec (v ++ [b]) = 2 * udec v + b.toNat := by
  rw [udec_append]; simp [udec]; ring

@[simp] theorem bitsNat_length (n x : Nat) : (bitsNat n x).length = n := by
  induction n with
  | zero => rfl
  | succ n ih => simp [bitsNat, ih]

@[simp] theorem udec_bitsNat (n x : Nat) : udec (bitsNat n x) = x % 2 ^ n := by
  induction n with
  | zero => simp [bitsNat, udec, Nat.mod_one]
  | succ n ih =>
    simp only [bitsNat, udec, bitsNat_length, ih]
    rw [Nat.mod_pow_succ, Nat.toNat_testBit]
    ring

/-! Single bits. -/

theorem bitAt_eq_getD {v : BitVector} {i : Nat} (h : i < v.length) : bitAt v i = v.getD (v.length - 1 - i) false := by
  simp [bitAt, List.getD_eq_getElem?_getD, List.getElem?_reverse h]

theorem bitAt_of_le {v : BitVector} {i : Nat} (h : v.length ≤ i) : bitAt v i = false := by
  simp [bitAt, List.getD_eq_getElem?_getD, h]

/-- Zero-extension adds only zeros above. -/
@[simp] theorem bitAt_zext (n : Nat) (v : BitVector) (i : Nat) : bitAt (zext n v) i = bitAt v i := by
  unfold bitAt zext
  rw [List.reverse_append, List.reverse_replicate, List.getD_eq_getElem?_getD, List.getD_eq_getElem?_getD]
  by_cases h : i < v.length
  · rw [List.getElem?_append_left (by simpa using h)]
  · rw [List.getElem?_append_right (by simpa using h)]
    have : v.reverse[i]? = none := by simp; omega
    rw [this, List.getElem?_replicate]
    split <;> rfl

/-- Vectors of one width with the same bits are the same vector. -/
theorem eq_of_bitAt {u v : BitVector} (hl : u.length = v.length) (h : ∀ i < u.length, bitAt u i = bitAt v i) :
    u = v := by
  have : u.reverse = v.reverse := by
    apply List.ext_getElem (by simpa using hl)
    intro i h1 h2
    have hi := h i (by simpa using h1)
    simpa [bitAt, List.getD_eq_getElem?_getD, List.getElem?_eq_getElem h1, List.getElem?_eq_getElem h2] using hi
  simpa using this

theorem le_maxWidth {v : BitVector} {vs : List BitVector} (h : v ∈ vs) : v.length ≤ maxWidth vs := by
  induction vs with
  | nil => simp at h
  | cons u vs ih =>
    simp only [maxWidth, List.map_cons, List.foldr_cons]
    rcases List.mem_cons.1 h with rfl | h
    · exact le_max_left _ _
    · exact le_trans (ih h) (le_max_right _ _)

@[simp] theorem maxWidth_pair (u v : BitVector) : maxWidth [u, v] = max u.length v.length := by
  simp [maxWidth]

@[simp] theorem maxWidth_single (u : BitVector) : maxWidth [u] = u.length := by simp [maxWidth]

/-! The carry chain (R142). -/

theorem fullAdder_value (a b c : Bit) :
    2 * (fullAdder a b c).2.toNat + (fullAdder a b c).1.toNat = a.toNat + b.toNat + c.toNat := by
  cases a <;> cases b <;> cases c <;> rfl

theorem rippleLsb_sum_length (c : Bit) {as bs : BitVector} (h : as.length = bs.length) :
    (rippleLsb c as bs).1.length = as.length := by
  induction as generalizing c bs with
  | nil => simp [rippleLsb]
  | cons a as ih =>
    cases bs with
    | nil => simp at h
    | cons b bs => simp [rippleLsb, ih _ (by simpa using h)]

theorem rippleLsb_carries_length (c : Bit) {as bs : BitVector} (h : as.length = bs.length) :
    (rippleLsb c as bs).2.length = as.length + 1 := by
  induction as generalizing c bs with
  | nil => simp [rippleLsb]
  | cons a as ih =>
    cases bs with
    | nil => simp at h
    | cons b bs => simp [rippleLsb, ih _ (by simpa using h)]

/-- The value of a vector written least significant bit first. -/
def ldec : BitVector → Nat
  | [] => 0
  | b :: v => b.toNat + 2 * ldec v

theorem udec_reverse (v : BitVector) : udec v.reverse = ldec v := by
  induction v with
  | nil => rfl
  | cons b v ih => rw [List.reverse_cons, udec_concat, ih, ldec]; ring

theorem rippleLsb_value (c : Bit) {as bs : BitVector} (h : as.length = bs.length) :
    ldec (rippleLsb c as bs).1 + (carryAt (rippleLsb c as bs).2 as.length).toNat * 2 ^ as.length =
      ldec as + ldec bs + c.toNat := by
  induction as generalizing c bs with
  | nil =>
    cases bs with
    | nil => simp [rippleLsb, ldec, carryAt]
    | cons b bs => simp at h
  | cons a as ih =>
    cases bs with
    | nil => simp at h
    | cons b bs =>
      have e := ih (fullAdder a b c).2 (bs := bs) (by simpa using h)
      have f := fullAdder_value a b c
      simp only [rippleLsb, ldec, List.length_cons, carryAt, List.getD_cons_succ, pow_succ] at e ⊢
      nlinarith

/-- Sum and carry-out of the chain give the exact sum (R142). -/
theorem chain_value {a b : BitVector} (h : a.length = b.length) :
    udec (chain a b).1 + (carryAt (chain a b).2 a.length).toNat * 2 ^ a.length = udec a + udec b := by
  have e := rippleLsb_value false (as := a.reverse) (bs := b.reverse) (by simpa using h)
  have ea : udec a = ldec a.reverse := by rw [← udec_reverse, List.reverse_reverse]
  have eb : udec b = ldec b.reverse := by rw [← udec_reverse, List.reverse_reverse]
  rw [ea, eb]
  simpa [chain, udec_reverse] using e

theorem chain_length {a b : BitVector} (h : a.length = b.length) : (chain a b).1.length = a.length := by
  simp [chain, rippleLsb_sum_length false (as := a.reverse) (bs := b.reverse) (by simpa using h)]

theorem addVec_value (a b : BitVector) : udec (addVec a b) = udec a + udec b := by
  set w := maxWidth [a, b] with hw
  have la : (zext w a).length = w := zext_length (le_maxWidth (by simp))
  have lb : (zext w b).length = w := zext_length (le_maxWidth (by simp))
  have e := chain_value (a := zext w a) (b := zext w b) (la.trans lb.symm)
  have l := chain_length (a := zext w a) (b := zext w b) (la.trans lb.symm)
  simp only [udec_zext, la] at e l
  simp only [addVec, ← hw]
  split_ifs with hc
  · rw [hc] at e; simp only [udec, l]; simp only [Bool.toNat_true] at e ⊢; omega
  · rw [Bool.not_eq_true] at hc; rw [hc] at e; simpa using e

theorem addVec_length (a b : BitVector) :
    (addVec a b).length =
      if 2 ^ maxWidth [a, b] ≤ udec a + udec b then maxWidth [a, b] + 1 else maxWidth [a, b] := by
  set w := maxWidth [a, b] with hw
  have la : (zext w a).length = w := zext_length (le_maxWidth (by simp))
  have lb : (zext w b).length = w := zext_length (le_maxWidth (by simp))
  have e := chain_value (a := zext w a) (b := zext w b) (la.trans lb.symm)
  have l := chain_length (a := zext w a) (b := zext w b) (la.trans lb.symm)
  have u := udec_lt (chain (zext w a) (zext w b)).1
  simp only [udec_zext, la] at e l
  rw [l] at u
  simp only [addVec, ← hw]
  split_ifs with hc hs hs
  · simp [l]
  · rw [hc] at e; simp at e; omega
  · rw [Bool.not_eq_true] at hc; rw [hc] at e; simp at e; omega
  · exact l

theorem eqVec_iff (a b : BitVector) : eqVec a b = true ↔ udec a = udec b := by
  set w := maxWidth [a, b] with hw
  have la : (zext w a).length = w := zext_length (le_maxWidth (by simp))
  have lb : (zext w b).length = w := zext_length (le_maxWidth (by simp))
  simp only [eqVec, ← hw, beq_iff_eq]
  constructor
  · intro h; simpa using congrArg udec h
  · intro h; exact udec_inj (la.trans lb.symm) (by simpa using h)

theorem udec_map_not (v : BitVector) : udec (v.map not) + udec v + 1 = 2 ^ v.length := by
  induction v with
  | nil => rfl
  | cons b v ih =>
    simp only [List.map_cons, udec, List.length_map, List.length_cons, pow_succ]
    cases b <;> simp <;> omega

theorem udec_trunc {n : Nat} {v : BitVector} (h : n ≤ v.length) : udec (trunc n v) = udec v % 2 ^ n := by
  have e : v = v.take (v.length - n) ++ trunc n v := by simp [trunc]
  have l : (trunc n v).length = n := trunc_length h
  have u := udec_lt (trunc n v)
  have f := udec_append (v.take (v.length - n)) (trunc n v)
  rw [← e, l] at f
  rw [l] at u
  rw [f, Nat.mul_add_mod_of_lt u]

end Sys2Proof.Machine
end

