-- ==== Sys2Proof/Laws/Front.lean ====
section
/-! SUPPORT. The front of a call (R86, R272): which operands fit their ports, which symbol is the first invalid one,
and the three ways a call front ends. -/

namespace Sys2Proof.Machine

theorem validSymbol_iff (c : Symbol) : validSymbol c = true ↔ c = '0' ∨ c = '1' := by
  simp [validSymbol]

/-! Ports. -/

@[simp] theorem misfit_any (x : Symbols) : Port.any.misfit x = none ↔ nonZeroWidth x = true := by
  rcases x with - | ⟨c, r⟩ <;> simp [Port.misfit, nonZeroWidth]

@[simp] theorem misfit_bit (x : Symbols) : Port.bit.misfit x = none ↔ oneBitWide x = true := by
  rcases x with - | ⟨c, r⟩ <;> simp [Port.misfit, oneBitWide]

@[simp] theorem misfit_upTo (n : Nat) (x : Symbols) : (Port.upTo n).misfit x = none ↔ fitsPort n x = true := by
  rcases x with - | ⟨c, r⟩ <;> simp [Port.misfit, fitsPort]

@[simp] theorem firstMisfit_nil : firstMisfit [] = none := rfl

@[simp] theorem firstMisfit_cons (p : Port) (x : Symbols) (r : List (Port × Symbols)) :
    firstMisfit ((p, x) :: r) = none ↔ p.misfit x = none ∧ firstMisfit r = none := by
  simp only [firstMisfit]
  split <;> simp_all

@[simp] theorem firstMisfit_any (ops : List Symbols) :
    firstMisfit (ops.map fun x => (Port.any, x)) = none ↔ ops.all nonZeroWidth = true := by
  induction ops with
  | nil => simp
  | cons x r ih => rw [List.map_cons, firstMisfit_cons, ih]; simp

@[simp] theorem firstMisfit_rows (n : Nat) (rows : List (Nat × Symbols)) :
    firstMisfit (rows.map fun p => (Port.upTo n, p.2)) = none ↔ ∀ p ∈ rows, fitsPort n p.2 = true := by
  induction rows with
  | nil => simp
  | cons p r ih => rw [List.map_cons, firstMisfit_cons, ih]; simp

theorem fitsPort_le {n : Nat} {x : Symbols} (h : fitsPort n x = true) : (bitsOf x).length ≤ n := by
  simp [fitsPort] at h; simp [h.2]

theorem fitsPort_pos {n : Nat} {x : Symbols} (h : fitsPort n x = true) : 1 ≤ n := by
  simp [fitsPort] at h; omega

/-! Symbols. -/

theorem badSymbolFrom_none (pos : Nat) (x : Symbols) :
    badSymbolFrom pos x = none ↔ ∀ c ∈ x, c = '0' ∨ c = '1' := by
  induction x generalizing pos with
  | nil => simp [badSymbolFrom]
  | cons c r ih =>
    simp only [badSymbolFrom, List.forall_mem_cons, ← validSymbol_iff]
    split_ifs with h
    · rw [ih]; simp [h, validSymbol_iff]
    · simp [h]

/-- A position holds the leftmost invalid symbol exactly when it is the one reported. -/
theorem badSymbolFrom_some (pos : Nat) (x : Symbols) (p : Nat) (c : Symbol) :
    badSymbolFrom pos x = some (pos + p, c) ↔
      x[p]? = some c ∧ validSymbol c = false ∧ ∀ d ∈ x.take p, validSymbol d = true := by
  induction x generalizing pos p with
  | nil => simp [badSymbolFrom]
  | cons a r ih =>
    simp only [badSymbolFrom]
    cases p with
    | zero =>
      split_ifs with h
      · have : badSymbolFrom (pos + 1) r ≠ some (pos + 0, c) := by
          have key : ∀ (q : Nat) (y : Symbols) (b : Nat × Symbol), badSymbolFrom q y = some b → q ≤ b.1 := by
            intro q y
            induction y generalizing q with
            | nil => simp [badSymbolFrom]
            | cons e y ihy =>
              intro b hb
              simp only [badSymbolFrom] at hb
              split_ifs at hb
              · have := ihy _ _ hb; omega
              · cases hb; exact le_refl _
          intro hc
          have := key _ _ _ hc
          simp at this
        simp only [this, false_iff]
        rintro ⟨h1, h2, -⟩
        simp at h1; subst h1; simp [h] at h2
      · simp only [Option.some.injEq, Prod.mk.injEq, List.take_zero, List.getElem?_cons_zero]
        constructor
        · rintro ⟨-, rfl⟩; exact ⟨rfl, by simpa using h, by simp⟩
        · rintro ⟨rfl, -, -⟩; simp
    | succ p =>
      split_ifs with h
      · have e : pos + (p + 1) = pos + 1 + p := by omega
        rw [e, ih]; simp [h]
      · simp only [Option.some.injEq, Prod.mk.injEq, List.take_succ_cons, List.forall_mem_cons]
        constructor
        · rintro ⟨h1, -⟩; omega
        · rintro ⟨-, -, h3, -⟩; exact absurd h3 h

theorem badOperandFrom_none (k : Nat) (ops : List Symbols) :
    badOperandFrom k ops = none ↔ AllSymbolsValid ops := by
  induction ops generalizing k with
  | nil => simp [badOperandFrom, AllSymbolsValid]
  | cons x r ih =>
    simp only [badOperandFrom, AllSymbolsValid, List.forall_mem_cons, ← badSymbolFrom_none 0]
    rcases h : badSymbolFrom 0 x with - | ⟨p, c⟩
    · simpa [AllSymbolsValid, badSymbolFrom_none] using ih (k + 1)
    · simp

/-- What validation reports is an `InvalidBitSymbol` of an invalid symbol that stands where it says. -/
theorem badOperandFrom_isInvalid {k : Nat} {ops : List Symbols} {e : Error} (h : badOperandFrom k ops = some e) :
    ∃ j p c, e = .invalidBitSymbol (k + j) p c ∧ (ops[j]?.bind fun x => x[p]?) = some c ∧ validSymbol c = false := by
  induction ops generalizing k with
  | nil => simp [badOperandFrom] at h
  | cons x r ih =>
    simp only [badOperandFrom] at h
    rcases hx : badSymbolFrom 0 x with - | ⟨p, c⟩
    · rw [hx] at h
      obtain ⟨j, p, c, rfl, h2, h3⟩ := ih h
      exact ⟨j + 1, p, c, by rw [Nat.add_right_comm, Nat.add_assoc], by simpa using h2, h3⟩
    · rw [hx] at h
      have hp := (badSymbolFrom_some 0 x p c).1 (by simpa using hx)
      exact ⟨0, p, c, by simpa using h.symm, by simpa using hp.1, hp.2.1⟩

/-- The first invalid symbol in operand order, leftmost first, is the one reported (R272). -/
theorem badOperandFrom_first {k : Nat} {ops : List Symbols} {j p : Nat} {x : Symbols} {c : Symbol}
    (hj : ops[j]? = some x) (hbefore : AllSymbolsValid (ops.take j)) (hp : x[p]? = some c)
    (hvalid : ∀ d ∈ x.take p, d = '0' ∨ d = '1') (hc : ¬(c = '0' ∨ c = '1')) :
    badOperandFrom k ops = some (.invalidBitSymbol (k + j) p c) := by
  induction ops generalizing k j with
  | nil => simp at hj
  | cons y r ih =>
    cases j with
    | zero =>
      simp only [List.getElem?_cons_zero, Option.some.injEq] at hj
      subst hj
      have h := (badSymbolFrom_some 0 y p c).2
        ⟨hp, by rw [← validSymbol_iff] at hc; simpa using hc, fun d hd => (validSymbol_iff d).2 (hvalid d hd)⟩
      simp only [Nat.zero_add] at h
      simp [badOperandFrom, h]
    | succ j =>
      simp only [AllSymbolsValid, List.take_succ_cons, List.forall_mem_cons] at hbefore
      have hy := (badSymbolFrom_none 0 y).2 hbefore.1
      have := ih (k := k + 1) (j := j) (by simpa using hj) hbefore.2
      simp only [badOperandFrom, hy, this]
      congr 2; omega

/-! The three ways a call front ends. -/

theorem callFront_refused {inst : Option Nat} {legal : Option IllFormed} {ports : List (Port × Symbols)} {s : State}
    {k : Result} (h : ¬(legal = none ∧ firstMisfit ports = none)) :
    ∃ why, callFront inst legal ports s k = .refused (.illFormed why) := by
  unfold callFront refuseCall
  cases legal with
  | some why => exact ⟨why, rfl⟩
  | none =>
    cases hm : firstMisfit ports with
    | some why => exact ⟨why, rfl⟩
    | none => exact absurd ⟨rfl, hm⟩ h

theorem callFront_passed {inst : Option Nat} {legal : Option IllFormed} {ports : List (Port × Symbols)} {s : State}
    {k : Result} (hl : legal = none) (hm : firstMisfit ports = none) :
    callFront inst legal ports s k =
      match badOperandFrom 0 (ports.map Prod.snd) with
      | some e => .next (s.raises inst e)
      | none => k := by
  subst hl
  simp only [callFront, hm]
  rfl

theorem callFront_ok {inst : Option Nat} {legal : Option IllFormed} {ports : List (Port × Symbols)} {s : State}
    {k : Result} (hl : legal = none) (hm : firstMisfit ports = none)
    (hv : AllSymbolsValid (ports.map Prod.snd)) : callFront inst legal ports s k = k := by
  rw [callFront_passed hl hm, (badOperandFrom_none 0 _).2 hv]

end Sys2Proof.Machine
end

