-- ==== Sys2Proof/Laws/Exec.lean ====
section
/-! SUPPORT. What an instruction can do, said once: which calls are refused, which raise for an invalid symbol, and
what a next state of `exec` is (`exec_effect`). -/

namespace Sys2Proof.Machine

/-! The component a sequential or storage call names. -/

theorem seqWidth_of {s : State} {inst : Nat} {x : SeqInst} (h : s.inst? inst = some (.seq x)) :
    seqWidth s inst x.kind = x.q.length := by simp [seqWidth, h]

theorem seqFront_cases (inst : Nat) (kind : SeqKind) (ports : Nat → List (Port × Symbols)) (s : State)
    (k : SeqInst → Result) :
    (∃ r, seqFront inst kind ports s k = .refused r ∧ seqWidth s inst kind = 0) ∨
      ∃ x, s.inst? inst = some (.seq x) ∧ x.kind = kind ∧ seqWidth s inst kind = x.q.length ∧
        seqFront inst kind ports s k =
          callFront (some inst) (if x.q.length = 0 then some .badParameter else none) (ports x.q.length) s (k x) := by
  unfold seqFront seqWidth
  rcases hi : s.inst? inst with - | (x | x)
  · exact .inl ⟨_, rfl, rfl⟩
  · by_cases hk : x.kind = kind
    · exact .inr ⟨x, rfl, hk, by simp [hk], by simp [hk]⟩
    · exact .inl ⟨.wrongComponent inst, by simp [hk], by simp [hk]⟩
  · exact .inl ⟨_, rfl, rfl⟩

theorem ramFront_cases (inst : Nat) (ports : RamInst → List (Port × Symbols)) (s : State) (k : RamInst → Result) :
    (∃ r, ramFront inst ports s k = .refused r ∧ ∀ x, s.inst? inst ≠ some (.ram x)) ∨
      ∃ x, s.inst? inst = some (.ram x) ∧
        ramFront inst ports s k =
          callFront (some inst) (if ramLegal x.rowCount x.addrW x.w then none else some .badParameter) (ports x) s
            (k x) := by
  unfold ramFront
  rcases hi : s.inst? inst with - | (x | x)
  · exact .inl ⟨_, rfl, by simp⟩
  · exact .inl ⟨_, rfl, by simp⟩
  · exact .inr ⟨x, rfl, rfl⟩

theorem legalRam?_eq {s : State} {inst : Nat} {x : RamInst} :
    legalRam? s inst = some x ↔ s.inst? inst = some (.ram x) ∧ ramLegal x.rowCount x.addrW x.w = true := by
  unfold legalRam?
  split
  · next y hy =>
    split_ifs with hl
    · simp only [Option.some.injEq, Inst.ram.injEq, hy]
      constructor
      · rintro rfl; exact ⟨rfl, hl⟩
      · exact fun h => h.1
    · simp only [false_iff, hy, Option.some.injEq, Inst.ram.injEq]
      rintro ⟨rfl, h⟩; exact hl h
  · next h => simp only [reduceCtorEq, false_iff]; rintro ⟨hi, -⟩; exact h x hi

/-- Every call is either refused for a component that is not there, or is its front with its own rule behind it; and
the front lets pass exactly what the block accepts. -/
theorem exec_front (i : Instr) (s : State) :
    (∃ r, exec i s = .refused r ∧ Accepts s i = false) ∨
      ∃ legal ports k, exec i s = callFront i.inst? legal ports s k ∧ ports.map Prod.snd = i.operands ∧
        ((legal = none ∧ firstMisfit ports = none) ↔ Accepts s i = true) := by
  have gate : ∀ (g : Gate) (ops : List Symbols) (A : Bool),
      ((g.arityOk ops.length = true ∧ ops.all nonZeroWidth = true) ↔ A = true) →
      ∃ legal ports k, gateCall g ops s = callFront none legal ports s k ∧ ports.map Prod.snd = ops ∧
        ((legal = none ∧ firstMisfit ports = none) ↔ A = true) := by
    intro g ops A hA
    refine ⟨_, _, _, rfl, by simp [Function.comp_def], ?_⟩
    rw [firstMisfit_any, ← hA]
    simp
  have seq : ∀ (inst : Nat) (kind : SeqKind) (ports : Nat → List (Port × Symbols)) (k : SeqInst → Result)
      (ops : List Symbols) (A : Bool), (∀ n, (ports n).map Prod.snd = ops) →
      ((seqWidth s inst kind ≠ 0 ∧ firstMisfit (ports (seqWidth s inst kind)) = none) ↔ A = true) →
      (∃ r, seqFront inst kind ports s k = .refused r ∧ A = false) ∨
      ∃ legal prt kk, seqFront inst kind ports s k = callFront (some inst) legal prt s kk ∧ prt.map Prod.snd = ops ∧
        ((legal = none ∧ firstMisfit prt = none) ↔ A = true) := by
    intro inst kind ports k ops A ho hA
    rcases seqFront_cases inst kind ports s k with ⟨r, hr, hw⟩ | ⟨x, hx, hk, hw, he⟩
    · refine .inl ⟨r, hr, ?_⟩
      rw [hw] at hA
      simpa using hA
    · refine .inr ⟨_, _, _, he, ho _, ?_⟩
      rw [← hA, hw]
      simp
  cases i with
  | andGate ops => exact .inr (gate .and ops _ (by simp [Accepts, Instr.wf, gateOperandsOk, Gate.arityOk]))
  | orGate ops => exact .inr (gate .or ops _ (by simp [Accepts, Instr.wf, gateOperandsOk, Gate.arityOk]))
  | notGate x => exact .inr (gate .not [x] _ (by simp [Accepts, Instr.wf, Gate.arityOk]))
  | nandGate ops => exact .inr (gate .nand ops _ (by simp [Accepts, Instr.wf, gateOperandsOk, Gate.arityOk]))
  | norGate ops => exact .inr (gate .nor ops _ (by simp [Accepts, Instr.wf, gateOperandsOk, Gate.arityOk]))
  | xorGate ops => exact .inr (gate .xor ops _ (by simp [Accepts, Instr.wf, gateOperandsOk, Gate.arityOk]))
  | xnorGate ops => exact .inr (gate .xnor ops _ (by simp [Accepts, Instr.wf, gateOperandsOk, Gate.arityOk]))
  | halfAdd a b => exact .inr ⟨none, [(.bit, a), (.bit, b)], _, rfl, rfl, by simp [Accepts, Instr.wf]⟩
  | fullAdd a b c => exact .inr ⟨none, [(.bit, a), (.bit, b), (.bit, c)], _, rfl, rfl, by simp [Accepts, Instr.wf, and_assoc]⟩
  | add a b => exact .inr ⟨none, [(.any, a), (.any, b)], _, rfl, rfl, by simp [Accepts, Instr.wf]⟩
  | addFixed n a b =>
    exact .inr ⟨_, [(.upTo n, a), (.upTo n, b)], _, rfl, rfl,
      by simp [Accepts, Instr.wf, and_assoc, Nat.one_le_iff_ne_zero]⟩
  | twoComplement x => exact .inr ⟨none, [(.any, x)], _, rfl, rfl, by simp [Accepts, Instr.wf]⟩
  | eqCompare a b => exact .inr ⟨none, [(.any, a), (.any, b)], _, rfl, rfl, by simp [Accepts, Instr.wf]⟩
  | zeroTest x => exact .inr ⟨none, [(.any, x)], _, rfl, rfl, by simp [Accepts, Instr.wf]⟩
  | mux inputs sel =>
    refine .inr ⟨_, _, _, rfl, by simp [Function.comp_def, Instr.operands], ?_⟩
    rw [firstMisfit_any]
    simp [Accepts, Instr.wf, Nat.one_le_iff_ne_zero, and_assoc]
  | demux e sel => exact .inr ⟨none, [(.bit, e), (.any, sel)], _, rfl, rfl, by simp [Accepts, Instr.wf]⟩
  | dff inst d clk =>
    refine seq inst .dff (fun n => [(.upTo n, d), (.bit, clk)]) _ [d, clk] _ (fun n => rfl) ?_
    simp only [Accepts, firstMisfit_cons, misfit_upTo, misfit_bit, firstMisfit_nil, Bool.and_eq_true]
    have := @fitsPort_pos (seqWidth s inst .dff) d
    grind
  | dffSc inst d set clr clk =>
    refine seq inst .dffSc (fun n => [(.upTo n, d), (.bit, set), (.bit, clr), (.bit, clk)]) _
      [d, set, clr, clk] _ (fun n => rfl) ?_
    simp only [Accepts, firstMisfit_cons, misfit_upTo, misfit_bit, firstMisfit_nil, Bool.and_eq_true]
    have := @fitsPort_pos (seqWidth s inst .dffSc) d
    grind
  | srFf inst a r clk =>
    refine seq inst .sr (fun n => [(.upTo n, a), (.upTo n, r), (.bit, clk)]) _ [a, r, clk] _ (fun n => rfl) ?_
    simp only [Accepts, firstMisfit_cons, misfit_upTo, misfit_bit, firstMisfit_nil, Bool.and_eq_true]
    have := @fitsPort_pos (seqWidth s inst .sr) a
    grind
  | jkFf inst j k clk =>
    refine seq inst .jk (fun n => [(.upTo n, j), (.upTo n, k), (.bit, clk)]) _ [j, k, clk] _ (fun n => rfl) ?_
    simp only [Accepts, firstMisfit_cons, misfit_upTo, misfit_bit, firstMisfit_nil, Bool.and_eq_true]
    have := @fitsPort_pos (seqWidth s inst .jk) j
    grind
  | register inst d clk =>
    refine seq inst .register (fun n => [(.upTo n, d), (.bit, clk)]) _ [d, clk] _ (fun n => rfl) ?_
    simp only [Accepts, firstMisfit_cons, misfit_upTo, misfit_bit, firstMisfit_nil, Bool.and_eq_true]
    have := @fitsPort_pos (seqWidth s inst .register) d
    grind
  | ram1r inst address dataIn write clk =>
    rcases ramFront_cases inst _ s _ with ⟨r, hr, hn⟩ | ⟨x, hx, he⟩
    · refine .inl ⟨r, hr, ?_⟩
      have : legalRam? s inst = none := by
        rcases h : legalRam? s inst with - | y
        · rfl
        · exact absurd (legalRam?_eq.1 h).1 (hn y)
      simp [Accepts, this]
    · refine .inr ⟨_, _, _, he, rfl, ?_⟩
      by_cases hl : ramLegal x.rowCount x.addrW x.w = true
      · have := legalRam?_eq.2 ⟨hx, hl⟩
        simp [Accepts, this, hl, and_assoc]
      · have : legalRam? s inst = none := by simp [legalRam?, hx, hl]
        simp [Accepts, this, hl]
  | testGate g n sink =>
    by_cases hA : Accepts s (.testGate g n sink) = true
    · refine .inr ⟨none, [], exec (.testGate g n sink) s, rfl, rfl, by simp [hA]⟩
    · refine .inl ⟨.illFormed .operandCount, ?_, by simpa using hA⟩
      simp only [Accepts, Instr.wf] at hA
      simp only [exec, execTestGate]
      split
      · next h => simp [h] at hA
      · next gt h => rw [h] at hA; simp only [hA]; rfl

theorem exec_refused {i : Instr} {s : State} (h : Accepts s i = false) : ∃ r, exec i s = .refused r := by
  rcases exec_front i s with ⟨r, hr, -⟩ | ⟨legal, ports, k, he, -, ha⟩
  · exact ⟨r, hr⟩
  · have : ¬(legal = none ∧ firstMisfit ports = none) := by rw [ha]; simp [h]
    obtain ⟨why, hw⟩ := callFront_refused (inst := i.inst?) (s := s) (k := k) this
    exact ⟨_, he.trans hw⟩

theorem exec_badSymbol {i : Instr} {s : State} {e : Error} (h : Accepts s i = true)
    (hb : badOperandFrom 0 i.operands = some e) : exec i s = .next (s.raises i.inst? e) := by
  rcases exec_front i s with ⟨r, -, hf⟩ | ⟨legal, ports, k, he, ho, ha⟩
  · rw [h] at hf; cases hf
  · obtain ⟨hl, hm⟩ := ha.2 h
    rw [he, callFront_passed hl hm, ho, hb]

/-! The rule of each call, once it is accepted and its symbols are valid. -/

variable {s : State}

theorem gateCall_ok {g : Gate} {ops : List Symbols} (ha : g.arityOk ops.length = true)
    (hw : ops.all nonZeroWidth = true) (hv : AllSymbolsValid ops) :
    gateCall g ops s =
      .next (s.returns [knownBits (gateVec (gateBit s.params.nary g) (ops.map bitsOf))]) := by
  refine callFront_ok (by simp [ha]) (by simpa using hw) ?_
  simpa [Function.comp_def] using hv

theorem seqFront_ok {inst : Nat} {kind : SeqKind} {ports : Nat → List (Port × Symbols)} {k : SeqInst → Result}
    {x : SeqInst} (hx : s.inst? inst = some (.seq x)) (hk : x.kind = kind) (h0 : x.q.length ≠ 0)
    (hm : firstMisfit (ports x.q.length) = none) (hv : AllSymbolsValid ((ports x.q.length).map Prod.snd)) :
    seqFront inst kind ports s k = k x := by
  simp only [seqFront, hx, hk, if_true]
  exact callFront_ok (by simp [h0]) hm hv

theorem ramFront_ok {inst : Nat} {ports : RamInst → List (Port × Symbols)} {k : RamInst → Result} {x : RamInst}
    (hx : s.inst? inst = some (.ram x)) (hl : ramLegal x.rowCount x.addrW x.w = true)
    (hm : firstMisfit (ports x) = none) (hv : AllSymbolsValid ((ports x).map Prod.snd)) :
    ramFront inst ports s k = k x := by
  simp only [ramFront, hx]
  exact callFront_ok (by simp [hl]) hm hv

/-- A call that names no constructed component is refused for that, whatever else is true of it. -/
theorem exec_noComponent {i : Instr} {s : State} {k : Nat} (hk : i.inst? = some k) (h : s.inst? k = none) :
    exec i s = .refused (.noComponent k) := by
  cases i with
  | dff => cases hk; simp only [exec, execDff, seqFront, h]
  | dffSc => cases hk; simp only [exec, execDffSc, seqFront, h]
  | srFf => cases hk; simp only [exec, execSrFf, seqFront, h]
  | jkFf => cases hk; simp only [exec, execJkFf, seqFront, h]
  | register => cases hk; simp only [exec, execRegister, seqFront, h]
  | ram1r => cases hk; simp only [exec, execRam1r, ramFront, h]
  | _ => cases hk

end Sys2Proof.Machine
end

