-- ==== Sys2Proof/Laws/Meanings.lean ====
section
/-! SUPPORT. One spec lemma per instruction: what `exec` answers for a call the block accepts whose symbols are valid. -/

namespace Sys2Proof.Machine

variable {s : State}

/-- The gate an instruction calls, with its operand list. -/
def Instr.gateCall? : Instr → Option (Gate × List Symbols)
  | .andGate ops => some (.and, ops)
  | .orGate ops => some (.or, ops)
  | .notGate x => some (.not, [x])
  | .nandGate ops => some (.nand, ops)
  | .norGate ops => some (.nor, ops)
  | .xorGate ops => some (.xor, ops)
  | .xnorGate ops => some (.xnor, ops)
  | _ => none

theorem exec_gate_ok {i : Instr} {g : Gate} {ops : List Symbols} (hg : Instr.gateCall? i = some (g, ops))
    (ha : Accepts s i = true) (hv : AllSymbolsValid i.operands) :
    exec i s = .next (s.returns [knownBits (gateVec (gateBit s.params.nary g) (ops.map bitsOf))]) := by
  cases i with
  | andGate o =>
    cases hg
    simp only [Accepts, Instr.wf, gateOperandsOk, Bool.and_eq_true] at ha
    exact gateCall_ok (by simpa [Gate.arityOk] using ha.1) ha.2 hv
  | orGate o =>
    cases hg
    simp only [Accepts, Instr.wf, gateOperandsOk, Bool.and_eq_true] at ha
    exact gateCall_ok (by simpa [Gate.arityOk] using ha.1) ha.2 hv
  | notGate o =>
    cases hg
    exact gateCall_ok (g := .not) (ops := [o]) (by simp [Gate.arityOk]) (by simpa [Accepts, Instr.wf] using ha) hv
  | nandGate o =>
    cases hg
    simp only [Accepts, Instr.wf, gateOperandsOk, Bool.and_eq_true] at ha
    exact gateCall_ok (by simpa [Gate.arityOk] using ha.1) ha.2 hv
  | norGate o =>
    cases hg
    simp only [Accepts, Instr.wf, gateOperandsOk, Bool.and_eq_true] at ha
    exact gateCall_ok (by simpa [Gate.arityOk] using ha.1) ha.2 hv
  | xorGate o =>
    cases hg
    simp only [Accepts, Instr.wf, gateOperandsOk, Bool.and_eq_true] at ha
    exact gateCall_ok (by simpa [Gate.arityOk] using ha.1) ha.2 hv
  | xnorGate o =>
    cases hg
    simp only [Accepts, Instr.wf, gateOperandsOk, Bool.and_eq_true] at ha
    exact gateCall_ok (by simpa [Gate.arityOk] using ha.1) ha.2 hv
  | _ => cases hg

theorem exec_halfAdd_ok {a b : Symbols} (ha : Accepts s (.halfAdd a b) = true)
    (hv : AllSymbolsValid (Instr.halfAdd a b).operands) :
    exec (.halfAdd a b) s =
      .next (s.returns [knownBits [(halfAdder (bitOf a) (bitOf b)).1], knownBits [(halfAdder (bitOf a) (bitOf b)).2]]) := by
  exact callFront_ok rfl (by simpa [Accepts, Instr.wf] using ha) hv

theorem exec_fullAdd_ok {a b c : Symbols} (ha : Accepts s (.fullAdd a b c) = true)
    (hv : AllSymbolsValid (Instr.fullAdd a b c).operands) :
    exec (.fullAdd a b c) s =
      .next (s.returns [knownBits [(fullAdder (bitOf a) (bitOf b) (bitOf c)).1],
        knownBits [(fullAdder (bitOf a) (bitOf b) (bitOf c)).2]]) := by
  exact callFront_ok rfl (by simpa [Accepts, Instr.wf, and_assoc] using ha) hv

theorem exec_add_ok {a b : Symbols} (ha : Accepts s (.add a b) = true)
    (hv : AllSymbolsValid (Instr.add a b).operands) :
    exec (.add a b) s = .next (s.returns [knownBits (addVec (bitsOf a) (bitsOf b))]) := by
  exact callFront_ok rfl (by simpa [Accepts, Instr.wf] using ha) hv

theorem exec_addFixed_ok {n : Nat} {a b : Symbols} (ha : Accepts s (.addFixed n a b) = true)
    (hv : AllSymbolsValid (Instr.addFixed n a b).operands) :
    exec (.addFixed n a b) s =
      .next (s.returns [knownBits (addFixedVec n (bitsOf a) (bitsOf b)).1,
        knownBits [(addFixedVec n (bitsOf a) (bitsOf b)).2.1], knownBits [(addFixedVec n (bitsOf a) (bitsOf b)).2.2]]) := by
  simp only [Accepts, Instr.wf, Bool.and_eq_true, decide_eq_true_eq] at ha
  exact callFront_ok (by simp [ha.1.1]) (by simp [ha]) hv

theorem exec_twoComplement_ok {x : Symbols} (ha : Accepts s (.twoComplement x) = true)
    (hv : AllSymbolsValid (Instr.twoComplement x).operands) :
    exec (.twoComplement x) s = .next (s.returns [knownBits (twoComplementVec (bitsOf x))]) := by
  exact callFront_ok rfl (by simpa [Accepts, Instr.wf] using ha) hv

theorem exec_eqCompare_ok {a b : Symbols} (ha : Accepts s (.eqCompare a b) = true)
    (hv : AllSymbolsValid (Instr.eqCompare a b).operands) :
    exec (.eqCompare a b) s = .next (s.returns [knownBits [eqVec (bitsOf a) (bitsOf b)]]) := by
  exact callFront_ok rfl (by simpa [Accepts, Instr.wf] using ha) hv

theorem exec_zeroTest_ok {x : Symbols} (ha : Accepts s (.zeroTest x) = true)
    (hv : AllSymbolsValid (Instr.zeroTest x).operands) :
    exec (.zeroTest x) s = .next (s.returns [knownBits [zeroVec (bitsOf x)]]) := by
  exact callFront_ok rfl (by simpa [Accepts, Instr.wf] using ha) hv

theorem exec_mux_ok {inputs : List Symbols} {sel : Symbols} (ha : Accepts s (.mux inputs sel) = true)
    (hv : AllSymbolsValid (Instr.mux inputs sel).operands) :
    exec (.mux inputs sel) s =
      match (inputs.map bitsOf)[udec (bitsOf sel)]? with
      | none => .next (s.raises none (.selectorOutOfRange (udec (bitsOf sel)) inputs.length))
      | some v => .next (s.returns [knownBits (zext (maxWidth (inputs.map bitsOf)) v)]) := by
  simp only [Accepts, Instr.wf, Bool.and_eq_true, decide_eq_true_eq] at ha
  have h := callFront_ok (inst := none) (s := s)
    (k := match (inputs.map bitsOf)[udec (bitsOf sel)]? with
      | none => .next (s.raises none (.selectorOutOfRange (udec (bitsOf sel)) inputs.length))
      | some v => .next (s.returns [knownBits (zext (maxWidth (inputs.map bitsOf)) v)]))
    (legal := if inputs.length = 0 then some .noInputs else none)
    (ports := (inputs ++ [sel]).map fun x => (Port.any, x))
    (by rw [if_neg]; omega) (by rw [firstMisfit_any]; simp_all)
    (by simpa [Function.comp_def, Instr.operands] using hv)
  rw [← h]
  simp only [exec, execMux, raise, List.length_map] <;> rfl

theorem exec_demux_ok {e sel : Symbols} (ha : Accepts s (.demux e sel) = true)
    (hv : AllSymbolsValid (Instr.demux e sel).operands) :
    exec (.demux e sel) s = .next (s.returns [knownBits (demuxVec s.params.demuxOrder (bitOf e) (bitsOf sel))]) := by
  exact callFront_ok rfl (by simpa [Accepts, Instr.wf] using ha) hv

theorem exec_testGate_ok {gate : OpName} {g : Gate} {n : Int} {sink : Nat} (hg : gate.gate? = some g)
    (ha : Accepts s (.testGate gate n sink) = true) :
    exec (.testGate gate n sink) s =
      .next ((s.deliver (gateRecords s.params.nary g n.toNat sink)).returns []) := by
  simp only [Accepts, Instr.wf, hg] at ha
  simp only [exec, execTestGate, hg, ha, if_true]

theorem exec_testGate_noGate {gate : OpName} {n : Int} {sink : Nat} (hg : gate.gate? = none) :
    exec (.testGate gate n sink) s = .next (s.raises none (.unsupportedOperation gate)) := by
  simp only [exec, execTestGate, hg, raise]

/-! The sequential calls: the component is there, and the call is its synchronous or asynchronous path. -/

theorem seqFront_accepted {inst : Nat} {kind : SeqKind} (h : seqWidth s inst kind ≠ 0) :
    ∃ x, s.inst? inst = some (.seq x) ∧ x.kind = kind ∧ seqWidth s inst kind = x.q.length := by
  unfold seqWidth at h ⊢
  split at h
  · next x hx =>
    split_ifs at h with hk
    · exact ⟨x, hx, hk, by simp [hk]⟩
    · exact absurd rfl h
  · exact absurd rfl h

theorem exec_dff_ok {inst : Nat} {d clk : Symbols} (ha : Accepts s (.dff inst d clk) = true)
    (hv : AllSymbolsValid (Instr.dff inst d clk).operands) :
    ∃ x, s.inst? inst = some (.seq x) ∧ x.kind = .dff ∧ fitsPort x.q.length d = true ∧
      exec (.dff inst d clk) s =
        seqSync inst x (bitOf clk) (.ok (knownBits (zext x.q.length (bitsOf d)))) s := by
  simp only [Accepts, Bool.and_eq_true] at ha
  have hp := fitsPort_pos ha.1
  obtain ⟨x, hx, hk, hw⟩ := seqFront_accepted (s := s) (inst := inst) (kind := .dff) (by omega)
  rw [hw] at ha hp
  exact ⟨x, hx, hk, ha.1,
    seqFront_ok (ports := fun n => [(.upTo n, d), (.bit, clk)]) hx hk (by omega) (by simp [ha]) hv⟩

theorem exec_register_ok {inst : Nat} {d clk : Symbols} (ha : Accepts s (.register inst d clk) = true)
    (hv : AllSymbolsValid (Instr.register inst d clk).operands) :
    ∃ x, s.inst? inst = some (.seq x) ∧ x.kind = .register ∧ fitsPort x.q.length d = true ∧
      exec (.register inst d clk) s =
        seqSync inst x (bitOf clk) (.ok (knownBits (zext x.q.length (bitsOf d)))) s := by
  simp only [Accepts, Bool.and_eq_true] at ha
  have hp := fitsPort_pos ha.1
  obtain ⟨x, hx, hk, hw⟩ := seqFront_accepted (s := s) (inst := inst) (kind := .register) (by omega)
  rw [hw] at ha hp
  exact ⟨x, hx, hk, ha.1,
    seqFront_ok (ports := fun n => [(.upTo n, d), (.bit, clk)]) hx hk (by omega) (by simp [ha]) hv⟩

theorem exec_dffSc_ok {inst : Nat} {d set clr clk : Symbols} (ha : Accepts s (.dffSc inst d set clr clk) = true)
    (hv : AllSymbolsValid (Instr.dffSc inst d set clr clk).operands) :
    ∃ x, s.inst? inst = some (.seq x) ∧ x.kind = .dffSc ∧ fitsPort x.q.length d = true ∧
      exec (.dffSc inst d set clr clk) s =
        if bitOf set && bitOf clr then .next (s.raises (some inst) .asyncSetClearConflict)
        else if bitOf set then seqDone inst x (List.replicate x.q.length (.known true)) (bitOf clk) s
        else if bitOf clr then seqDone inst x (List.replicate x.q.length (.known false)) (bitOf clk) s
        else seqSync inst x (bitOf clk) (.ok (knownBits (zext x.q.length (bitsOf d)))) s := by
  simp only [Accepts, Bool.and_eq_true] at ha
  have hp := fitsPort_pos ha.1.1.1
  obtain ⟨x, hx, hk, hw⟩ := seqFront_accepted (s := s) (inst := inst) (kind := .dffSc) (by omega)
  rw [hw] at ha hp
  exact ⟨x, hx, hk, ha.1.1.1,
    seqFront_ok (ports := fun n => [(.upTo n, d), (.bit, set), (.bit, clr), (.bit, clk)]) hx hk (by omega) (by simp [ha]) hv⟩

theorem exec_srFf_ok {inst : Nat} {a r clk : Symbols} (ha : Accepts s (.srFf inst a r clk) = true)
    (hv : AllSymbolsValid (Instr.srFf inst a r clk).operands) :
    ∃ x, s.inst? inst = some (.seq x) ∧ x.kind = .sr ∧ fitsPort x.q.length a = true ∧ fitsPort x.q.length r = true ∧
      exec (.srFf inst a r clk) s =
        seqSync inst x (bitOf clk) (srEdge x.q (zext x.q.length (bitsOf a)) (zext x.q.length (bitsOf r))) s := by
  simp only [Accepts, Bool.and_eq_true] at ha
  have hp := fitsPort_pos ha.1.1
  obtain ⟨x, hx, hk, hw⟩ := seqFront_accepted (s := s) (inst := inst) (kind := .sr) (by omega)
  rw [hw] at ha hp
  exact ⟨x, hx, hk, ha.1.1, ha.1.2,
    seqFront_ok (ports := fun n => [(.upTo n, a), (.upTo n, r), (.bit, clk)]) hx hk (by omega) (by simp [ha]) hv⟩

theorem exec_jkFf_ok {inst : Nat} {j k clk : Symbols} (ha : Accepts s (.jkFf inst j k clk) = true)
    (hv : AllSymbolsValid (Instr.jkFf inst j k clk).operands) :
    ∃ x, s.inst? inst = some (.seq x) ∧ x.kind = .jk ∧ fitsPort x.q.length j = true ∧ fitsPort x.q.length k = true ∧
      exec (.jkFf inst j k clk) s =
        seqSync inst x (bitOf clk)
          (.ok (eachBit jkNext x.q (zext x.q.length (bitsOf j)) (zext x.q.length (bitsOf k)))) s := by
  simp only [Accepts, Bool.and_eq_true] at ha
  have hp := fitsPort_pos ha.1.1
  obtain ⟨x, hx, hk, hw⟩ := seqFront_accepted (s := s) (inst := inst) (kind := .jk) (by omega)
  rw [hw] at ha hp
  exact ⟨x, hx, hk, ha.1.1, ha.1.2,
    seqFront_ok (ports := fun n => [(.upTo n, j), (.upTo n, k), (.bit, clk)]) hx hk (by omega) (by simp [ha]) hv⟩

theorem exec_ram1r_ok {inst : Nat} {address dataIn write clk : Symbols}
    (ha : Accepts s (.ram1r inst address dataIn write clk) = true)
    (hv : AllSymbolsValid (Instr.ram1r inst address dataIn write clk).operands) :
    ∃ x, s.inst? inst = some (.ram x) ∧ ramLegal x.rowCount x.addrW x.w = true ∧
      fitsPort x.addrW address = true ∧ fitsPort x.w dataIn = true ∧
      exec (.ram1r inst address dataIn write clk) s =
        (if x.rowCount ≤ udec (bitsOf address) then
          .next (s.raises (some inst) (.addressOutOfRange (udec (bitsOf address))))
        else if bitOf write && edgeOf x.prev (bitOf clk) == .unknown then
          .next (s.raises (some inst) .uninitialisedClock)
        else
          .next ((s.setInst inst
              (.ram (ramNext x (zext x.addrW (bitsOf address)) (bitsOf dataIn) (bitOf write) (bitOf clk)))).returns
            [ramOut (ramNext x (zext x.addrW (bitsOf address)) (bitsOf dataIn) (bitOf write) (bitOf clk))])) := by
  simp only [Accepts] at ha
  rcases hr : legalRam? s inst with - | x
  · simp [hr] at ha
  · obtain ⟨hx, hl⟩ := legalRam?_eq.1 hr
    simp only [hr, Bool.and_eq_true] at ha
    refine ⟨x, hx, hl, ha.1.1.1, ha.1.1.2, ?_⟩
    have h := ramFront_ok (s := s) (inst := inst) (x := x)
      (ports := fun x => [(.upTo x.addrW, address), (.upTo x.w, dataIn), (.bit, write), (.bit, clk)])
      (k := fun x =>
        let a := zext x.addrW (bitsOf address)
        if x.rowCount ≤ udec a then raise s (some inst) (.addressOutOfRange (udec a))
        else if bitOf write && edgeOf x.prev (bitOf clk) == .unknown then raise s (some inst) .uninitialisedClock
        else
          let x' := ramNext x a (bitsOf dataIn) (bitOf write) (bitOf clk)
          .next ((s.setInst inst (.ram x')).returns [ramOut x'])) hx hl (by simp [ha]) hv
    simpa only [udec_zext, raise, exec, execRam1r] using h

end Sys2Proof.Machine
end

