-- ==== Sys2Proof/Laws/Effect.lean ====
section
/-! SUPPORT. What a step can do, said once: the shapes a next state of `exec`, of a host operation and of `step` can
have, every invariant being a case analysis over them. -/

namespace Sys2Proof.Machine

/-- Whether an instruction is a TEST_GATE, the one call that delivers to the sink. -/
def delivers : Instr → Bool
  | .testGate _ _ _ => true
  | _ => false

/-- The shapes of a next state of a call on the component `k`; `g` says whether it may deliver to the sink. -/
inductive Effect (s : State) (g : Bool) : Option Nat → State → Prop where
  /-- an error is recorded, nothing else -/
  | raised (k : Option Nat) (e : Error) (he : e.raisable = true) : Effect s g k (s.raises k e)
  /-- a combinational call returns, TEST_GATE delivers -/
  | returned (rs : List SinkRecord) (outs : List HeldBits) (hg : g = false → rs = []) :
      Effect s g none ((s.deliver rs).returns outs)
  /-- a flip-flop or register takes a new output of its width and the clock level -/
  | seq (inst : Nat) (x : SeqInst) (q : HeldBits) (c : Bit) (hx : s.inst? inst = some (.seq x))
      (hq : q.length = x.q.length) :
      Effect s g (some inst)
        ((s.setInst inst (.seq { x with q := q, prev := .known c })).returns [q, notq q])
  /-- a RAM takes the address, the clock level, and on a write edge a row -/
  | ram (inst : Nat) (x : RamInst) (a d : BitVector) (w c : Bit) (hx : s.inst? inst = some (.ram x))
      (hl : ramLegal x.rowCount x.addrW x.w = true) (ha : a.length = x.addrW) (hr : udec a < x.rowCount)
      (hd : d.length ≤ x.w) :
      Effect s g (some inst) ((s.setInst inst (.ram (ramNext x a d w c))).returns [ramOut (ramNext x a d w c)])

theorem eachBit_length {f : Held Bit → Bit → Bit → Held Bit} {q : HeldBits} {a b : BitVector}
    (ha : a.length = q.length) (hb : b.length = q.length) : (eachBit f q a b).length = q.length := by
  induction q generalizing a b with
  | nil => simp [eachBit]
  | cons h q ih =>
    cases a with
    | nil => simp at ha
    | cons x a =>
      cases b with
      | nil => simp at hb
      | cons y b => simp [eachBit, ih (a := a) (b := b) (by simpa using ha) (by simpa using hb)]

theorem seqDone_effect {s : State} {g : Bool} {inst : Nat} {x : SeqInst} {q : HeldBits} {c : Bit} {t : State}
    (hx : s.inst? inst = some (.seq x)) (hq : q.length = x.q.length) (h : seqDone inst x q c s = .next t) :
    Effect s g (some inst) t := by
  cases h; exact .seq inst x q c hx hq

theorem seqSync_effect {s : State} {g : Bool} {inst : Nat} {x : SeqInst} {c : Bit} {n : Except Error HeldBits} {t : State}
    (hx : s.inst? inst = some (.seq x)) (hq : ∀ q, n = .ok q → q.length = x.q.length)
    (he : ∀ e, n = .error e → e.raisable = true) (h : seqSync inst x c n s = .next t) :
    Effect s g (some inst) t := by
  unfold seqSync at h
  split at h
  · cases h; exact .raised _ _ rfl
  · exact seqDone_effect hx rfl h
  · split at h
    · next e => cases h; exact .raised _ _ (he e rfl)
    · next q => exact seqDone_effect hx (hq q rfl) h

theorem invalidBitSymbol_raisable {k : Nat} {ops : List Symbols} {e : Error} (h : badOperandFrom k ops = some e) :
    e.raisable = true := by
  obtain ⟨j, p, c, rfl, -⟩ := badOperandFrom_isInvalid h
  rfl

theorem zext_bits_length {n : Nat} {x : Symbols} (h : fitsPort n x = true) : (zext n (bitsOf x)).length = n :=
  zext_length (fitsPort_le h)

/-- Every next state of `exec` has one of the shapes of `Effect`. -/
theorem exec_effect {i : Instr} {s t : State} (h : exec i s = .next t) : Effect s (delivers i) i.inst? t := by
  by_cases hA : Accepts s i = true
  swap
  · obtain ⟨r, hr⟩ := exec_refused (by simpa using hA)
    rw [hr] at h; cases h
  rcases hb : badOperandFrom 0 i.operands with - | e
  swap
  · rw [exec_badSymbol hA hb] at h
    cases h; exact .raised _ _ (invalidBitSymbol_raisable hb)
  have hv := (badOperandFrom_none 0 _).1 hb
  have pure : ∀ outs, exec i s = .next (s.returns outs) → i.inst? = none → Effect s (delivers i) i.inst? t := by
    intro outs ho hi
    rw [ho] at h; cases h
    have e := Effect.returned (s := s) (g := delivers i) [] outs fun _ => rfl
    rw [State.deliver_nil] at e
    rw [hi]; exact e
  cases i with
  | andGate ops => exact pure _ (exec_gate_ok rfl hA hv) rfl
  | orGate ops => exact pure _ (exec_gate_ok rfl hA hv) rfl
  | notGate x => exact pure _ (exec_gate_ok rfl hA hv) rfl
  | nandGate ops => exact pure _ (exec_gate_ok rfl hA hv) rfl
  | norGate ops => exact pure _ (exec_gate_ok rfl hA hv) rfl
  | xorGate ops => exact pure _ (exec_gate_ok rfl hA hv) rfl
  | xnorGate ops => exact pure _ (exec_gate_ok rfl hA hv) rfl
  | halfAdd a b => exact pure _ (exec_halfAdd_ok hA hv) rfl
  | fullAdd a b c => exact pure _ (exec_fullAdd_ok hA hv) rfl
  | add a b => exact pure _ (exec_add_ok hA hv) rfl
  | addFixed n a b => exact pure _ (exec_addFixed_ok hA hv) rfl
  | twoComplement x => exact pure _ (exec_twoComplement_ok hA hv) rfl
  | eqCompare a b => exact pure _ (exec_eqCompare_ok hA hv) rfl
  | zeroTest x => exact pure _ (exec_zeroTest_ok hA hv) rfl
  | demux e sel => exact pure _ (exec_demux_ok hA hv) rfl
  | mux inputs sel =>
    have e := exec_mux_ok hA hv
    split at e
    · rw [e] at h; cases h; exact .raised _ _ rfl
    · exact pure _ e rfl
  | testGate g n sink =>
    rcases hg : g.gate? with - | gt
    · rw [exec_testGate_noGate hg] at h; cases h; exact .raised _ _ rfl
    · rw [exec_testGate_ok hg hA] at h; cases h; exact .returned _ _ (by simp [delivers])
  | dff inst d clk =>
    obtain ⟨x, hx, -, hd, e⟩ := exec_dff_ok hA hv
    rw [e] at h
    refine seqSync_effect hx ?_ (by simp) h
    rintro q ⟨⟩; simp [zext_bits_length hd]
  | register inst d clk =>
    obtain ⟨x, hx, -, hd, e⟩ := exec_register_ok hA hv
    rw [e] at h
    refine seqSync_effect hx ?_ (by simp) h
    rintro q ⟨⟩; simp [zext_bits_length hd]
  | dffSc inst d set clr clk =>
    obtain ⟨x, hx, -, hd, e⟩ := exec_dffSc_ok hA hv
    rw [e] at h
    split_ifs at h
    · cases h; exact .raised _ _ rfl
    · exact seqDone_effect hx (by simp) h
    · exact seqDone_effect hx (by simp) h
    · refine seqSync_effect hx ?_ (by simp) h
      rintro q ⟨⟩; simp [zext_bits_length hd]
  | srFf inst a r clk =>
    obtain ⟨x, hx, -, ha, hr, e⟩ := exec_srFf_ok hA hv
    rw [e] at h
    refine seqSync_effect hx ?_ ?_ h
    · intro q hq
      unfold srEdge at hq
      split at hq
      · cases hq
      · cases hq; exact eachBit_length (zext_bits_length ha) (zext_bits_length hr)
    · intro er hq
      unfold srEdge at hq
      split at hq
      · cases hq; rfl
      · cases hq
  | jkFf inst j k clk =>
    obtain ⟨x, hx, -, ha, hr, e⟩ := exec_jkFf_ok hA hv
    rw [e] at h
    refine seqSync_effect hx ?_ (by simp) h
    rintro q ⟨⟩; exact eachBit_length (zext_bits_length ha) (zext_bits_length hr)
  | ram1r inst address dataIn write clk =>
    obtain ⟨x, hx, hl, ha, hd, e⟩ := exec_ram1r_ok hA hv
    rw [e] at h
    split_ifs at h with h1 h2
    · cases h; exact .raised _ _ rfl
    · cases h; exact .raised _ _ rfl
    · cases h
      exact .ram inst x _ _ _ _ hx hl (zext_bits_length ha) (by simpa using h1) (fitsPort_le hd)

/-! Every accepted call has a next state, and no call stops the machine with a fault. -/

theorem seqSync_next (inst : Nat) (x : SeqInst) (c : Bit) (n : Except Error HeldBits) (s : State) :
    ∃ t, seqSync inst x c n s = .next t := by
  unfold seqSync
  split
  · exact ⟨_, rfl⟩
  · exact ⟨_, rfl⟩
  · split <;> exact ⟨_, rfl⟩

/-- An accepted call has a next state, whatever its symbols and the component's state are. -/
theorem exec_next_of_accepted {i : Instr} {s : State} (hA : Accepts s i = true) : ∃ t, exec i s = .next t := by
  rcases hb : badOperandFrom 0 i.operands with - | e
  swap
  · exact ⟨_, exec_badSymbol hA hb⟩
  have hv := (badOperandFrom_none 0 _).1 hb
  cases i with
  | andGate ops => exact ⟨_, exec_gate_ok rfl hA hv⟩
  | orGate ops => exact ⟨_, exec_gate_ok rfl hA hv⟩
  | notGate x => exact ⟨_, exec_gate_ok rfl hA hv⟩
  | nandGate ops => exact ⟨_, exec_gate_ok rfl hA hv⟩
  | norGate ops => exact ⟨_, exec_gate_ok rfl hA hv⟩
  | xorGate ops => exact ⟨_, exec_gate_ok rfl hA hv⟩
  | xnorGate ops => exact ⟨_, exec_gate_ok rfl hA hv⟩
  | halfAdd a b => exact ⟨_, exec_halfAdd_ok hA hv⟩
  | fullAdd a b c => exact ⟨_, exec_fullAdd_ok hA hv⟩
  | add a b => exact ⟨_, exec_add_ok hA hv⟩
  | addFixed n a b => exact ⟨_, exec_addFixed_ok hA hv⟩
  | twoComplement x => exact ⟨_, exec_twoComplement_ok hA hv⟩
  | eqCompare a b => exact ⟨_, exec_eqCompare_ok hA hv⟩
  | zeroTest x => exact ⟨_, exec_zeroTest_ok hA hv⟩
  | demux e sel => exact ⟨_, exec_demux_ok hA hv⟩
  | mux inputs sel =>
    rw [exec_mux_ok hA hv]
    split <;> exact ⟨_, rfl⟩
  | testGate g n sink =>
    rcases hg : g.gate? with - | gt
    · exact ⟨_, exec_testGate_noGate hg⟩
    · exact ⟨_, exec_testGate_ok hg hA⟩
  | dff inst d clk =>
    obtain ⟨x, -, -, -, e⟩ := exec_dff_ok hA hv
    rw [e]; exact seqSync_next ..
  | register inst d clk =>
    obtain ⟨x, -, -, -, e⟩ := exec_register_ok hA hv
    rw [e]; exact seqSync_next ..
  | dffSc inst d set clr clk =>
    obtain ⟨x, -, -, -, e⟩ := exec_dffSc_ok hA hv
    rw [e]
    split_ifs
    · exact ⟨_, rfl⟩
    · exact ⟨_, rfl⟩
    · exact ⟨_, rfl⟩
    · exact seqSync_next ..
  | srFf inst a r clk =>
    obtain ⟨x, -, -, -, -, e⟩ := exec_srFf_ok hA hv
    rw [e]; exact seqSync_next ..
  | jkFf inst j k clk =>
    obtain ⟨x, -, -, -, -, e⟩ := exec_jkFf_ok hA hv
    rw [e]; exact seqSync_next ..
  | ram1r inst address dataIn write clk =>
    obtain ⟨x, -, -, -, -, e⟩ := exec_ram1r_ok hA hv
    rw [e]
    split_ifs <;> exact ⟨_, rfl⟩

theorem exec_noFault (i : Instr) (s : State) (f : Fault) : exec i s ≠ .fault f := by
  by_cases hA : Accepts s i = true
  · obtain ⟨t, ht⟩ := exec_next_of_accepted hA
    rw [ht]; simp
  · obtain ⟨r, hr⟩ := exec_refused (by simpa using hA)
    rw [hr]; simp

/-! The host's operations. -/

/-- The shapes of a next state of a host operation, the state `s` being the one it is performed in. -/
inductive HostEffect (s : State) : State → Prop where
  /-- a call: issued, then as `Effect` says -/
  | call (g : Bool) (k : Option Nat) (t : State) (he : Effect (s.issueCall k) g k t) : HostEffect s t
  /-- a call is issued and refused -/
  | callRefused (k : Option Nat) (why : IllFormed) : HostEffect s ((s.issueCall k).refuses why)
  /-- a construction or a preload is refused -/
  | refused (why : IllFormed) : HostEffect s (s.refuses why)
  /-- a component comes into being at its reset values -/
  | constructed (inst : Nat) (c : Component) (x : Inst) (hn : s.inst? inst = none) (hx : buildComponent c = some x) :
      HostEffect s (s.setInst inst x)
  /-- RAM rows are preloaded -/
  | preloaded (inst : Nat) (x : RamInst) (rows : List (Nat × Symbols)) (hx : s.inst? inst = some (.ram x))
      (hr : ∀ p ∈ rows, p.1 < x.rowCount) (hw : ∀ p ∈ rows, (bitsOf p.2).length ≤ x.w) :
      HostEffect s (s.setInst inst (.ram { x with mem := preloadRows x.w x.mem rows }))
  /-- a preload or a read faults -/
  | raised (k : Option Nat) (e : Error) (he : e.raisable = true) : HostEffect s (s.raises k e)
  /-- a read is answered -/
  | readAnswered (v : BitVector) : HostEffect s (s.answersRead v)

theorem unsupportedCall_effect {g : Bool} {op : OpName} {ops : List Symbols} {s t : State}
    (h : unsupportedCall op ops s = .next t) : Effect s g none t := by
  unfold unsupportedCall at h
  split_ifs at h
  · cases h
  · cases h; exact .raised _ _ rfl

theorem runCall_effect {c : Call} {s t : State} (h : runCall c s = .next t) : HostEffect s t := by
  rcases recordRefusal_cases h with h | ⟨why, -, rfl⟩
  swap
  · exact .callRefused _ why
  unfold execCall at h
  split at h
  · next i hi =>
    rw [Call.target?_of_decode hi] at h
    exact .call _ _ t (exec_effect h)
  · next op hop =>
    rw [Call.target?_of_unsupported hop] at h
    exact .call false none t (unsupportedCall_effect h)
  · cases h

theorem badRow_none {n : Nat} {rows : List (Nat × Symbols)} (h : badRow n rows = none) : ∀ p ∈ rows, p.1 < n := by
  induction rows with
  | nil => simp
  | cons p r ih =>
    obtain ⟨j, v⟩ := p
    simp only [badRow] at h
    split_ifs at h with hj
    simp only [List.forall_mem_cons]
    exact ⟨by simpa using hj, ih h⟩

theorem badRow_raisable {n : Nat} {rows : List (Nat × Symbols)} {e : Error} (h : badRow n rows = some e) :
    e.raisable = true := by
  induction rows with
  | nil => simp [badRow] at h
  | cons p r ih =>
    obtain ⟨j, v⟩ := p
    simp only [badRow] at h
    split_ifs at h with hj
    · cases h; rfl
    · exact ih h

theorem runPreload_effect {inst : Nat} {rows : List (Nat × Symbols)} {s t : State}
    (h : runPreload inst rows s = .next t) : HostEffect s t := by
  unfold runPreload at h
  split_ifs at h with hb
  rcases recordRefusal_cases h with h | ⟨why, -, rfl⟩
  swap
  · exact .refused why
  unfold setRows at h
  rcases ramFront_cases inst (fun x => rows.map fun p => (Port.upTo x.w, p.2)) s _ with ⟨r, hr, -⟩ | ⟨x, hx, he⟩
  · rw [hr] at h; cases h
  · rw [he] at h
    by_cases hm : (if ramLegal x.rowCount x.addrW x.w then none else some IllFormed.badParameter) = none ∧
        firstMisfit (rows.map fun p => (Port.upTo x.w, p.2)) = none
    · rw [callFront_passed hm.1 hm.2] at h
      split at h
      · next e hbad => cases h; exact .raised _ _ (invalidBitSymbol_raisable hbad)
      · have hm2 := (firstMisfit_rows _ _).1 hm.2
        split at h
        · next e hr => cases h; exact .raised _ _ (badRow_raisable hr)
        · next hr =>
          cases h
          exact .preloaded inst x rows hx (badRow_none hr) fun p hp => fitsPort_le (hm2 p hp)
    · obtain ⟨why, hw⟩ := callFront_refused (inst := some inst) (s := s) (k := _) hm
      rw [hw] at h; cases h

/-- Every next state of a host operation has one of the shapes of `HostEffect`. -/
theorem runHostOp_effect {op : HostOp} {s t : State} (h : runHostOp op s = .next t) : HostEffect s t := by
  cases op with
  | construct inst c =>
    simp only [runHostOp, runConstruct] at h
    split at h
    · cases h
    · next hn =>
      split at h
      · cases h; exact .refused _
      · next x hx => cases h; exact .constructed inst c x hn hx
  | preload inst rows => exact runPreload_effect h
  | call c => exact runCall_effect h
  | evaluate n bs =>
    simp only [runHostOp, runEvaluate] at h
    split at h
    · exact runCall_effect h
    · rcases recordRefusal_cases h with h | ⟨why, -, rfl⟩
      · exact .call false none t (unsupportedCall_effect h)
      · exact .callRefused none why
  | read inst o =>
    simp only [runHostOp, runRead] at h
    split at h
    · cases h
    · split at h
      · cases h
      · split at h
        · cases h; exact .raised _ _ rfl
        · cases h; exact .readAnswered _

/-- Every next state of `step`: the host's next operation is taken off, and then as `HostEffect` says. -/
theorem step_effect {s t : State} (h : step s = .next t) :
    ∃ op rest, s.pending = op :: rest ∧ HostEffect { s with pending := rest } t := by
  unfold step at h
  split at h
  · cases h
  · next op rest hp => exact ⟨op, rest, hp, runHostOp_effect h⟩

end Sys2Proof.Machine
end

