-- ==== Sys2Proof/Laws/Clocked.lean ====
section
/-! SUPPORT. What a call on a flip-flop, a register or a RAM does to its component, said once: the clock level is
recorded by every completed call (R202), and q moves only on a rising edge or an async line (R211). -/

namespace Sys2Proof.Machine

/-- The shapes of a next state of a sequential or storage call `i` on the component `k` with clock operand `clk`. -/
inductive Clocked (s : State) (i : Instr) (k : Nat) (clk : Symbols) : State → Prop where
  /-- the call faults -/
  | raised (e : Error) : Clocked s i k clk (s.raises (some k) e)
  /-- a flip-flop or register completes -/
  | seq (x : SeqInst) (q : HeldBits) (hx : s.inst? k = some (.seq x)) (hq : q.length = x.q.length)
      (hc : q = x.q ∨ assertsAsync i = true ∨ (bitOf clk = true ∧ x.prev = .known false)) :
      Clocked s i k clk
        ((s.setInst k (.seq { x with q := q, prev := .known (bitOf clk) })).returns [q, notq q])
  /-- a RAM completes -/
  | ram (x : RamInst) (a d : BitVector) (w : Bit) (hx : s.inst? k = some (.ram x)) :
      Clocked s i k clk
        ((s.setInst k (.ram (ramNext x a d w (bitOf clk)))).returns [ramOut (ramNext x a d w (bitOf clk))])

theorem seqSync_clocked {s : State} {i : Instr} {k : Nat} {clk : Symbols} {x : SeqInst} {n : Except Error HeldBits}
    {t : State} (hx : s.inst? k = some (.seq x)) (hq : ∀ q, n = .ok q → q.length = x.q.length)
    (h : seqSync k x (bitOf clk) n s = .next t) : Clocked s i k clk t := by
  unfold seqSync at h
  split at h
  · cases h; exact .raised _
  · cases h; exact .seq x _ hx rfl (.inl rfl)
  · next hedge =>
    split at h
    · cases h; exact .raised _
    · next q =>
      cases h
      refine .seq x q hx (hq q rfl) (.inr (.inr ?_))
      unfold edgeOf at hedge
      split at hedge <;> simp_all

/-- Every next state of a sequential or storage call has one of the shapes of `Clocked`. -/
theorem exec_clocked {i : Instr} {s t : State} {k : Nat} {clk : Symbols} (h : exec i s = .next t)
    (hi : i.inst? = some k) (hc : clockOf i = some clk) : Clocked s i k clk t := by
  by_cases hA : Accepts s i = true
  swap
  · obtain ⟨r, hr⟩ := exec_refused (by simpa using hA)
    rw [hr] at h; cases h
  rcases hb : badOperandFrom 0 i.operands with - | e
  swap
  · rw [exec_badSymbol hA hb, hi] at h
    cases h; exact .raised _
  have hv := (badOperandFrom_none 0 _).1 hb
  cases i with
  | dff inst d c =>
    cases hi; cases hc
    obtain ⟨x, hx, -, hd, e⟩ := exec_dff_ok hA hv
    rw [e] at h
    exact seqSync_clocked hx (by rintro q ⟨⟩; simp [zext_bits_length hd]) h
  | register inst d c =>
    cases hi; cases hc
    obtain ⟨x, hx, -, hd, e⟩ := exec_register_ok hA hv
    rw [e] at h
    exact seqSync_clocked hx (by rintro q ⟨⟩; simp [zext_bits_length hd]) h
  | dffSc inst d set clr c =>
    cases hi; cases hc
    obtain ⟨x, hx, -, hd, e⟩ := exec_dffSc_ok hA hv
    rw [e] at h
    split_ifs at h with h1 h2 h3
    · cases h; exact .raised _
    · cases h; exact .seq x _ hx (by simp) (.inr (.inl (by simp [assertsAsync, h2])))
    · cases h; exact .seq x _ hx (by simp) (.inr (.inl (by simp [assertsAsync, h3])))
    · exact seqSync_clocked hx (by rintro q ⟨⟩; simp [zext_bits_length hd]) h
  | srFf inst a r c =>
    cases hi; cases hc
    obtain ⟨x, hx, -, ha, hr, e⟩ := exec_srFf_ok hA hv
    rw [e] at h
    refine seqSync_clocked hx (fun q hq => ?_) h
    unfold srEdge at hq
    split at hq
    · cases hq
    · cases hq; exact eachBit_length (zext_bits_length ha) (zext_bits_length hr)
  | jkFf inst a r c =>
    cases hi; cases hc
    obtain ⟨x, hx, -, ha, hr, e⟩ := exec_jkFf_ok hA hv
    rw [e] at h
    exact seqSync_clocked hx (by rintro q ⟨⟩; exact eachBit_length (zext_bits_length ha) (zext_bits_length hr)) h
  | ram1r inst address dataIn write c =>
    cases hi; cases hc
    obtain ⟨x, hx, -, -, -, e⟩ := exec_ram1r_ok hA hv
    rw [e] at h
    split_ifs at h with h1 h2
    · cases h; exact .raised _
    · cases h; exact .raised _
    · cases h; exact .ram x _ _ _ hx
  | _ => cases hi

end Sys2Proof.Machine
end

