-- ==== Sys2Proof/Laws/Gates.lean ====
section
/-! SUPPORT. Gate results bit by bit (R100), and parity. -/

namespace Sys2Proof.Machine

@[simp] theorem gateVec_length (f : List Bit → Bit) (vs : List BitVector) : (gateVec f vs).length = maxWidth vs := by
  simp [gateVec]

/-- Bit i of a gate's result depends only on bit i of each operand (R100). -/
theorem bitAt_gateVec (f : List Bit → Bit) (vs : List BitVector) {i : Nat} (h : i < maxWidth vs) :
    bitAt (gateVec f vs) i = f (vs.map fun v => bitAt v i) := by
  rw [bitAt_eq_getD (by simpa using h), gateVec_length]
  have hj : maxWidth vs - 1 - i < maxWidth vs := by omega
  simp only [gateVec, List.getD_eq_getElem?_getD, List.getElem?_map, List.getElem?_range hj, Option.map_some,
    Option.getD_some]
  congr 1
  apply List.map_congr_left
  intro v hv
  have hl := zext_length (le_maxWidth hv)
  rw [← bitAt_zext (maxWidth vs) v i, bitAt_eq_getD (by omega), hl, List.getD_eq_getElem?_getD]

theorem oddParity_iff (bs : List Bit) : oddParity bs = true ↔ bs.count true % 2 = 1 := by
  induction bs with
  | nil => simp [oddParity]
  | cons b bs ih =>
    simp only [oddParity, List.foldr_cons] at ih ⊢
    cases b
    · simpa using ih
    · simp only [Bool.true_xor, Bool.not_eq_eq_eq_not, Bool.not_true, List.count_cons_self]
      rw [← Bool.not_eq_true, ih]; omega

/-- The left fold of two-input XNOR is even parity of the operands and their number (D4). -/
theorem foldl_xnor (bs : List Bit) (b : Bit) :
    bs.foldl (fun x y => !(x ^^ y)) b = true ↔ (b.toNat + bs.count true + bs.length) % 2 = 1 := by
  induction bs generalizing b with
  | nil => cases b <;> simp
  | cons c bs ih =>
    rw [List.foldl_cons, ih]
    cases b <;> cases c <;> simp <;> omega

end Sys2Proof.Machine
end

