-- ==== Sys2Proof/Laws/PerInstr.lean ====
section
/-! SUPPORT. A property of every instruction as syntax, proved constructor by constructor: a well-formed call has no
operand of width 0 (spec/00_scope.md R13 a, D5). -/

namespace Sys2Proof

theorem ne_nil_of_nonZeroWidth {x : Symbols} (h : nonZeroWidth x = true) : x ≠ [] := by
  rintro rfl
  simp [nonZeroWidth] at h

theorem ne_nil_of_oneBitWide {x : Symbols} (h : oneBitWide x = true) : x ≠ [] := by
  rintro rfl
  simp [oneBitWide] at h

theorem ne_nil_of_fitsPort {n : Nat} {x : Symbols} (h : fitsPort n x = true) : x ≠ [] := by
  rintro rfl
  simp [fitsPort] at h

theorem ne_nil_of_gateOperandsOk {ops : List Symbols} (h : gateOperandsOk ops = true) : ∀ x ∈ ops, x ≠ [] := by
  simp only [gateOperandsOk, Bool.and_eq_true, List.all_eq_true] at h
  exact fun x hx => ne_nil_of_nonZeroWidth (h.2 x hx)

namespace Laws.NoZeroWidthOperand

/-- A well-formed instruction presents no operand of width 0. -/
def Statement (i : Instr) : Prop := i.wf = true → ∀ x ∈ i.operands, x ≠ []

theorem andGate (ops : List Symbols) : Statement (.andGate ops) := ne_nil_of_gateOperandsOk

theorem orGate (ops : List Symbols) : Statement (.orGate ops) := ne_nil_of_gateOperandsOk

theorem notGate (x : Symbols) : Statement (.notGate x) := fun h => by
  simpa [Instr.operands] using ne_nil_of_nonZeroWidth h

theorem nandGate (ops : List Symbols) : Statement (.nandGate ops) := ne_nil_of_gateOperandsOk

theorem norGate (ops : List Symbols) : Statement (.norGate ops) := ne_nil_of_gateOperandsOk

theorem xorGate (ops : List Symbols) : Statement (.xorGate ops) := ne_nil_of_gateOperandsOk

theorem xnorGate (ops : List Symbols) : Statement (.xnorGate ops) := ne_nil_of_gateOperandsOk

theorem halfAdd (a b : Symbols) : Statement (.halfAdd a b) := fun h => by
  simp only [Instr.wf, Bool.and_eq_true] at h
  simp [Instr.operands, ne_nil_of_oneBitWide h.1, ne_nil_of_oneBitWide h.2]

theorem fullAdd (a b cin : Symbols) : Statement (.fullAdd a b cin) := fun h => by
  simp only [Instr.wf, Bool.and_eq_true] at h
  simp [Instr.operands, ne_nil_of_oneBitWide h.1.1, ne_nil_of_oneBitWide h.1.2, ne_nil_of_oneBitWide h.2]

theorem add (a b : Symbols) : Statement (.add a b) := fun h => by
  simp only [Instr.wf, Bool.and_eq_true] at h
  simp [Instr.operands, ne_nil_of_nonZeroWidth h.1, ne_nil_of_nonZeroWidth h.2]

theorem addFixed (n : Nat) (a b : Symbols) : Statement (.addFixed n a b) := fun h => by
  simp only [Instr.wf, Bool.and_eq_true] at h
  simp [Instr.operands, ne_nil_of_fitsPort h.1.2, ne_nil_of_fitsPort h.2]

theorem twoComplement (x : Symbols) : Statement (.twoComplement x) := fun h => by
  simpa [Instr.operands] using ne_nil_of_nonZeroWidth h

theorem eqCompare (a b : Symbols) : Statement (.eqCompare a b) := fun h => by
  simp only [Instr.wf, Bool.and_eq_true] at h
  simp [Instr.operands, ne_nil_of_nonZeroWidth h.1, ne_nil_of_nonZeroWidth h.2]

theorem zeroTest (x : Symbols) : Statement (.zeroTest x) := fun h => by
  simpa [Instr.operands] using ne_nil_of_nonZeroWidth h

theorem mux (inputs : List Symbols) (selector : Symbols) : Statement (.mux inputs selector) := fun h x hx => by
  simp only [Instr.wf, Bool.and_eq_true, List.all_eq_true] at h
  simp only [Instr.operands, List.mem_append, List.mem_singleton] at hx
  rcases hx with hx | rfl
  · exact ne_nil_of_nonZeroWidth (h.1.2 x hx)
  · exact ne_nil_of_nonZeroWidth h.2

theorem demux (enable selector : Symbols) : Statement (.demux enable selector) := fun h => by
  simp only [Instr.wf, Bool.and_eq_true] at h
  simp [Instr.operands, ne_nil_of_oneBitWide h.1, ne_nil_of_nonZeroWidth h.2]

theorem dff (inst : Nat) (d clk : Symbols) : Statement (.dff inst d clk) := fun h => by
  simp only [Instr.wf, Bool.and_eq_true] at h
  simp [Instr.operands, ne_nil_of_nonZeroWidth h.1, ne_nil_of_oneBitWide h.2]

theorem dffSc (inst : Nat) (d set clr clk : Symbols) : Statement (.dffSc inst d set clr clk) := fun h => by
  simp only [Instr.wf, Bool.and_eq_true] at h
  simp [Instr.operands, ne_nil_of_nonZeroWidth h.1.1.1, ne_nil_of_oneBitWide h.1.1.2, ne_nil_of_oneBitWide h.1.2,
    ne_nil_of_oneBitWide h.2]

theorem srFf (inst : Nat) (s r clk : Symbols) : Statement (.srFf inst s r clk) := fun h => by
  simp only [Instr.wf, Bool.and_eq_true] at h
  simp [Instr.operands, ne_nil_of_nonZeroWidth h.1.1, ne_nil_of_nonZeroWidth h.1.2, ne_nil_of_oneBitWide h.2]

theorem jkFf (inst : Nat) (j k clk : Symbols) : Statement (.jkFf inst j k clk) := fun h => by
  simp only [Instr.wf, Bool.and_eq_true] at h
  simp [Instr.operands, ne_nil_of_nonZeroWidth h.1.1, ne_nil_of_nonZeroWidth h.1.2, ne_nil_of_oneBitWide h.2]

theorem register (inst : Nat) (d clk : Symbols) : Statement (.register inst d clk) := fun h => by
  simp only [Instr.wf, Bool.and_eq_true] at h
  simp [Instr.operands, ne_nil_of_nonZeroWidth h.1, ne_nil_of_oneBitWide h.2]

theorem ram1r (inst : Nat) (address dataIn write clk : Symbols) :
    Statement (.ram1r inst address dataIn write clk) := fun h => by
  simp only [Instr.wf, Bool.and_eq_true] at h
  simp [Instr.operands, ne_nil_of_nonZeroWidth h.1.1.1, ne_nil_of_nonZeroWidth h.1.1.2,
    ne_nil_of_oneBitWide h.1.2, ne_nil_of_oneBitWide h.2]

theorem testGate (gate : OpName) (n : Int) (sink : Nat) : Statement (.testGate gate n sink) := fun _ => by
  simp [Instr.operands]

end Laws.NoZeroWidthOperand

end Sys2Proof
end

