-- ==== Sys2Proof/Laws/Storage.lean ====
section
/-! SUPPORT. Every operation on RAM rows keeps their canonical form: the write of spec/20_memory.md R63, the RAM call
(spec/45_storage.md R250), the preload (R256) and the construction (R300). Reads change nothing. -/

namespace Sys2Proof.Machine

theorem memWrite_wf {x y : RamInst} {a : Nat} {v : BitVector} (h : Memory.wf x.rowCount x.w x.mem)
    (hv : v.length = x.w) (hw : memWrite x a v = .ok y) : Memory.wf y.rowCount y.w y.mem := by
  unfold memWrite at hw
  split_ifs at hw with ha
  cases hw
  exact Memory.write_wf h (by omega) hv

theorem ramNext_mem_wf {x : RamInst} {a d : BitVector} (w c : Bit) (h : Memory.wf x.rowCount x.w x.mem)
    (hr : udec a < x.rowCount) (hd : d.length ≤ x.w) :
    Memory.wf (ramNext x a d w c).rowCount (ramNext x a d w c).w (ramNext x a d w c).mem := by
  simp only [ramNext]
  split_ifs
  · exact Memory.write_wf h hr (zext_length hd)
  · exact h

theorem preloadRows_wf {n w : Nat} {m : Memory} {rows : List (Nat × Symbols)} (h : Memory.wf n w m)
    (hr : ∀ p ∈ rows, p.1 < n) (hw : ∀ p ∈ rows, (bitsOf p.2).length ≤ w) :
    Memory.wf n w (preloadRows w m rows) := by
  induction rows generalizing m with
  | nil => exact h
  | cons p r ih =>
    simp only [List.forall_mem_cons] at hr hw
    exact ih (Memory.write_wf h hr.1 (zext_length hw.1)) hr.2 hw.2

/-- A constructed RAM's rows have the form; no RAM exists at reset, so with this every RAM starts with it. -/
theorem buildComponent_mem_wf {c : Component} {x : RamInst} (h : buildComponent c = some (.ram x)) :
    Memory.wf x.rowCount x.w x.mem := by
  cases c with
  | seq => simp only [buildComponent] at h; split_ifs at h; cases h
  | ram => simp only [buildComponent] at h; split_ifs at h; cases h; exact Memory.wf_nil _ _

/-- Reset constructs nothing, so no component's rows are out of form. -/
theorem reset_mem_wf : ∀ p ∈ State.reset.insts, ∀ x, p.2 = .ram x → Memory.wf x.rowCount x.w x.mem := by
  simp [State.reset]

end Sys2Proof.Machine
end

