-- ==== Sys2Proof/Tests/Slice0.lean ====
section
/-! SUPPORT. Tests by evaluation. Expected values are the vectors of spec/95_test_vectors (L1, L2, L3), the table of
spec/30_encoding.md R83 and the refusals of spec/00_scope.md R13, never the model's own answers. -/

namespace Sys2Proof.Tests

open Sys2Proof.Machine

/-! ## Small states and what is read of a result -/

/-- The operand string of a list of 0 and 1. -/
def sy (l : List Nat) : Symbols := l.map fun n => if n = 1 then '1' else '0'

/-- An output of known bits. -/
def out (l : List Nat) : HeldBits := l.map fun n => .known (n == 1)

/-- `w` bits of `Uninit`. -/
def un (w : Nat) : HeldBits := List.replicate w .uninit

def withInst (x : Inst) : State := { State.reset with insts := [(5, x)] }

def withSeq (kind : SeqKind) (q : HeldBits) (prev : Held Bit) : State := withInst (.seq ⟨kind, q, prev⟩)

/-- A RAM of 3 rows of 2 bits with a 2-bit address (spec/95 L2.9). -/
def ram3 (mem : Memory) (addr : Held BitVector) (prev : Held Bit) : RamInst :=
  { rowCount := 3, addrW := 2, w := 2, mem := mem, addr := addr, prev := prev }

def withRam (mem : Memory) (addr : Held BitVector) (prev : Held Bit) : State := withInst (.ram (ram3 mem addr prev))

def leftFold : State := { State.reset with params := { Params.default with nary := .leftFold } }

def lsbNumber : State := { State.reset with params := { Params.default with demuxOrder := .lsbNumber } }

/-- The last event of a next state. -/
def eventOf : Result → Option Event
  | .next t => t.outcomes.getLast?
  | .fault _ => none
  | .refused _ => none

/-- Component 5 of a next state. -/
def instOf : Result → Option Inst
  | .next t => t.inst? 5
  | .fault _ => none
  | .refused _ => none

def faultsOf : Result → Option (List FaultEntry)
  | .next t => some t.faults
  | .fault _ => none
  | .refused _ => none

def outcomesOf : Result → Option (List Event)
  | .next t => some t.outcomes
  | .fault _ => none
  | .refused _ => none

def calledOf : Result → Option (List Nat)
  | .next t => some t.called
  | .fault _ => none
  | .refused _ => none

def refusalOf : Result → Option Refusal
  | .next _ => none
  | .fault _ => none
  | .refused r => some r

def decoded (c : Call) : Option Instr :=
  match decode c with
  | .ok i => some i
  | .error _ => none

def params0 : CallParams := { n := 4, gate := .sel 0x06#8, numInputs := 2, sink := 9 }

/-- One host operation performed on a state. -/
def doing (op : HostOp) (s : State) : Result := step { s with pending := [op] }

/-! ## Ill-formed calls: one term for each check (R13) -/

theorem test_wf_accepts : (Instr.andGate [sy [1, 0], sy [1]]).wf = true := by decide
theorem test_wf_gate_operand_count : (Instr.andGate [sy [1]]).wf = false := by decide
theorem test_wf_gate_zero_width : (Instr.orGate [[], sy [1]]).wf = false := by decide
theorem test_wf_not_zero_width : (Instr.notGate []).wf = false := by decide
theorem test_wf_half_add_two_bits : (Instr.halfAdd (sy [1, 1]) (sy [1])).wf = false := by decide
theorem test_wf_full_add_two_bits : (Instr.fullAdd (sy [1]) (sy [1]) (sy [1, 0])).wf = false := by decide
theorem test_wf_add_zero_width : (Instr.add [] (sy [1])).wf = false := by decide
theorem test_wf_add_fixed_n_zero : (Instr.addFixed 0 (sy [1]) (sy [1])).wf = false := by decide
theorem test_wf_add_fixed_too_wide : (Instr.addFixed 4 (sy [1, 0, 0, 0, 0]) (sy [0])).wf = false := by decide
theorem test_wf_mux_no_inputs : (Instr.mux [] (sy [0])).wf = false := by decide
theorem test_wf_mux_zero_width_selector : (Instr.mux [sy [0]] []).wf = false := by decide
theorem test_wf_demux_wide_enable : (Instr.demux (sy [1, 1]) (sy [0])).wf = false := by decide
theorem test_wf_wide_clock : (Instr.dff 5 (sy [1]) (sy [1, 1])).wf = false := by decide
theorem test_wf_wide_set : (Instr.dffSc 5 (sy [1]) (sy [1, 1]) (sy [0]) (sy [0])).wf = false := by decide
theorem test_wf_wide_write : (Instr.ram1r 5 (sy [1]) (sy [1]) (sy [1, 1]) (sy [0])).wf = false := by decide
theorem test_wf_test_gate_not_two : (Instr.testGate (.sel 0x03#8) 2 0).wf = false := by decide
theorem test_wf_test_gate_negative : (Instr.testGate (.sel 0x03#8) (-1) 0).wf = false := by decide
theorem test_accepts_register_too_wide :
    Accepts (withSeq .register (un 4) .uninit) (.register 5 (sy [1, 0, 1, 0, 0]) (sy [0])) = false := by decide

/-! ## Decoding: selectors written out from R83 -/

theorem test_decode_gates :
    decoded ⟨0b00000001#8, 0, [sy [1], sy [0]], params0⟩ = some (.andGate [sy [1], sy [0]]) ∧
    decoded ⟨0b00000010#8, 0, [sy [1], sy [0]], params0⟩ = some (.orGate [sy [1], sy [0]]) ∧
    decoded ⟨0b00000011#8, 0, [sy [1]], params0⟩ = some (.notGate (sy [1])) ∧
    decoded ⟨0b00000100#8, 0, [sy [1], sy [0]], params0⟩ = some (.nandGate [sy [1], sy [0]]) ∧
    decoded ⟨0b00000101#8, 0, [sy [1], sy [0]], params0⟩ = some (.norGate [sy [1], sy [0]]) ∧
    decoded ⟨0b00000110#8, 0, [sy [1], sy [0]], params0⟩ = some (.xorGate [sy [1], sy [0]]) ∧
    decoded ⟨0b00000111#8, 0, [sy [1], sy [0]], params0⟩ = some (.xnorGate [sy [1], sy [0]]) := by decide

theorem test_decode_arithmetic :
    decoded ⟨0b00010000#8, 0, [sy [1], sy [0]], params0⟩ = some (.halfAdd (sy [1]) (sy [0])) ∧
    decoded ⟨0b00010001#8, 0, [sy [1], sy [0], sy [1]], params0⟩ = some (.fullAdd (sy [1]) (sy [0]) (sy [1])) ∧
    decoded ⟨0b00010010#8, 0, [sy [1], sy [0]], params0⟩ = some (.add (sy [1]) (sy [0])) ∧
    decoded ⟨0b00010011#8, 0, [sy [1], sy [0]], params0⟩ = some (.addFixed 4 (sy [1]) (sy [0])) ∧
    decoded ⟨0b00010100#8, 0, [sy [1, 0]], params0⟩ = some (.twoComplement (sy [1, 0])) ∧
    decoded ⟨0b00010101#8, 0, [sy [1], sy [0]], params0⟩ = some (.eqCompare (sy [1]) (sy [0])) ∧
    decoded ⟨0b00010110#8, 0, [sy [1]], params0⟩ = some (.zeroTest (sy [1])) := by decide

theorem test_decode_selection :
    decoded ⟨0b00100000#8, 0, [sy [0, 0], sy [0, 1], sy [1, 0], sy [1, 1]], params0⟩ =
      some (.mux [sy [0, 0], sy [0, 1], sy [1, 0]] (sy [1, 1])) ∧
    decoded ⟨0b00100001#8, 0, [sy [1], sy [1, 0]], params0⟩ = some (.demux (sy [1]) (sy [1, 0])) := by decide

theorem test_decode_sequential :
    decoded ⟨0b00110000#8, 5, [sy [1], sy [0]], params0⟩ = some (.dff 5 (sy [1]) (sy [0])) ∧
    decoded ⟨0b00110001#8, 5, [sy [1], sy [0], sy [1], sy [0]], params0⟩ =
      some (.dffSc 5 (sy [1]) (sy [0]) (sy [1]) (sy [0])) ∧
    decoded ⟨0b00110010#8, 5, [sy [1], sy [0], sy [0]], params0⟩ = some (.srFf 5 (sy [1]) (sy [0]) (sy [0])) ∧
    decoded ⟨0b00110011#8, 5, [sy [1], sy [0], sy [0]], params0⟩ = some (.jkFf 5 (sy [1]) (sy [0]) (sy [0])) ∧
    decoded ⟨0b00110100#8, 5, [sy [1, 1], sy [0]], params0⟩ = some (.register 5 (sy [1, 1]) (sy [0])) := by decide

theorem test_decode_storage_and_harness :
    decoded ⟨0b01000000#8, 5, [sy [1, 0], sy [0, 1], sy [1], sy [0]], params0⟩ =
      some (.ram1r 5 (sy [1, 0]) (sy [0, 1]) (sy [1]) (sy [0])) ∧
    decoded ⟨0b01110000#8, 0, [], params0⟩ = some (.testGate (.sel 0x06#8) 2 9) := by decide

theorem test_decode_rejects :
    decoded ⟨0x08#8, 0, [sy [1], sy [1]], params0⟩ = none ∧
    decoded ⟨0x10#8, 0, [sy [1]], params0⟩ = none ∧
    decoded ⟨0x30#8, 5, [sy [1], sy [0], sy [0]], params0⟩ = none := by decide

/-- Every row of the opcode table runs as the next operation after reset. -/
theorem test_table_words_run :
    ∀ o ∈ opcodeTable, (decodeTableWord 8 o.selector.toNat).map Instr.opcode = some o ∧
      (eventOf (step (State.reset.withFetchWord 8 o.selector.toNat))).map Event.refusal? = some none := by decide

/-! ## Bit algebra (spec/95 L2.1) -/

theorem test_and : eventOf (exec (.andGate [sy [1, 1, 0, 0], sy [1, 0, 1, 0]]) State.reset) =
    some (.returned [out [1, 0, 0, 0]]) := by decide
theorem test_and_validates_before_short_circuit : eventOf (exec (.andGate [['1', 'x', '1'], sy [0]]) State.reset) =
    some (.raised (.invalidBitSymbol 0 1 'x')) := by decide
theorem test_or : eventOf (exec (.orGate [sy [1, 0, 0], sy [1]]) State.reset) =
    some (.returned [out [1, 0, 1]]) := by decide
theorem test_or_last_operand_invalid : eventOf (exec (.orGate [sy [1], sy [0], ['2']]) State.reset) =
    some (.raised (.invalidBitSymbol 2 0 '2')) := by decide
theorem test_not : eventOf (exec (.notGate (sy [0, 1, 1, 0])) State.reset) =
    some (.returned [out [1, 0, 0, 1]]) := by decide
theorem test_nand : eventOf (exec (.nandGate [sy [1, 1, 1], sy [1]]) State.reset) =
    some (.returned [out [1, 1, 0]]) := by decide
theorem test_nand_left_fold : eventOf (exec (.nandGate [sy [1], sy [1], sy [1]]) leftFold) =
    some (.returned [out [1]]) := by decide
theorem test_nor : eventOf (exec (.norGate [sy [1, 0, 0], sy [1]]) State.reset) =
    some (.returned [out [0, 1, 0]]) := by decide
theorem test_nor_left_fold : eventOf (exec (.norGate [sy [0], sy [1], sy [0]]) leftFold) =
    some (.returned [out [1]]) := by decide
theorem test_xor : eventOf (exec (.xorGate [sy [1, 1, 1], sy [1]]) State.reset) =
    some (.returned [out [1, 1, 0]]) := by decide
theorem test_xnor : eventOf (exec (.xnorGate [sy [1], sy [1], sy [1]]) State.reset) =
    some (.returned [out [0]]) := by decide
theorem test_xnor_left_fold : eventOf (exec (.xnorGate [sy [1], sy [1], sy [1]]) leftFold) =
    some (.returned [out [1]]) := by decide

/-- The sink gets the patterns in ascending order (spec/95 L2.1, `testGate("not", 1, sink)`). -/
theorem test_test_gate_not : exec (.testGate (.name ['n', 'o', 't']) 1 9) State.reset =
    .next ((State.reset.deliver [⟨9, [[false]], [true]⟩, ⟨9, [[true]], [false]⟩]).returns []) := by rfl
theorem test_test_gate_add : eventOf (exec (.testGate (.name ['a', 'd', 'd']) (-2) 9) State.reset) =
    some (.raised (.unsupportedOperation (.name ['a', 'd', 'd']))) := by decide

theorem test_evaluate_xor : eventOf (doing (.evaluate ['x', 'o', 'r'] [sy [1], sy [0]]) State.reset) =
    some (.returned [out [1]]) := by decide
theorem test_evaluate_uppercase : eventOf (doing (.evaluate ['X', 'O', 'R'] [sy [1], sy [0]]) State.reset) =
    some (.raised (.unsupportedOperation (.name ['X', 'O', 'R']))) := by decide
theorem test_reserved_selector : eventOf (doing (.call ⟨0xFF#8, 0, [['q']], params0⟩) State.reset) =
    some (.raised (.unsupportedOperation (.sel 0xFF#8))) := by decide

/-! ## Arithmetic (spec/95 L2.3 to L2.6) -/

theorem test_half_add : eventOf (exec (.halfAdd (sy [1]) (sy [1])) State.reset) =
    some (.returned [out [0], out [1]]) := by decide
theorem test_full_add : eventOf (exec (.fullAdd (sy [1]) (sy [0]) (sy [1])) State.reset) =
    some (.returned [out [0], out [1]]) := by decide
theorem test_full_add_bad_carry : eventOf (exec (.fullAdd (sy [1]) (sy [1]) ['z']) State.reset) =
    some (.raised (.invalidBitSymbol 2 0 'z')) := by decide
theorem test_add_grows : eventOf (exec (.add (sy [1]) (sy [1, 1, 1, 1])) State.reset) =
    some (.returned [out [1, 0, 0, 0, 0]]) := by decide
theorem test_add_keeps_width : eventOf (exec (.add (sy [0, 0, 1, 1]) (sy [0, 0, 0, 1])) State.reset) =
    some (.returned [out [0, 1, 0, 0]]) := by decide
theorem test_add_fixed_overflows : eventOf (exec (.addFixed 4 (sy [1, 0, 0, 0]) (sy [1, 1, 1, 1])) State.reset) =
    some (.returned [out [0, 1, 1, 1], out [1], out [1]]) := by decide
theorem test_add_fixed_one_bit : eventOf (exec (.addFixed 1 (sy [1]) (sy [1])) State.reset) =
    some (.returned [out [0], out [1], out [1]]) := by decide
theorem test_two_complement_least : eventOf (exec (.twoComplement (sy [1, 0, 0, 0])) State.reset) =
    some (.returned [out [1, 0, 0, 0]]) := by decide
theorem test_two_complement_zero : eventOf (exec (.twoComplement (sy [0, 0, 0, 0])) State.reset) =
    some (.returned [out [0, 0, 0, 0]]) := by decide
theorem test_eq_leading_zeros : eventOf (exec (.eqCompare (sy [0, 0, 1, 1]) (sy [1, 1])) State.reset) =
    some (.returned [out [1]]) := by decide
theorem test_eq_differs : eventOf (exec (.eqCompare (sy [1, 0, 0, 0]) (sy [1])) State.reset) =
    some (.returned [out [0]]) := by decide
theorem test_zero : eventOf (exec (.zeroTest (sy [0, 0, 0, 0])) State.reset) = some (.returned [out [1]]) := by decide
theorem test_zero_last_bit : eventOf (exec (.zeroTest (sy [0, 0, 1])) State.reset) =
    some (.returned [out [0]]) := by decide

/-! ## Selection (spec/95 L2.7) -/

theorem test_mux : eventOf (exec (.mux [sy [0, 0], sy [0, 1], sy [1, 0]] (sy [1, 0])) State.reset) =
    some (.returned [out [1, 0]]) := by decide
theorem test_mux_extends : eventOf (exec (.mux [sy [1], sy [0, 1, 1, 0]] (sy [0])) State.reset) =
    some (.returned [out [0, 0, 0, 1]]) := by decide
theorem test_demux : eventOf (exec (.demux (sy [1]) (sy [1, 0])) State.reset) =
    some (.returned [out [0, 0, 1, 0]]) := by decide
theorem test_demux_lsb_number : eventOf (exec (.demux (sy [1]) (sy [1, 0])) lsbNumber) =
    some (.returned [out [0, 1, 0, 0]]) := by decide

/-! ## Sequential elements (spec/95 L1.6, L1.7, L2.8, L2.10) -/

theorem test_dff_first_call : eventOf (exec (.dff 5 (sy [1]) (sy [0])) (withSeq .dff (un 1) .uninit)) =
    some (.returned [un 1, un 1]) := by decide
theorem test_dff_edge : instOf (exec (.dff 5 (sy [1]) (sy [1])) (withSeq .dff (un 1) (.known false))) =
    some (.seq ⟨.dff, out [1], .known true⟩) := by decide
theorem test_dff_sc_clear : instOf (exec (.dffSc 5 (sy [1]) (sy [0]) (sy [1]) (sy [1]))
    (withSeq .dffSc (un 1) .uninit)) = some (.seq ⟨.dffSc, out [0], .known true⟩) := by decide
theorem test_dff_sc_symbol_first : eventOf (exec (.dffSc 5 ['x'] (sy [1]) (sy [1]) (sy [1]))
    (withSeq .dffSc (un 1) .uninit)) = some (.raised (.invalidBitSymbol 0 0 'x')) := by decide
theorem test_sr_lowest_conflict :
    eventOf (exec (.srFf 5 (sy [0, 1, 1, 0]) (sy [0, 0, 1, 1]) (sy [1]))
      (withSeq .sr (out [0, 0, 0, 0]) (.known false))) = some (.raised (.invalidState 1)) := by decide
theorem test_sr_no_edge_no_error : eventOf (exec (.srFf 5 (sy [1]) (sy [1]) (sy [0]))
    (withSeq .sr (out [1]) (.known true))) = some (.returned [out [1], out [0]]) := by decide
theorem test_jk_toggle : eventOf (exec (.jkFf 5 (sy [1]) (sy [1]) (sy [1])) (withSeq .jk (out [1]) (.known false))) =
    some (.returned [out [0], out [1]]) := by decide
theorem test_jk_toggle_uninit : instOf (exec (.jkFf 5 (sy [1]) (sy [1]) (sy [1]))
    (withSeq .jk (un 1) (.known false))) = some (.seq ⟨.jk, un 1, .known true⟩) := by decide
theorem test_register_extends : eventOf (exec (.register 5 (sy [1, 1]) (sy [1]))
    (withSeq .register (out [1, 0, 1, 0]) (.known false))) =
    some (.returned [out [0, 0, 1, 1], out [1, 1, 0, 0]]) := by decide
theorem test_register_too_wide : refusalOf (exec (.register 5 (sy [1, 0, 1, 0, 0]) (sy [0]))
    (withSeq .register (out [0, 0, 1, 1]) (.known true))) = some (.illFormed .tooWide) := by decide

/-! ## Storage (spec/95 L2.9, L2.10) and the host's operations -/

theorem test_ram_write : instOf (exec (.ram1r 5 (sy [1]) (sy [1, 1]) (sy [1]) (sy [1]))
    (withRam [] (.known [false, true]) (.known false))) =
    some (.ram (ram3 [(1, [true, true])] (.known [false, true]) (.known true))) := by decide
theorem test_ram_range_before_edge : eventOf (exec (.ram1r 5 (sy [1, 1]) (sy [0, 0]) (sy [1]) (sy [1]))
    (withRam [] .uninit .uninit)) = some (.raised (.addressOutOfRange 3)) := by decide
theorem test_construct : instOf (doing (.construct 5 (.seq .register 4 .uninit .uninit)) State.reset) =
    some (.seq ⟨.register, un 4, .uninit⟩) := by decide
theorem test_construct_twice : refusalOf (doing (.construct 5 (.seq .dff 1 .uninit .uninit))
    (withSeq .dff (out [1]) .uninit)) = some (.alreadyConstructed 5) := by decide
theorem test_preload : instOf (doing (.preload 5 [(0, sy [1]), (2, sy [1, 1])]) (withRam [] .uninit .uninit)) =
    some (.ram (ram3 [(0, [false, true]), (2, [true, true])] .uninit .uninit)) := by decide
theorem test_preload_after_call : refusalOf (doing (.preload 5 [(0, sy [1])])
    { withRam [] .uninit .uninit with called := [5] }) = some (.preloadAfterCall 5) := by decide

/-- A first call that faults leaves the address register `Uninit` and is a call all the same (R12, R302). -/
theorem test_faulted_call_is_a_call :
    calledOf (doing (.call ⟨0x40#8, 5, [sy [1, 1], sy [0, 1], sy [1], sy [1]], params0⟩) (withRam [] .uninit .uninit)) =
      some [5] ∧
    instOf (doing (.call ⟨0x40#8, 5, [sy [1, 1], sy [0, 1], sy [1], sy [1]], params0⟩) (withRam [] .uninit .uninit)) =
      some (.ram (ram3 [] .uninit .uninit)) := by decide

/-- A refused call is an outcome, changes no component and does not end the run (R12, R310; spec/95 L2.8, `r4`). -/
theorem test_refused_call_is_recorded :
    eventOf (doing (.call ⟨0x34#8, 5, [sy [1, 0, 1, 0, 0], sy [0]], params0⟩)
      (withSeq .register (out [0, 0, 1, 1]) (.known true))) = some (.refused .tooWide) ∧
    instOf (doing (.call ⟨0x34#8, 5, [sy [1, 0, 1, 0, 0], sy [0]], params0⟩)
      (withSeq .register (out [0, 0, 1, 1]) (.known true))) =
      some (.seq ⟨.register, out [0, 0, 1, 1], .known true⟩) := by decide
theorem test_refused_run_is_not_good : ¬(State.reset.refuses .tooWide).good := by decide
theorem test_construct_illegal_parameter : eventOf (doing (.construct 5 (.ram 3 1 2 .uninit)) State.reset) =
    some (.refused .badParameter) := by decide
theorem test_read_uninit : eventOf (doing (.read 5 .out) (withRam [] (.known [false, true]) (.known false))) =
    some (.raised (.uninitialisedRead 5 .out)) := by decide
theorem test_read_notq : eventOf (doing (.read 5 .notq) (withSeq .jk (out [1]) (.known true))) =
    some (.readValue [false]) := by decide

/-- A fault is recorded with the index of its call and changes no component (spec/95 P4, call 2). -/
theorem test_fault_record : faultsOf (doing (.call ⟨0x32#8, 5, [sy [1], sy [1], sy [1]], params0⟩)
    { withSeq .sr (un 1) (.known false) with calls := 1 }) = some [⟨2, some 5, .invalidState 0⟩] := by decide

/-! ## Witnesses: for each statement of the certificate with hypotheses, a concrete case that meets them together -/

/-- The validity of operands, evaluated. -/
theorem symbols_valid_iff (ops : List Symbols) :
    AllSymbolsValid ops ↔ (ops.all fun x => x.all validSymbol) = true := by
  simp [validSymbol]

theorem chars_valid_iff (x : Symbols) : (∀ c ∈ x, c = '0' ∨ c = '1') ↔ x.all validSymbol = true := by
  simp [validSymbol]

/-- The instruction a call record decodes to, for `decode c = .ok i`. -/
theorem test_meets_EncodeOfDecodeKeepsTheCall :
    decode ⟨0x31#8, 5, [sy [1], sy [0], sy [1], sy [0]], params0⟩ =
      .ok (.dffSc 5 (sy [1]) (sy [0]) (sy [1]) (sy [0])) ∧
    (Instr.dffSc 5 (sy [1]) (sy [0]) (sy [1]) (sy [0])).inst? = some 5 ∧
    decode ⟨0x13#8, 0, [sy [1], sy [0]], params0⟩ = .ok (.addFixed 4 (sy [1]) (sy [0])) ∧
    decode ⟨0x70#8, 0, [], params0⟩ = .ok (.testGate (.sel 0x06#8) 2 9) := ⟨rfl, rfl, rfl, rfl⟩

/-- One operand count just off each format's, one format of each clause. -/
theorem test_meets_EncodeOfDecodeKeepsTheCall_operandCount :
    ∀ c ∈ [(⟨0x03#8, 0, [sy [1], sy [0]], params0⟩ : Call), ⟨0x10#8, 0, [sy [1]], params0⟩,
        ⟨0x32#8, 5, [sy [1], sy [0]], params0⟩, ⟨0x40#8, 5, [sy [1], sy [0], sy [0]], params0⟩, ⟨0x20#8, 0, [], params0⟩,
        ⟨0x70#8, 0, [sy [1]], params0⟩],
      decoded c = none ∧ (Opcode.ofSelector c.op).isSome = true := by decide

/-- Both ends of each reserved range of spec/93 U10. -/
theorem test_meets_ReservedSelectorsAreExactlyTheRest :
    ∀ b ∈ [0x00#8, 0x08#8, 0x0F#8, 0x17#8, 0x1F#8, 0x22#8, 0x2F#8, 0x35#8, 0x3F#8, 0x41#8, 0x6F#8, 0x71#8, 0xFF#8],
      Opcode.ofSelector b = none := by decide

theorem test_meets_UnknownOperationsRaiseAndChangeNothing_call :
    let c : Call := ⟨0x08#8, 0, [sy [1], ['q']], params0⟩
    ({ State.reset with pending := [.call c] } : State).pending = .call c :: [] ∧
      decode c = .error (.unsupported (.sel c.op)) ∧ ∀ x ∈ c.operands, x ≠ [] := ⟨rfl, rfl, by decide⟩

/-- A reserved selector and an unknown name with an operand of width 0. -/
theorem test_meets_UnknownOperationsRaiseAndChangeNothing_zeroWidth :
    eventOf (doing (.call ⟨0xFF#8, 0, [sy [1], []], params0⟩) State.reset) = some (.refused .zeroWidth) ∧
      eventOf (doing (.evaluate ['X', 'O', 'R'] [[], sy [1]]) State.reset) = some (.refused .zeroWidth) := by decide

theorem test_meets_UnknownOperationsRaiseAndChangeNothing_name :
    let n : Symbols := ['X', 'O', 'R']
    ({ State.reset with pending := [.evaluate n [sy [1]]] } : State).pending = .evaluate n [sy [1]] :: [] ∧
      n ∉ [['a', 'n', 'd'], ['o', 'r'], ['n', 'a', 'n', 'd'], ['n', 'o', 'r'], ['x', 'o', 'r'], ['x', 'n', 'o', 'r'],
        ['n', 'o', 't']] ∧ ∀ x ∈ [sy [1]], x ≠ [] := ⟨rfl, by decide, by decide⟩

/-- No gate by selector (just above XNOR) and no gate by name. -/
theorem test_meets_UnknownOperationsRaiseAndChangeNothing_testGate :
    ¬(1 ≤ (0x08#8 : BitVec 8).toNat ∧ (0x08#8 : BitVec 8).toNat ≤ 7) ∧
      (['a', 'd', 'd'] : Symbols) ∉ [['a', 'n', 'd'], ['o', 'r'], ['n', 'a', 'n', 'd'], ['n', 'o', 'r'],
        ['x', 'o', 'r'], ['x', 'n', 'o', 'r'], ['n', 'o', 't']] := by decide

theorem test_meets_StepRunsTheDecodedCall :
    let c : Call := ⟨0x12#8, 0, [sy [1], sy [0]], params0⟩
    ({ State.reset with pending := [.call c] } : State).pending = .call c :: [] ∧
      decode c = .ok (.add (sy [1]) (sy [0])) := ⟨rfl, rfl⟩

/-- NOT with two operands (spec/95 L2.1, `0x03 ["1", "0"]`); a DFF with three marks its component all the same. -/
theorem test_meets_StepRunsTheDecodedCall_operandCount :
    decode ⟨0x03#8, 0, [sy [1], sy [0]], params0⟩ = .error .operandCount ∧
    eventOf (doing (.call ⟨0x03#8, 0, [sy [1], sy [0]], params0⟩) State.reset) = some (.refused .operandCount) ∧
    decode ⟨0x30#8, 5, [sy [1], sy [0], sy [0]], params0⟩ = .error .operandCount ∧
    calledOf (doing (.call ⟨0x30#8, 5, [sy [1], sy [0], sy [0]], params0⟩) (withSeq .dff (un 1) .uninit)) = some [5] :=
  ⟨rfl, by decide, rfl, by decide⟩

/-- A call that `exec` refuses by R13 and one for which D36 gives no move. -/
theorem test_meets_StepRunsTheDecodedCall_refused :
    decode ⟨0x34#8, 5, [sy [1, 0, 1, 0, 0], sy [0]], params0⟩ = .ok (.register 5 (sy [1, 0, 1, 0, 0]) (sy [0])) ∧
    exec (.register 5 (sy [1, 0, 1, 0, 0]) (sy [0])) (State.issueCall (withSeq .register (un 4) .uninit) (some 5)) =
      .refused (.illFormed .tooWide) ∧
    exec (.register 5 (sy [1]) (sy [0])) (State.issueCall State.reset (some 5)) = .refused (.noComponent 5) :=
  ⟨rfl, rfl, rfl⟩

/-- Each gate name, NOT with one operand and with two. -/
theorem test_meets_EvaluateRunsTheNamedGate :
    gateTable.map Gate.name = [['a', 'n', 'd'], ['o', 'r'], ['n', 'o', 't'], ['n', 'a', 'n', 'd'], ['n', 'o', 'r'],
      ['x', 'o', 'r'], ['x', 'n', 'o', 'r']] ∧
    eventOf (doing (.evaluate ['n', 'o', 't'] [sy [1]]) State.reset) = some (.returned [out [0]]) ∧
    eventOf (doing (.evaluate ['n', 'o', 't'] [sy [1], sy [0]]) State.reset) = some (.refused .operandCount) := by
  decide

theorem test_meets_StepFaultsExactlyAtTheEndOfTheRun :
    step State.reset = .fault .endOfRun ∧ State.reset.pending = [] := ⟨rfl, rfl⟩

/-- A refused call and an accepted one. -/
theorem test_meets_RefusedExactlyWhereNotAccepted :
    (∃ r, exec (.andGate [sy [1]]) State.reset = .refused r) ∧ Accepts State.reset (.andGate [sy [1]]) = false ∧
      Accepts State.reset (.andGate [sy [1], sy [0]]) = true := ⟨⟨_, rfl⟩, by decide, by decide⟩

/-- Operand 1, position 1 of `["10", "1x"]`. -/
theorem test_meets_FirstInvalidSymbolIsRaised :
    let i : Instr := .andGate [sy [1, 0], ['1', 'x'], ['y']]
    Accepts State.reset i = true ∧ i.operands[1]? = some ['1', 'x'] ∧ (['1', 'x'] : Symbols)[1]? = some 'x' ∧
      ¬('x' = '0' ∨ 'x' = '1') ∧ AllSymbolsValid (i.operands.take 1) ∧
      ∀ d ∈ (['1', 'x'] : Symbols).take 1, d = '0' ∨ d = '1' := by
  simp only [symbols_valid_iff, chars_valid_iff]
  decide

theorem test_meets_ShortCircuitIsNotObservable :
    let i : Instr := .orGate [sy [1], ['2']]
    Accepts State.reset i = true ∧ ∃ x ∈ i.operands, ∃ c ∈ x, ¬(c = '0' ∨ c = '1') :=
  ⟨by decide, ['2'], by decide, '2', by decide, by decide⟩

/-- A call that faults, with records before it. -/
theorem test_meets_FaultingCallChangesNothing :
    let s : State := { withSeq .sr (un 1) (.known false) with faults := [⟨1, none, .invalidState 3⟩], calls := 2 }
    ∃ t, exec (.srFf 5 (sy [1]) (sy [1]) (sy [1])) s = .next t ∧ t.faults ≠ s.faults := ⟨_, rfl, by decide⟩

/-- A step that faults and one that does not, for the statements about `step s = .next t`. -/
theorem test_meets_FaultRecordOnlyGrows_OnlyTheBlocksErrorsAreRaised_ParametersNeverChange :
    (∃ t, doing (.call ⟨0x32#8, 5, [sy [1], sy [1], sy [1]], params0⟩) (withSeq .sr (un 1) (.known false)) = .next t ∧
      t.faults.length = 1) ∧
    ∃ t, doing (.read 5 .q) (withSeq .sr (out [1]) (.known false)) = .next t ∧ t.faults = [] :=
  ⟨⟨_, rfl, rfl⟩, ⟨_, rfl, rfl⟩⟩

/-- A call that raises each of the errors a call can raise. -/
theorem test_meets_EveryErrorHasItsCause :
    ∀ p ∈ [(Instr.notGate ['q'], State.reset, Error.invalidBitSymbol 0 0 'q'),
        (.srFf 5 (sy [1]) (sy [1]) (sy [1]), withSeq .sr (un 1) (.known false), .invalidState 0),
        (.mux [sy [1]] (sy [1]), State.reset, .selectorOutOfRange 1 1),
        (.testGate (.sel 0x08#8) 2 9, State.reset, .unsupportedOperation (.sel 0x08#8)),
        (.dffSc 5 (sy [0]) (sy [1]) (sy [1]) (sy [0]), withSeq .dffSc (un 1) .uninit, .asyncSetClearConflict),
        (.ram1r 5 (sy [1, 1]) (sy [1]) (sy [0]) (sy [0]), withRam [] .uninit .uninit, .addressOutOfRange 3),
        (.ram1r 5 (sy [1, 0]) (sy [1]) (sy [1]) (sy [1]), withRam [] .uninit .uninit, .uninitialisedClock)],
      outcomesOf (exec p.1 p.2.1) = some (p.2.1.outcomes ++ [.raised p.2.2]) := by decide

/-- A state with a RAM whose row and address are written and with a fault recorded meets the invariant, and steps. -/
theorem test_meets_StepKeepsTheInvariant :
    let s : State :=
      { withRam [(1, [true, true])] (.known [false, true]) (.known false) with
        calls := 3
        called := [5]
        faults := [⟨2, some 5, .addressOutOfRange 3⟩]
        outcomes := [.raised (.addressOutOfRange 3)]
        pending := [.call ⟨0x40#8, 5, [sy [1, 0], sy [0, 1], sy [1], sy [1]], params0⟩] }
    s.Inv ∧ ∃ t, Sys2Proof.Machine.step s = .next t := by
  refine ⟨⟨⟨by decide, ?_⟩, ⟨by decide, by decide, by decide⟩, ⟨by decide, by decide, ?_⟩, by decide⟩, _, rfl⟩
  · intro p hp
    obtain rfl : p = _ := List.mem_singleton.mp hp
    exact ⟨by decide, by decide, by decide⟩
  · intro k x hx _
    obtain ⟨rfl, -⟩ := Prod.mk.inj (List.mem_singleton.mp (State.inst?_mem hx))
    exact List.mem_singleton_self 5

/-- A combinational call in two states of the same parameters. -/
theorem test_meets_CombinationalCallsHoldNoState :
    (Instr.mux [sy [1]] (sy [0])).inst? = none ∧ State.reset.params = (withSeq .dff (un 1) .uninit).params ∧
      ∃ t, exec (.mux [sy [1]] (sy [0])) State.reset = .next t := ⟨rfl, rfl, _, rfl⟩

/-- A call with components other than its own; one on a flip-flop, one on a RAM. -/
theorem test_meets_CallsTouchOnlyTheirOwnComponent_CallsKeepTheComponentsParameters :
    (∃ t, exec (.dff 5 (sy [1]) (sy [1])) ((withSeq .dff (un 1) (.known false)).setInst 6 (.ram (ram3 [] .uninit .uninit)))
      = .next t ∧ (Instr.dff 5 (sy [1]) (sy [1])).inst? ≠ some 6) ∧
    ∃ t, exec (.ram1r 5 (sy [0]) (sy [1]) (sy [1]) (sy [1])) (withRam [] .uninit (.known false)) = .next t :=
  ⟨⟨_, rfl, by decide⟩, _, rfl⟩

/-- Operands of unlike widths, for each gate, under each NARY. -/
theorem test_meets_AndResult_OrResult_XorResult_NandResult_NorResult_XnorResult :
    let ops := [sy [1, 0], sy [1], sy [1, 1]]
    AllSymbolsValid ops ∧ ops = sy [1, 0] :: [sy [1], sy [1, 1]] ∧
      State.reset.params.nary = .standard ∧ leftFold.params.nary = .leftFold ∧
      ∀ s ∈ [State.reset, leftFold], ∀ i ∈ [Instr.andGate ops, .orGate ops, .xorGate ops, .nandGate ops, .norGate ops,
        .xnorGate ops], Accepts s i = true := by
  simp only [symbols_valid_iff]
  decide

theorem test_meets_NotResult :
    Accepts State.reset (.notGate (sy [1, 0])) = true ∧ AllSymbolsValid [sy [1, 0]] := by
  simp only [symbols_valid_iff]
  decide

theorem test_meets_GateLaws :
    let a : BitVector := [true, false]
    let b : BitVector := [true, true]
    let vs := [a, b, b]
    vs ≠ [] ∧ (∀ v ∈ vs, v.length = maxWidth vs) ∧ (∀ g ∈ [Gate.and, .or, .nand, .nor, .xor, .xnor], g ≠ .not) ∧
      a.length = b.length ∧ b.length = b.length := by decide

/-- NOT with its one input, XNOR with the least count; the counts just below, and one below 0, are refused. -/
theorem test_meets_TestGateResult :
    (∀ p ∈ [(OpName.sel 0x03#8, (1 : Int)), (.name ['n', 'o', 't'], 1), (.sel 0x07#8, 2), (.name ['x', 'n', 'o', 'r'], 2)],
      eventOf (exec (.testGate p.1 p.2 9) State.reset) = some (.returned [])) ∧
    ∀ p ∈ [(OpName.sel 0x03#8, (0 : Int)), (.sel 0x03#8, 2), (.sel 0x03#8, -1), (.name ['x', 'n', 'o', 'r'], 1),
        (.name ['o', 'r'], -2)],
      refusalOf (exec (.testGate p.1 p.2 9) State.reset) = some (.illFormed .operandCount) := by decide

theorem test_meets_HalfAddResult_FullAddResult :
    Accepts State.reset (.halfAdd (sy [1]) (sy [0])) = true ∧
      Accepts State.reset (.fullAdd (sy [1]) (sy [0]) (sy [1])) = true ∧
      AllSymbolsValid [sy [1], sy [0], sy [1]] := by
  simp only [symbols_valid_iff]
  decide

/-- The sum that just fits three bits and the one that just does not. -/
theorem test_meets_AddResult :
    Accepts State.reset (.add (sy [1, 0, 1]) (sy [1, 0])) = true ∧ AllSymbolsValid [sy [1, 0, 1], sy [1, 0]] ∧
      udec (bitsOf (sy [1, 0, 1])) + udec (bitsOf (sy [1, 0])) = 2 ^ 3 - 1 ∧
      Accepts State.reset (.add (sy [1, 0, 1]) (sy [1, 1])) = true ∧ AllSymbolsValid [sy [1, 0, 1], sy [1, 1]] ∧
      udec (bitsOf (sy [1, 0, 1])) + udec (bitsOf (sy [1, 1])) = 2 ^ 3 := by
  simp only [symbols_valid_iff]
  decide

/-- The greatest signed sum in range, the least one above it, and the greatest one below the range (spec/95 L2.4). -/
theorem test_meets_AddFixedResult :
    Accepts State.reset (.addFixed 4 (sy [1]) (sy [1, 1, 0])) = true ∧ AllSymbolsValid [sy [1], sy [1, 1, 0]] ∧
      sdec (zext 4 (bitsOf (sy [1]))) + sdec (zext 4 (bitsOf (sy [1, 1, 0]))) = 7 ∧
      Accepts State.reset (.addFixed 4 (sy [1]) (sy [1, 1, 1])) = true ∧ AllSymbolsValid [sy [1], sy [1, 1, 1]] ∧
      sdec (zext 4 (bitsOf (sy [1]))) + sdec (zext 4 (bitsOf (sy [1, 1, 1]))) = 8 ∧
      Accepts State.reset (.addFixed 4 (sy [1, 0, 0, 0]) (sy [1, 1, 1, 1])) = true ∧
      AllSymbolsValid [sy [1, 0, 0, 0], sy [1, 1, 1, 1]] ∧
      sdec (zext 4 (bitsOf (sy [1, 0, 0, 0]))) + sdec (zext 4 (bitsOf (sy [1, 1, 1, 1]))) = -9 := by
  simp only [symbols_valid_iff]
  decide

theorem test_meets_TwoComplementResult_ZeroResult :
    Accepts State.reset (.twoComplement (sy [0, 0])) = true ∧ Accepts State.reset (.zeroTest (sy [0, 0])) = true ∧
      Accepts State.reset (.zeroTest (sy [0, 1])) = true ∧ AllSymbolsValid [sy [0, 0]] ∧
      AllSymbolsValid [sy [0, 1]] := by
  simp only [symbols_valid_iff]
  decide

theorem test_meets_EqResult :
    Accepts State.reset (.eqCompare (sy [0, 1]) (sy [1])) = true ∧ AllSymbolsValid [sy [0, 1], sy [1]] ∧
      udec (bitsOf (sy [0, 1])) = udec (bitsOf (sy [1])) ∧
      Accepts State.reset (.eqCompare (sy [1, 0]) (sy [1])) = true ∧ AllSymbolsValid [sy [1, 0], sy [1]] ∧
      udec (bitsOf (sy [1, 0])) ≠ udec (bitsOf (sy [1])) := by
  simp only [symbols_valid_iff]
  decide

/-- The last input, and the selector value just past it. -/
theorem test_meets_MuxResult_MuxSelectorOutOfRange :
    let inputs := [sy [0, 0], sy [0, 1], sy [1]]
    AllSymbolsValid inputs ∧ Accepts State.reset (.mux inputs (sy [1, 0])) = true ∧ AllSymbolsValid [sy [1, 0]] ∧
      inputs[udec (bitsOf (sy [1, 0]))]? = some (sy [1]) ∧
      Accepts State.reset (.mux inputs (sy [1, 1])) = true ∧ AllSymbolsValid [sy [1, 1]] ∧
      inputs.length ≤ udec (bitsOf (sy [1, 1])) := by
  simp only [symbols_valid_iff]
  decide

theorem test_meets_MuxSelectorOutOfRange_demux :
    ∃ t, exec (.demux (sy [1]) (sy [1, 1])) State.reset = .next t := ⟨_, rfl⟩

/-- The first line and the last, enabled and not, under each DEMUX_ORDER. -/
theorem test_meets_DemuxResult :
    (∀ s ∈ [State.reset, lsbNumber], ∀ e ∈ [sy [0], sy [1]], ∀ sel ∈ [sy [0, 0], sy [1, 1]],
      Accepts s (.demux e sel) = true ∧ AllSymbolsValid [e, sel]) ∧
    State.reset.params.demuxOrder = .stringIndex ∧ lsbNumber.params.demuxOrder = .lsbNumber := by
  simp only [symbols_valid_iff]
  decide

/-- DFF and REGISTER: an edge, a clock held at 1, and a first call with clk = 0. -/
theorem test_meets_DffAndRegisterResult :
    ∀ kind ∈ [SeqKind.dff, .register], ∀ p ∈ [((.known false : Held Bit), sy [1]), (.known true, sy [1]),
        (.uninit, sy [0])],
      (withSeq kind (un 2) p.1).inst? 5 = some (.seq ⟨kind, un 2, p.1⟩) ∧ fitsPort (un 2).length (sy [1]) = true ∧
        oneBitWide p.2 = true ∧ AllSymbolsValid [sy [1], p.2] ∧ (p.1 ≠ .uninit ∨ bitOf p.2 = false) := by
  simp only [symbols_valid_iff]
  decide

/-- DFF_SC: set, clear, an edge, no edge, the asynchronous lines also on a clock level never recorded. -/
theorem test_meets_DffScResult :
    ∀ p ∈ [((.uninit : Held Bit), sy [1], sy [0], sy [1]), (.uninit, sy [0], sy [1], sy [1]),
        (.known false, sy [0], sy [0], sy [1]), (.known true, sy [0], sy [0], sy [1]),
        (.uninit, sy [0], sy [0], sy [0])],
      (withSeq .dffSc (un 2) p.1).inst? 5 = some (.seq ⟨.dffSc, un 2, p.1⟩) ∧
        fitsPort (un 2).length (sy [1]) = true ∧ oneBitWide p.2.1 = true ∧ oneBitWide p.2.2.1 = true ∧
        oneBitWide p.2.2.2 = true ∧ AllSymbolsValid [sy [1], p.2.1, p.2.2.1, p.2.2.2] ∧
        ¬(bitOf p.2.1 = true ∧ bitOf p.2.2.1 = true) ∧
        (bitOf p.2.1 = true ∨ bitOf p.2.2.1 = true ∨ p.1 ≠ .uninit ∨ bitOf p.2.2.2 = false) := by
  simp only [symbols_valid_iff]
  decide

/-- SR_FF: an edge whose bits set, clear and hold, and s = r = 1 without an edge. -/
theorem test_meets_SrResult :
    (let s := sy [1, 0, 0]
     let r := sy [0, 1, 0]
     (withSeq .sr (un 3) (.known false)).inst? 5 = some (.seq ⟨.sr, un 3, .known false⟩) ∧
       fitsPort (un 3).length s = true ∧ fitsPort (un 3).length r = true ∧ oneBitWide (sy [1]) = true ∧
       AllSymbolsValid [s, r, sy [1]] ∧
       ∀ i < (un 3).length, ¬(bitAt (bitsOf s) i = true ∧ bitAt (bitsOf r) i = true)) ∧
    ¬((.known true : Held Bit) = .known false ∧ bitOf (sy [1]) = true) ∧
      fitsPort (un 3).length (sy [1]) = true ∧ (withSeq .sr (un 3) (.known true)).inst? 5 =
        some (.seq ⟨.sr, un 3, .known true⟩) ∧ AllSymbolsValid [sy [1], sy [1], sy [1]] := by
  simp only [symbols_valid_iff]
  decide

/-- JK_FF: an edge whose bits set, clear, toggle and hold, a known and an `Uninit` bit. -/
theorem test_meets_JkResult :
    let j := sy [1, 0, 1, 0]
    let k := sy [0, 1, 1, 0]
    let q : HeldBits := [.uninit, .known true, .known true, .uninit]
    (withSeq .jk q (.known false)).inst? 5 = some (.seq ⟨.jk, q, .known false⟩) ∧ fitsPort q.length j = true ∧
      fitsPort q.length k = true ∧ oneBitWide (sy [1]) = true ∧ AllSymbolsValid [j, k, sy [1]] ∧
      ((.known false : Held Bit) ≠ .uninit ∨ bitOf (sy [1]) = false) ∧ q[q.length - 1 - 1]? = some (.known true) ∧
      bitAt (bitsOf j) 1 = true ∧ bitAt (bitsOf k) 1 = true := by
  simp only [symbols_valid_iff]
  decide

/-- Every clocked operation with clk = 1 on a clock level never recorded; the RAM at its last row. -/
theorem test_meets_UninitialisedClockIsRaised :
    (∀ p ∈ [(SeqKind.dff, Instr.dff 5 (sy [1]) (sy [1])), (.register, .register 5 (sy [1]) (sy [1])),
        (.dffSc, .dffSc 5 (sy [1]) (sy [0]) (sy [0]) (sy [1])), (.sr, .srFf 5 (sy [1]) (sy [1]) (sy [1])),
        (.jk, .jkFf 5 (sy [1]) (sy [1]) (sy [1]))],
      Accepts (withSeq p.1 (un 1) .uninit) p.2 = true ∧ AllSymbolsValid p.2.operands ∧ p.2.inst? = some 5 ∧
        (withSeq p.1 (un 1) .uninit).inst? 5 = some (.seq ⟨p.1, un 1, .uninit⟩) ∧ clockOf p.2 = some (sy [1]) ∧
        bitOf (sy [1]) = true ∧ assertsAsync p.2 = false) ∧
    (let i : Instr := .ram1r 5 (sy [1, 0]) (sy [1]) (sy [1]) (sy [1])
     Accepts (withRam [] .uninit .uninit) i = true ∧ AllSymbolsValid i.operands ∧ i.inst? = some 5 ∧
       clockOf i = some (sy [1]) ∧ assertsAsync i = false ∧ bitOf (sy [1]) = true ∧ udec (bitsOf (sy [1, 0])) = 3 - 1) := by
  simp only [symbols_valid_iff]
  decide

/-- Both lines asserted, with and without the clock. -/
theorem test_meets_AsyncSetClearConflictIsRaised :
    ∀ clk ∈ [sy [0], sy [1]],
      Accepts (withSeq .dffSc (un 1) .uninit) (.dffSc 5 (sy [1]) (sy [1]) (sy [1]) clk) = true ∧
        AllSymbolsValid [sy [1], sy [1], sy [1], clk] ∧ bitOf (sy [1]) = true := by
  simp only [symbols_valid_iff]
  decide

/-- Conflicts at bits 1 and 2: the lowest is 1. -/
theorem test_meets_InvalidStateIsRaised :
    let s := sy [1, 1, 1]
    let r := sy [1, 1, 0]
    (withSeq .sr (un 3) (.known false)).inst? 5 = some (.seq ⟨.sr, un 3, .known false⟩) ∧
      fitsPort (un 3).length s = true ∧ fitsPort (un 3).length r = true ∧ oneBitWide (sy [1]) = true ∧
      AllSymbolsValid [s, r, sy [1]] ∧ bitOf (sy [1]) = true ∧ bitAt (bitsOf s) 1 = true ∧
      bitAt (bitsOf r) 1 = true ∧ ∀ k < 1, ¬(bitAt (bitsOf s) k = true ∧ bitAt (bitsOf r) k = true) := by
  simp only [symbols_valid_iff]
  decide

/-- A call that completes and one that faults, on a component with a clock. -/
theorem test_meets_CompletedCallsRecordTheClock :
    let s := withSeq .sr (out [1]) (.known false)
    (∃ t, exec (.srFf 5 (sy [1]) (sy [0]) (sy [1])) s = .next t ∧ t.faults = s.faults) ∧
      (∃ t, exec (.srFf 5 (sy [1]) (sy [1]) (sy [1])) s = .next t ∧ t.faults ≠ s.faults) ∧
      clockOf (.srFf 5 (sy [1]) (sy [0]) (sy [1])) = some (sy [1]) ∧
      (Instr.srFf 5 (sy [1]) (sy [0]) (sy [1])).inst? = some 5 :=
  ⟨⟨_, rfl, rfl⟩, ⟨_, rfl, by decide⟩, rfl, rfl⟩

/-- A component with one `Uninit` bit and one known. -/
theorem test_meets_ComplementOutputHoldsAtEveryReturn :
    let s := withSeq .jk [.uninit, .known true] (.known false)
    ∃ t, exec (.jkFf 5 (sy [0]) (sy [0]) (sy [1])) s = .next t ∧
      (Instr.jkFf 5 (sy [0]) (sy [0]) (sy [1])).inst? = some 5 ∧
      s.inst? 5 = some (.seq ⟨.jk, [.uninit, .known true], .known false⟩) ∧ t.faults = s.faults :=
  ⟨_, rfl, rfl, rfl, rfl⟩

/-- A call that changes q, and a sequence of calls with the clock held at 1. -/
theorem test_meets_OneUpdatePerRisingEdge :
    (∃ t y, exec (.dff 5 (sy [1]) (sy [1])) (withSeq .dff (out [0]) (.known false)) = .next t ∧
      t.inst? 5 = some (.seq y) ∧ y.q ≠ out [0]) ∧
    (let calls := [Instr.dff 5 (sy [1]) (sy [1]), .notGate (sy [1]), .dff 5 (sy [1]) (sy [1])]
     (∃ t, execAll calls (withSeq .dff (out [0]) (.known true)) = some t) ∧
       ∀ i ∈ calls, i.inst? = some 5 → assertsAsync i = false ∧ clockOf i = some (sy [1])) :=
  ⟨⟨_, _, rfl, rfl, by decide⟩, ⟨_, rfl⟩, by decide⟩

/-- From a recorded 0: a call that changes q, one that sets it asynchronously, and a last one with other data. -/
theorem test_meets_OneUpdatePerRisingEdge_run :
    let s := withSeq .dffSc (out [0]) (.known false)
    let i := Instr.dffSc 5 (sy [1]) (sy [0]) (sy [0]) (sy [1])
    let between := [Instr.dffSc 5 (sy [0]) (sy [1]) (sy [0]) (sy [1])]
    let j := Instr.dffSc 5 (sy [0]) (sy [0]) (sy [0]) (sy [1])
    (∃ s' y s'' t, exec i s = .next s' ∧ execAll between s' = some s'' ∧ exec j s'' = .next t ∧
      s'.inst? 5 = some (.seq y) ∧ y.q ≠ out [0] ∧ s'.faults = s.faults) ∧
      (∀ c ∈ i :: (between ++ [j]), c.inst? = some 5 ∧ clockOf c = some (sy [1])) ∧ bitOf (sy [1]) = true ∧
      assertsAsync j = false :=
  ⟨⟨_, _, _, _, rfl, rfl, rfl, rfl, by decide, rfl⟩, by decide, by decide, by decide⟩

theorem test_meets_AsyncCallConsumesTheEdge :
    let s := withSeq .dffSc (out [1]) (.known false)
    s.inst? 5 = some (.seq ⟨.dffSc, out [1], .known false⟩) ∧
      Accepts s (.dffSc 5 (sy [1]) (sy [0]) (sy [1]) (sy [1])) = true ∧
      AllSymbolsValid [sy [1], sy [0], sy [1], sy [1]] ∧
      Accepts s (.dffSc 5 (sy [1]) (sy [0]) (sy [0]) (sy [1])) = true ∧
      AllSymbolsValid [sy [1], sy [0], sy [0], sy [1]] ∧ bitOf (sy [0]) ≠ bitOf (sy [1]) ∧ bitOf (sy [0]) = false ∧
      bitOf (sy [1]) = true := by
  simp only [symbols_valid_iff]
  decide

/-- The RAM's first row and its last; written and read only. -/
theorem test_meets_RamResult_RamWriteIsReadInTheSameCall_RamCallIsMemWriteThenMemRead :
    ∀ a ∈ [sy [0], sy [1, 0]], ∀ w ∈ [sy [0], sy [1]],
      ramLegal 3 2 2 = true ∧ fitsPort 2 a = true ∧ fitsPort 2 (sy [1]) = true ∧ oneBitWide w = true ∧
        AllSymbolsValid [a, sy [1], w, sy [1]] ∧ udec (bitsOf a) < 3 ∧
        Accepts (withRam [] .uninit (.known false)) (.ram1r 5 a (sy [1]) w (sy [1])) = true ∧
        (withRam [] .uninit (.known false)).inst? 5 = some (.ram (ram3 [] .uninit (.known false))) ∧
        (ram3 [] .uninit (.known false)).prev = .known false ∧ bitOf (sy [1]) = true := by
  simp only [symbols_valid_iff]
  decide

/-- The row just past the last, also on a clock level never recorded. -/
theorem test_meets_RamAddressOutOfRange :
    ∀ prev ∈ [(.uninit : Held Bit), .known false],
      (withRam [] .uninit prev).inst? 5 = some (.ram (ram3 [] .uninit prev)) ∧
        Accepts (withRam [] .uninit prev) (.ram1r 5 (sy [1, 1]) (sy [1]) (sy [1]) (sy [1])) = true ∧
        AllSymbolsValid [sy [1, 1], sy [1], sy [1], sy [1]] ∧
        (ram3 [] .uninit prev).rowCount ≤ udec (bitsOf (sy [1, 1])) := by
  simp only [symbols_valid_iff]
  decide

/-- The least legal components, and the greatest ROWS a 1-bit address allows. -/
theorem test_meets_ConstructedComponentsHoldTheirResetValues :
    let op : HostOp := .construct 5 (.seq .jk 1 .uninit (.known false))
    let op' : HostOp := .construct 5 (.ram 2 1 1 .uninit)
    ({ State.reset with pending := [op] } : State).pending = op :: [] ∧
      ({ State.reset with pending := [op'] } : State).pending = op' :: [] ∧ State.reset.inst? 5 = none ∧
      1 ≤ 2 ∧ 2 ≤ 2 ^ 1 := by decide

/-- A preload of the first row and the last, and one that names the row past the last. -/
theorem test_meets_PreloadSetsTheRowsInListOrder :
    let rows : List (Nat × Symbols) := [(2, sy [1]), (0, sy [1, 1]), (2, sy [0])]
    let bad : List (Nat × Symbols) := [(0, sy [1]), (3, sy [1])]
    let x := ram3 [] .uninit .uninit
    (withRam [] .uninit .uninit).inst? 5 = some (.ram x) ∧ ramLegal x.rowCount x.addrW x.w = true ∧
      5 ∉ (withRam [] .uninit .uninit).called ∧ (∀ p ∈ rows, fitsPort x.w p.2 = true) ∧ AllSymbolsValid (rows.map Prod.snd) ∧
      (∀ p ∈ rows, p.1 < x.rowCount) ∧ (∀ p ∈ bad, fitsPort x.w p.2 = true) ∧ AllSymbolsValid (bad.map Prod.snd) ∧
      ∃ p ∈ bad, x.rowCount ≤ p.1 := by
  simp only [symbols_valid_iff]
  decide

/-- An invalid symbol in the second value, before a row that is out of range; a value too wide, one of width 0. -/
theorem test_meets_PreloadSetsTheRowsInListOrder_otherwise :
    let rows : List (Nat × Symbols) := [(3, sy [1]), (0, ['1', 'x'])]
    (∀ p ∈ rows, fitsPort 2 p.2 = true) ∧ (rows.map Prod.snd)[1]? = some ['1', 'x'] ∧
      AllSymbolsValid ((rows.map Prod.snd).take 1) ∧ (∀ d ∈ (['1', 'x'] : Symbols).take 1, d = '0' ∨ d = '1') ∧
      eventOf (doing (.preload 5 rows) (withRam [] .uninit .uninit)) = some (.raised (.invalidBitSymbol 1 1 'x')) ∧
      eventOf (doing (.preload 5 [(3, sy [1, 0, 1])]) (withRam [] .uninit .uninit)) = some (.refused .tooWide) ∧
      eventOf (doing (.preload 5 [(0, [])]) (withRam [] .uninit .uninit)) = some (.refused .zeroWidth) := by
  simp only [symbols_valid_iff, chars_valid_iff]
  decide

/-- A preload on a RAM that has been called; a call on it that returns, one that faults and one that is refused. -/
theorem test_meets_PreloadIsOnlyBeforeTheFirstCall :
    5 ∈ ({ withRam [] .uninit .uninit with called := [5] } : State).called ∧
    (Instr.ram1r 5 (sy [0]) (sy [1]) (sy [0]) (sy [0])).inst? = some 5 ∧
    ∀ address ∈ [sy [0], sy [1, 1], sy [0, 0, 0]],
      decoded ⟨0x40#8, 5, [address, sy [1], sy [0], sy [0]], params0⟩ =
        some (.ram1r 5 address (sy [1]) (sy [0]) (sy [0])) ∧
      calledOf (doing (.call ⟨0x40#8, 5, [address, sy [1], sy [0], sy [0]], params0⟩) (withRam [] .uninit .uninit)) =
        some [5] := by decide

/-- A RAM call with three operands, and an operation of another kind with one: each is a call on the component. -/
theorem test_meets_PreloadIsOnlyBeforeTheFirstCall_operandCount :
    ((withRam [] .uninit .uninit).inst? 5).isSome = true ∧
    calledOf (doing (.call ⟨0x40#8, 5, [sy [0], sy [1], sy [0]], params0⟩) (withRam [] .uninit .uninit)) = some [5] ∧
    calledOf (doing (.call ⟨0x30#8, 5, [sy [0]], params0⟩) (withRam [] .uninit .uninit)) = some [5] := by decide

/-- Outputs that are known and outputs that hold `Uninit`; a RAM before its first call, at a written row and at an
unwritten one. -/
theorem test_meets_ReadsAnswerTheOutputsAsTheyStand :
    out [1, 0] = knownBits [true, false] ∧ Held.uninit ∈ un 1 ∧
      (withSeq .jk (out [1, 0]) .uninit).inst? 5 = some (.seq ⟨.jk, out [1, 0], .uninit⟩) ∧
      (withSeq .jk (un 1) .uninit).inst? 5 = some (.seq ⟨.jk, un 1, .uninit⟩) ∧
      (let x := ram3 [(1, [true, true])] (.known [false, true]) .uninit
       (withRam [(1, [true, true])] (.known [false, true]) .uninit).inst? 5 = some (.ram x) ∧ 1 ≤ x.w ∧
         x.mem.read (udec [false, true]) = .known [true, true] ∧ x.mem.read (udec [true, false]) = .uninit) ∧
      (ram3 [] .uninit .uninit).addr = .uninit := by decide

end Sys2Proof.Tests
end

/-! SUPPORT. Proofs of the scope family (spec/00_scope.md): the invariant of the state, the frame of every call, the
refusals, and the step of a call. -/

namespace Sys2Proof.Machine

/-! The invariant, one lemma per update of the state. -/

section Invariant
variable {s : State}

/-- A component in the state is as the spec allows it. -/
theorem State.Inv.inst_wf (h : s.Inv) {k : Nat} {x : Inst} (hx : s.inst? k = some x) : x.wf := by
  obtain ⟨⟨-, hwf⟩, -, -, -⟩ := h
  exact hwf _ (State.inst?_mem hx)

/-- A RAM whose address register is written has been called. -/
theorem State.Inv.mem_called (h : s.Inv) {k : Nat} {x : RamInst} (hx : s.inst? k = some (.ram x))
    (ha : x.addr ≠ .uninit) : k ∈ s.called := by
  obtain ⟨-, -, ⟨-, -, hram⟩, -⟩ := h
  exact hram k x hx ha

/-- An event that carries no error may be observed. -/
theorem State.Inv.observe (h : s.Inv) {ev : Event} (hev : ev.error? = none) :
    State.Inv { s with outcomes := s.outcomes ++ [ev] } := by
  obtain ⟨hcomp, ⟨hrec, hidx⟩, hcalled, herr⟩ := h
  refine ⟨hcomp, ⟨?_, hidx⟩, hcalled, herr⟩
  simpa [hev] using hrec

/-- Records may be delivered: the sink is no part of the invariant. -/
theorem State.Inv.deliver (h : s.Inv) (rs : List SinkRecord) : (s.deliver rs).Inv := h

/-- The host's further operations are no part of the invariant. -/
theorem State.Inv.withPending (h : s.Inv) (ops : List HostOp) : State.Inv { s with pending := ops } := h

/-- An error the block can raise may be taken: its index is that of the last call. -/
theorem State.Inv.raises (h : s.Inv) (k : Option Nat) {e : Error} (he : e.raisable = true) : (s.raises k e).Inv := by
  obtain ⟨hcomp, ⟨hrec, hsorted, hle⟩, hcalled, herr⟩ := h
  refine ⟨hcomp, ⟨?_, ?_, ?_⟩, hcalled, ?_⟩
  · simp [hrec, Event.error?]
  · simpa [List.pairwise_append, hsorted] using hle
  · simpa [or_imp, forall_and] using hle
  · simpa [or_imp, forall_and, he] using herr

/-- A call may be issued: indices recorded stay below the count, and the component marked is a constructed one. -/
theorem State.Inv.issueCall (h : s.Inv) (k : Option Nat) : (s.issueCall k).Inv := by
  obtain ⟨hcomp, ⟨hrec, hsorted, hle⟩, ⟨hnodup, hsome, hram⟩, herr⟩ := h
  refine ⟨hcomp, ⟨hrec, hsorted, fun f hf => Nat.le_succ_of_le (hle f hf)⟩,
    ⟨State.issueCall_called_nodup hnodup k, fun j hj => ?_, fun j x hx ha => ?_⟩, herr⟩
  · rcases State.mem_issueCall_called.1 hj with hj | ⟨-, hj⟩
    · exact hsome j hj
    · exact hj
  · exact State.mem_issueCall_called.2 (.inl (hram j x hx ha))

/-- A component may take a state the spec allows, provided a RAM with a written address register has been called. -/
theorem State.Inv.setInst (h : s.Inv) {k : Nat} {y : Inst} (hy : y.wf)
    (hram : ∀ x, y = .ram x → x.addr ≠ .uninit → k ∈ s.called) : (s.setInst k y).Inv := by
  obtain ⟨⟨hrising, hwf⟩, hrec, ⟨hnodup, hsome, hcalled⟩, herr⟩ := h
  refine ⟨⟨rising_assocSet k y hrising, fun p hp => ?_⟩, hrec, ⟨hnodup, fun j hj => ?_, fun j x hx ha => ?_⟩, herr⟩
  · rcases mem_assocSet hp with rfl | hp
    · exact hy
    · exact hwf p hp
  · by_cases hjk : j = k
    · subst hjk; simp
    · rw [State.setInst_inst?_other s hjk]; exact hsome j hj
  · by_cases hjk : j = k
    · subst hjk
      exact hram x (by simpa using hx) ha
    · rw [State.setInst_inst?_other s hjk] at hx
      exact hcalled j x hx ha

end Invariant

/-! The components a step leaves behind are as the spec allows them. -/

theorem ramNext_wf {x : RamInst} {a d : BitVector} (w c : Bit) (h : x.wf) (ha : a.length = x.addrW)
    (hr : udec a < x.rowCount) (hd : d.length ≤ x.w) : (ramNext x a d w c).wf := by
  obtain ⟨hlegal, hmem, -⟩ := h
  exact ⟨hlegal, ramNext_mem_wf w c hmem hr hd, by simp [ramNext, addrWf, ha, hr]⟩

theorem preload_wf {x : RamInst} {rows : List (Nat × Symbols)} (h : x.wf) (hr : ∀ p ∈ rows, p.1 < x.rowCount)
    (hw : ∀ p ∈ rows, (bitsOf p.2).length ≤ x.w) : RamInst.wf { x with mem := preloadRows x.w x.mem rows } := by
  obtain ⟨hlegal, hmem, haddr⟩ := h
  exact ⟨hlegal, preloadRows_wf hmem hr hw, haddr⟩

theorem buildComponent_wf {c : Component} {x : Inst} (h : buildComponent c = some x) : x.wf := by
  cases c with
  | seq kind width initQ initPrev =>
    simp only [buildComponent] at h
    split_ifs at h with hw
    cases h
    simpa [Inst.wf, SeqInst.wf] using hw
  | ram rows addrW w initPrev =>
    simp only [buildComponent] at h
    split_ifs at h with hl
    cases h
    exact ⟨hl, Memory.wf_nil _ _, rfl⟩

/-- A constructed RAM's address register holds `Uninit` (R39). -/
theorem buildComponent_addr {c : Component} {x : RamInst} (h : buildComponent c = some (.ram x)) :
    x.addr = .uninit := by
  cases c with
  | seq kind width initQ initPrev => simp only [buildComponent] at h; split_ifs at h; cases h
  | ram rows addrW w initPrev => simp only [buildComponent] at h; split_ifs at h; cases h; rfl

/-! The invariant, over the shapes of a next state. -/

/-- A call keeps the invariant, the component it names being marked as called. -/
theorem Effect.inv {s t : State} {g : Bool} {k : Option Nat} (he : Effect s g k t) (h : s.Inv)
    (hk : ∀ j, k = some j → (s.inst? j).isSome = true → j ∈ s.called) : t.Inv := by
  cases he with
  | raised _ e he => exact h.raises k he
  | returned rs outs hg => exact (h.deliver rs).observe rfl
  | seq inst x q c hx hq =>
    have hwf : x.wf := h.inst_wf hx
    have hy : Inst.wf (.seq { x with q := q, prev := .known c }) := by simpa [Inst.wf, SeqInst.wf, hq] using hwf
    exact (h.setInst hy (by simp)).observe rfl
  | ram inst x a d w c hx hl ha hr hd =>
    have hwf : x.wf := h.inst_wf hx
    exact (h.setInst (y := .ram _) (ramNext_wf w c hwf ha hr hd) fun _ _ _ => hk inst rfl (by simp [hx])).observe rfl

theorem HostEffect.inv {s t : State} (he : HostEffect s t) (h : s.Inv) : t.Inv := by
  cases he with
  | call g k _ he =>
    exact he.inv (h.issueCall k) fun j hj hs => State.mem_issueCall_called.2 (.inr ⟨hj, hs⟩)
  | callRefused k why => exact (h.issueCall k).observe rfl
  | refused why => exact h.observe rfl
  | constructed inst c x hn hx =>
    refine h.setInst (buildComponent_wf hx) ?_
    rintro r rfl ha
    exact absurd (buildComponent_addr hx) ha
  | preloaded inst x rows hx hr hw =>
    have hwf : x.wf := h.inst_wf hx
    refine h.setInst (preload_wf hwf hr hw) ?_
    rintro r ⟨⟩ ha
    exact h.mem_called hx ha
  | raised k e he => exact h.raises k he
  | readAnswered v => exact h.observe rfl

/-- Settles O17: every shape of a next state is a chain of updates that each keep the invariant. -/
theorem stepKeepsTheInvariant : Obligations.StepKeepsTheInvariant := by
  intro s t h hstep
  obtain ⟨op, rest, -, he⟩ := step_effect hstep
  exact he.inv (h.withPending rest)

/-! Refusals. -/

/-- Settles O9: a call that is not accepted is refused, and an accepted one has a next state, which is no refusal. -/
theorem refusedExactlyWhereNotAccepted : Obligations.RefusedExactlyWhereNotAccepted := by
  intro i s
  refine ⟨⟨?_, exec_refused⟩, exec_next_of_accepted⟩
  rintro ⟨r, hr⟩
  by_contra hA
  obtain ⟨t, ht⟩ := exec_next_of_accepted (by simpa using hA)
  rw [hr] at ht
  cases ht

/-! The frame of a call. -/

section Frame
variable {s t : State} {g : Bool} {k : Option Nat}

theorem Effect.params_eq (he : Effect s g k t) : t.params = s.params := by cases he <;> rfl
theorem Effect.pending_eq (he : Effect s g k t) : t.pending = s.pending := by cases he <;> rfl
theorem Effect.calls_eq (he : Effect s g k t) : t.calls = s.calls := by cases he <;> rfl
theorem Effect.called_eq (he : Effect s g k t) : t.called = s.called := by cases he <;> rfl

theorem Effect.inst?_other (he : Effect s g k t) {j : Nat} (hj : k ≠ some j) : t.inst? j = s.inst? j := by
  cases he with
  | raised | returned => rfl
  | seq inst | ram inst => exact State.setInst_inst?_other s (fun h => hj (by rw [h])) _

/-- Only a call that may deliver changes the sink. -/
theorem Effect.sink_eq (he : Effect s false k t) : t.sink = s.sink := by
  cases he with
  | returned rs outs hg => simp [hg rfl]
  | raised | seq | ram => rfl

/-- A call has one outcome, and its fault entry, if any, is that outcome's error (R280). -/
theorem Effect.outcome (he : Effect s g k t) :
    ∃ ev, t.outcomes = s.outcomes ++ [ev] ∧
      (t.faults = s.faults ∨ ∃ e, ev = .raised e ∧ t.faults = s.faults ++ [⟨s.calls, k, e⟩]) := by
  cases he with
  | raised _ e => exact ⟨_, rfl, .inr ⟨e, rfl, rfl⟩⟩
  | returned | seq | ram => exact ⟨_, rfl, .inl rfl⟩

/-- A flip-flop or register keeps its variant and width (R6). -/
theorem Effect.seq_kept (he : Effect s g k t) {j : Nat} {x : SeqInst} (hx : s.inst? j = some (.seq x)) :
    ∃ y, t.inst? j = some (.seq y) ∧ y.kind = x.kind ∧ y.q.length = x.q.length := by
  by_cases hj : k = some j
  swap
  · exact ⟨x, (he.inst?_other hj).trans hx, rfl, rfl⟩
  cases he with
  | raised => exact ⟨x, hx, rfl, rfl⟩
  | returned => cases hj
  | seq inst z q c hz hq =>
    cases hj
    cases hz.symm.trans hx
    exact ⟨_, State.setInst_inst?_same .., rfl, hq⟩
  | ram inst z a d w c hz =>
    cases hj
    cases hz.symm.trans hx

/-- A RAM keeps ROWS, ADDR_W and W (R6). -/
theorem Effect.ram_kept (he : Effect s g k t) {j : Nat} {x : RamInst} (hx : s.inst? j = some (.ram x)) :
    ∃ y, t.inst? j = some (.ram y) ∧ y.rowCount = x.rowCount ∧ y.addrW = x.addrW ∧ y.w = x.w := by
  by_cases hj : k = some j
  swap
  · exact ⟨x, (he.inst?_other hj).trans hx, rfl, rfl, rfl⟩
  cases he with
  | raised => exact ⟨x, hx, rfl, rfl, rfl⟩
  | returned => cases hj
  | seq inst z q c hz =>
    cases hj
    cases hz.symm.trans hx
  | ram inst z a d w c hz =>
    cases hj
    cases hz.symm.trans hx
    exact ⟨_, State.setInst_inst?_same .., rfl, rfl, rfl⟩

theorem HostEffect.params_eq (he : HostEffect s t) : t.params = s.params := by
  cases he with
  | call g k _ he => exact he.params_eq
  | callRefused | refused | constructed | preloaded | raised | readAnswered => rfl

end Frame

/-- Only a TEST_GATE may deliver. -/
theorem delivers_eq_false {i : Instr} (h : ∀ g n k, i ≠ .testGate g n k) : delivers i = false := by
  cases i with
  | testGate g n k => exact absurd rfl (h g n k)
  | _ => rfl

/-- Settles O16: no shape of a next state writes the parameters. -/
theorem parametersNeverChange : Obligations.ParametersNeverChange := by
  intro s t hstep
  obtain ⟨op, rest, -, he⟩ := step_effect hstep
  exact he.params_eq

/-- Settles O20: the frame of `Effect`, which every next state of `exec` has. -/
theorem callsTouchOnlyTheirOwnComponent : Obligations.CallsTouchOnlyTheirOwnComponent := by
  intro i s t hexec
  have he := exec_effect hexec
  refine ⟨fun k hk => he.inst?_other hk, he.params_eq, he.pending_eq, he.calls_eq, he.called_eq, ?_, he.outcome⟩
  intro hi
  rw [delivers_eq_false hi] at he
  exact he.sink_eq

/-- Settles O21: the component called keeps its kind and sizes, every other one is as it was. -/
theorem callsKeepTheComponentsParameters : Obligations.CallsKeepTheComponentsParameters := by
  intro i s t k hexec
  have he := exec_effect hexec
  exact ⟨fun x hx => he.seq_kept hx, fun x hx => he.ram_kept hx⟩

/-! The step of a call. -/

/-- A refusal for which D36 gives no move is not recorded. -/
theorem recordRefusal_stays {s : State} {r : Refusal} (h : ∀ why, r ≠ .illFormed why) :
    recordRefusal s (.refused r) = .refused r := by
  unfold recordRefusal
  split
  · next why hr => cases hr; exact absurd rfl (h why)
  · rfl

theorem step_call {s : State} {c : Call} {rest : List HostOp} (h : s.pending = .call c :: rest) :
    step s = runCall c { s with pending := rest } := by
  simp only [step, h, runHostOp]

theorem runCall_decoded {c : Call} {i : Instr} (s : State) (h : decode c = .ok i) :
    runCall c s = recordRefusal (s.issueCall i.inst?) (exec i (s.issueCall i.inst?)) := by
  simp only [runCall, execCall, h, Call.target?_of_decode h]

theorem runCall_operandCount {c : Call} (s : State) (h : decode c = .error .operandCount) :
    runCall c s = .next ((s.issueCall c.target?).refuses .operandCount) := by
  simp only [runCall, execCall, h, refuseCall, recordRefusal_illFormed]

/-- Settles O6: the step of a call is `exec` in the issued state, with what is recorded of a refusal. -/
theorem stepRunsTheDecodedCall : Obligations.StepRunsTheDecodedCall := by
  refine ⟨fun s c rest i hp hd => ?_, fun s c rest hp hd => ?_⟩
  · have hstep := (step_call hp).trans (runCall_decoded _ hd)
    refine ⟨rfl, rfl, rfl, fun t ht => ?_, fun why hr => ?_, fun r hr hw => ?_⟩
    · rw [hstep, ht, recordRefusal_next]
    · rw [hstep, hr, recordRefusal_illFormed]; rfl
    · rw [hstep, hr, recordRefusal_stays hw]
  · exact (step_call hp).trans (runCall_operandCount _ hd)

end Sys2Proof.Machine

/-! SUPPORT. Proofs of the state family (spec/10_state.md): what a run records, the state a component is constructed
with, the calls that keep no state, and the host's reads. -/

namespace Sys2Proof.Machine

/-- Settles O18: nothing is constructed, called or recorded at reset, so every clause ranges over an empty list. -/
theorem resetMeetsTheInvariant : Obligations.ResetMeetsTheInvariant := by
  have hcomp : State.reset.ComponentsWf := ⟨.nil, fun p hp => absurd hp List.not_mem_nil⟩
  have hrec : State.reset.RecordsWf := ⟨rfl, .nil, fun f hf => absurd hf List.not_mem_nil⟩
  have hcalled : State.reset.CalledWf := ⟨.nil, fun k hk => absurd hk List.not_mem_nil, fun k x hx => nomatch hx⟩
  exact ⟨hcomp, hrec, hcalled, fun f hf => absurd hf List.not_mem_nil⟩

/-! What a step records: at most one event, and a fault entry exactly for an event that carries an error. -/

/-- From `s` to `t` at most one event is observed, and the entries appended to the fault record are its errors. -/
def Records (s t : State) : Prop :=
  ∃ new evs, t.faults = s.faults ++ new ∧ t.outcomes = s.outcomes ++ evs ∧ evs.length ≤ 1 ∧
    evs.filterMap Event.error? = new.map FaultEntry.error

section Records
variable {s t : State}

theorem Records.nothing (hf : t.faults = s.faults) (ho : t.outcomes = s.outcomes) : Records s t :=
  ⟨[], [], by simpa using hf, by simpa using ho, by simp, rfl⟩

theorem Records.event {ev : Event} (hev : ev.error? = none) (hf : t.faults = s.faults)
    (ho : t.outcomes = s.outcomes ++ [ev]) : Records s t :=
  ⟨[], [ev], by simpa using hf, ho, le_rfl, by simp [hev]⟩

theorem State.raises_records (s : State) (k : Option Nat) (e : Error) : Records s (s.raises k e) :=
  ⟨[⟨s.calls, k, e⟩], [.raised e], rfl, rfl, le_rfl, rfl⟩

theorem Effect.records {g : Bool} {k : Option Nat} (he : Effect s g k t) : Records s t := by
  cases he with
  | raised _ e => exact s.raises_records k e
  | returned | seq | ram => exact .event rfl rfl rfl

theorem HostEffect.records (he : HostEffect s t) : Records s t := by
  cases he with
  | call g k _ he => exact he.records
  | constructed | preloaded => exact .nothing rfl rfl
  | raised k e => exact s.raises_records k e
  | callRefused | refused | readAnswered => exact .event rfl rfl rfl

theorem step_records (h : step s = .next t) : Records s t := by
  obtain ⟨op, rest, -, he⟩ := step_effect h
  exact he.records

end Records

/-- Settles O13: what is appended is at most one event and its errors;
if the longer lists are good, so are the ones they extend. -/
theorem faultRecordOnlyGrows : Obligations.FaultRecordOnlyGrows := by
  intro s t hstep
  obtain ⟨new, evs, hf, ho, hlen, herr⟩ := step_records hstep
  have hnew : new.length ≤ 1 := calc
    new.length = (evs.filterMap Event.error?).length := by simp [herr]
    _ ≤ evs.length := List.length_filterMap_le ..
    _ ≤ 1 := hlen
  refine ⟨new, hf, hnew, by rw [ho, List.filterMap_append, herr], ⟨evs, ho, hlen⟩,
    fun ⟨hnone, hevents⟩ => ⟨?_, ?_⟩⟩
  · rw [hf] at hnone
    exact (List.append_eq_nil_iff.1 hnone).1
  · intro e he
    exact hevents e (ho ▸ List.mem_append_left evs he)

/-! Combinational calls: the answer is a function of the call and the parameters. -/

/-- What a combinational call answers: an error, or the records it delivers and its outputs. -/
abbrev Answer := Except Error (List SinkRecord × List HeldBits)

/-- The outcome an answer is observed as (R310). -/
def Answer.event : Answer → Event
  | .error e => .raised e
  | .ok (_, outs) => .returned outs

/-- The state in which a combinational call has given its answer. -/
def State.answers (s : State) : Answer → State
  | .error e => s.raises none e
  | .ok (rs, outs) => (s.deliver rs).returns outs

@[simp] theorem State.answers_insts (s : State) (a : Answer) : (s.answers a).insts = s.insts := by
  cases a <;> rfl

@[simp] theorem State.answers_outcomes (s : State) (a : Answer) :
    (s.answers a).outcomes = s.outcomes ++ [a.event] := by
  cases a <;> rfl

/-- Whether the block accepts a call that names no component is decided by the call alone. -/
theorem accepts_eq_wf {i : Instr} (hi : i.inst? = none) (s : State) : Accepts s i = i.wf := by
  cases i with
  | dff | dffSc | srFf | jkFf | register | ram1r => cases hi
  | _ => rfl

/-- A well-formed combinational call gives one answer in every state of the same parameters (R33). -/
theorem exec_answers {i : Instr} (hi : i.inst? = none) (hwf : i.wf = true) (p : Params) :
    ∃ a : Answer, ∀ s : State, s.params = p → exec i s = .next (s.answers a) := by
  have hA : ∀ s, Accepts s i = true := fun s => (accepts_eq_wf hi s).trans hwf
  rcases hb : badOperandFrom 0 i.operands with - | e
  swap
  · exact ⟨.error e, fun s _ => by rw [exec_badSymbol (hA s) hb, hi, State.answers]⟩
  have hv := (badOperandFrom_none 0 _).1 hb
  have returning : ∀ outs, (∀ s : State, s.params = p → exec i s = .next (s.returns outs)) →
      ∃ a : Answer, ∀ s : State, s.params = p → exec i s = .next (s.answers a) :=
    fun outs h => ⟨.ok ([], outs), fun s hp => by rw [h s hp, State.answers, State.deliver_nil]⟩
  rcases hg : Instr.gateCall? i with - | ⟨g, ops⟩
  swap
  · exact returning [knownBits (gateVec (gateBit p.nary g) (ops.map bitsOf))] fun s hp =>
      hp ▸ exec_gate_ok hg (hA s) hv
  cases i with
  | andGate | orGate | notGate | nandGate | norGate | xorGate | xnorGate => cases hg
  | dff | dffSc | srFf | jkFf | register | ram1r => cases hi
  | halfAdd a b => exact returning _ fun s _ => exec_halfAdd_ok (hA s) hv
  | fullAdd a b c => exact returning _ fun s _ => exec_fullAdd_ok (hA s) hv
  | add a b => exact returning _ fun s _ => exec_add_ok (hA s) hv
  | addFixed n a b => exact returning _ fun s _ => exec_addFixed_ok (hA s) hv
  | twoComplement x => exact returning _ fun s _ => exec_twoComplement_ok (hA s) hv
  | eqCompare a b => exact returning _ fun s _ => exec_eqCompare_ok (hA s) hv
  | zeroTest x => exact returning _ fun s _ => exec_zeroTest_ok (hA s) hv
  | demux e sel =>
    exact returning [knownBits (demuxVec p.demuxOrder (bitOf e) (bitsOf sel))] fun s hp =>
      hp ▸ exec_demux_ok (hA s) hv
  | mux inputs sel =>
    rcases hsel : (inputs.map bitsOf)[udec (bitsOf sel)]? with - | v
    · exact ⟨.error _, fun s _ => by rw [exec_mux_ok (hA s) hv, hsel]; rfl⟩
    · exact returning _ fun s _ => by rw [exec_mux_ok (hA s) hv, hsel]
  | testGate gate n sink =>
    rcases hgate : gate.gate? with - | g
    · exact ⟨.error _, fun s _ => exec_testGate_noGate hgate⟩
    · exact ⟨.ok (gateRecords p.nary g n.toNat sink, []), fun s hp => hp ▸ exec_testGate_ok hgate (hA s)⟩

/-- Settles O19: both states take the one answer, which writes no component and appends its event. -/
theorem combinationalCallsHoldNoState : Obligations.CombinationalCallsHoldNoState := by
  intro i s s' t hi hp hexec
  have hwf : i.wf = true := by
    by_contra h
    obtain ⟨r, hr⟩ := exec_refused (s := s) ((accepts_eq_wf hi s).trans (by simpa using h))
    rw [hr] at hexec
    cases hexec
  obtain ⟨a, ha⟩ := exec_answers hi hwf s.params
  rw [ha s rfl] at hexec
  cases hexec
  exact ⟨s.answers_insts a, s'.answers a, a.event, ha s' hp.symm, s.answers_outcomes a, s'.answers_outcomes a⟩

/-! Construction. -/

theorem buildComponent_seq {kind : SeqKind} {width : Nat} {initQ initPrev : Held Bit} (h : 1 ≤ width) :
    buildComponent (.seq kind width initQ initPrev) = some (.seq ⟨kind, List.replicate width initQ, initPrev⟩) :=
  if_pos h

theorem buildComponent_ram {rows addrW w : Nat} {initPrev : Held Bit} (h : ramLegal rows addrW w = true) :
    buildComponent (.ram rows addrW w initPrev) = some (.ram ⟨rows, addrW, w, [], .uninit, initPrev⟩) :=
  if_pos h

theorem runConstruct_new {s : State} {inst : Nat} {c : Component} {x : Inst} (hn : s.inst? inst = none)
    (hx : buildComponent c = some x) : runConstruct inst c s = .next (s.setInst inst x) := by
  simp only [runConstruct, hn, hx]

theorem step_construct {s : State} {inst : Nat} {c : Component} {rest : List HostOp}
    (h : s.pending = .construct inst c :: rest) : step s = runConstruct inst c { s with pending := rest } := by
  simp only [step, h, runHostOp]

/-- Settles O57: a construction writes the one component built from its parameters, and nothing else. -/
theorem constructedComponentsHoldTheirResetValues : Obligations.ConstructedComponentsHoldTheirResetValues := by
  refine ⟨rfl, rfl, ?_, ?_⟩
  · intro s inst kind width initQ initPrev rest hp hn hwidth
    have hrun := runConstruct_new (s := { s with pending := rest }) hn
      (buildComponent_seq (kind := kind) (initQ := initQ) (initPrev := initPrev) hwidth)
    refine ⟨_, _, (step_construct hp).trans hrun, State.setInst_inst?_same .., rfl, List.length_replicate,
      fun b hb => List.eq_of_mem_replicate hb, fun b hb => ?_, rfl, rfl, fun k hk => State.setInst_inst?_other _ hk _⟩
    rw [notq, List.map_replicate] at hb
    exact List.eq_of_mem_replicate hb
  · intro s inst rows addrW w initPrev rest hp hn hw haddrW hrows hle
    have hlegal : ramLegal rows addrW w = true := decide_eq_true ⟨hw, haddrW, hrows, hle⟩
    have hrun := runConstruct_new (s := { s with pending := rest }) hn
      (buildComponent_ram (initPrev := initPrev) hlegal)
    exact ⟨_, _, (step_construct hp).trans hrun, State.setInst_inst?_same .., rfl, rfl, rfl, fun r => rfl, rfl, rfl,
      rfl, fun k hk => State.setInst_inst?_other _ hk _⟩

/-! Host reads: an output is wholly known or holds `Uninit`. -/

@[simp] theorem allKnown_knownBits (v : BitVector) : allKnown (knownBits v) = some v := by
  induction v with
  | nil => rfl
  | cons b v ih => simpa [knownBits, allKnown] using ih

theorem allKnown_of_uninit_mem {q : HeldBits} (h : .uninit ∈ q) : allKnown q = none := by
  induction q with
  | nil => cases h
  | cons b q ih =>
    cases b with
    | uninit => rfl
    | known b => simp [allKnown, ih (by simpa using h)]

theorem notq_knownBits (v : BitVector) : notq (knownBits v) = knownBits (v.map not) := by
  simp [notq, knownBits, heldNot]

theorem uninit_mem_notq {q : HeldBits} (h : .uninit ∈ q) : .uninit ∈ notq q :=
  List.mem_map.2 ⟨.uninit, h, rfl⟩

theorem ramOut_known {x : RamInst} {a v : BitVector} (ha : x.addr = .known a)
    (hv : x.mem.read (udec a) = .known v) : ramOut x = knownBits v := by
  simp only [ramOut, ha, hv, rowOut]

theorem uninit_mem_ramOut {x : RamInst} (hw : 1 ≤ x.w)
    (h : x.addr = .uninit ∨ ∃ a, x.addr = .known a ∧ x.mem.read (udec a) = .uninit) : .uninit ∈ ramOut x := by
  have hrow : .uninit ∈ rowOut x.w .uninit := List.mem_replicate.2 ⟨by omega, rfl⟩
  rcases h with ha | ⟨a, ha, hr⟩
  · simpa only [ramOut, ha] using hrow
  · simpa only [ramOut, ha, hr] using hrow

theorem step_read {s : State} {inst : Nat} {output : OutputName} {rest : List HostOp}
    (h : s.pending = .read inst output :: rest) : step s = runRead inst output { s with pending := rest } := by
  simp only [step, h, runHostOp]

section Read
variable {s : State} {inst : Nat} {output : OutputName} {x : Inst}

theorem runRead_known {v : BitVector} (hx : s.inst? inst = some x) (ho : outputOf x output = some (knownBits v)) :
    runRead inst output s = .next (s.answersRead v) := by
  simp only [runRead, hx, ho, allKnown_knownBits]

theorem runRead_uninit {o : HeldBits} (hx : s.inst? inst = some x) (ho : outputOf x output = some o)
    (hu : .uninit ∈ o) : runRead inst output s = .next (s.raises (some inst) (.uninitialisedRead inst output)) := by
  simp only [runRead, hx, ho, allKnown_of_uninit_mem hu, raise]

end Read

/-- Settles O60: each output is its stored bits, their complement or the addressed row, read as it stands. -/
theorem readsAnswerTheOutputsAsTheyStand : Obligations.ReadsAnswerTheOutputsAsTheyStand := by
  refine ⟨fun s inst x rest hx => ⟨fun hp => ⟨fun v hv => ?_, fun hu => ?_⟩,
      fun hp => ⟨fun v hv => ?_, fun hu => ?_⟩⟩,
    fun s inst x rest hx hp hw => ⟨fun a v ha hv => ?_, fun hu => ?_⟩⟩
  · exact (step_read hp).trans (runRead_known hx (congrArg some hv))
  · exact (step_read hp).trans (runRead_uninit hx rfl hu)
  · exact (step_read hp).trans (runRead_known hx (congrArg some (hv ▸ notq_knownBits v)))
  · exact (step_read hp).trans (runRead_uninit hx rfl (uninit_mem_notq hu))
  · exact (step_read hp).trans (runRead_known hx (congrArg some (ramOut_known ha hv)))
  · exact (step_read hp).trans (runRead_uninit hx rfl (uninit_mem_ramOut hw hu))

end Sys2Proof.Machine

/-! SUPPORT. Proofs of the memory family (spec/20_memory.md): the edge test and the two primitives on rows, and the RAM
call made of them. -/

namespace Sys2Proof.Machine

/-! The edge test (R201). -/

theorem edgeOf_eq_rising_iff {prev : Held Bit} {clk : Bit} :
    edgeOf prev clk = .rising ↔ clk = true ∧ prev = .known false := by
  rcases clk with - | - <;> rcases prev with - | (- | -) <;> simp [edgeOf]

theorem edgeOf_eq_unknown_iff {prev : Held Bit} {clk : Bit} :
    edgeOf prev clk = .unknown ↔ clk = true ∧ prev = .uninit := by
  rcases clk with - | - <;> rcases prev with - | (- | -) <;> simp [edgeOf]

/-! `MemRead` and `MemWrite` (R62, R63) at a row out of range and at one in range. -/

section Rows
variable {x : RamInst} {a : Nat}

theorem memRead_of_le (h : x.rowCount ≤ a) : memRead x a = .error (.addressOutOfRange a) := if_pos h

theorem memRead_of_lt (h : a < x.rowCount) : memRead x a = .ok (x.mem.read a) := if_neg (Nat.not_le.2 h)

theorem memWrite_of_le (h : x.rowCount ≤ a) (v : BitVector) : memWrite x a v = .error (.addressOutOfRange a) :=
  if_pos h

theorem memWrite_of_lt (h : a < x.rowCount) (v : BitVector) :
    memWrite x a v = .ok { x with mem := x.mem.write a v } := if_neg (Nat.not_le.2 h)

end Rows

/-! The RAM after a call, and its output. -/

section Next
variable {x : RamInst} {w c : Bit}

theorem ramOut_ramNext (a d : BitVector) :
    ramOut (ramNext x a d w c) = rowOut x.w ((ramNext x a d w c).mem.read (udec a)) := rfl

theorem ramNext_of_writeEdge (h : w = true ∧ c = true ∧ x.prev = .known false) (a d : BitVector) :
    ramNext x a d w c =
      { x with addr := .known a, mem := x.mem.write (udec a) (zext x.w d), prev := .known c } := by
  simp [ramNext, edgeOf_eq_rising_iff, h]

theorem ramNext_of_not_writeEdge (h : ¬(w = true ∧ c = true ∧ x.prev = .known false)) (a d : BitVector) :
    ramNext x a d w c = { x with addr := .known a, prev := .known c } := by
  have hif : ¬(w && edgeOf x.prev c == .rising) = true := by simpa [edgeOf_eq_rising_iff] using h
  simp only [ramNext, if_neg hif]

end Next

/-! The accepted call with valid symbols on a given RAM, at a row out of range and at one in range. -/

section Call
variable {s : State} {inst : Nat} {x : RamInst} {address dataIn write clk : Symbols}

theorem exec_ram1r_of_le (hx : s.inst? inst = some (.ram x))
    (ha : Accepts s (.ram1r inst address dataIn write clk) = true)
    (hv : AllSymbolsValid [address, dataIn, write, clk]) (hrow : x.rowCount ≤ udec (bitsOf address)) :
    exec (.ram1r inst address dataIn write clk) s =
      .next (s.raises (some inst) (.addressOutOfRange (udec (bitsOf address)))) := by
  obtain ⟨y, hy, -, -, -, hexec⟩ := exec_ram1r_ok ha hv
  cases hx.symm.trans hy
  rw [hexec, if_pos hrow]

theorem exec_ram1r_of_lt (hx : s.inst? inst = some (.ram x))
    (ha : Accepts s (.ram1r inst address dataIn write clk) = true)
    (hv : AllSymbolsValid [address, dataIn, write, clk]) (hrow : udec (bitsOf address) < x.rowCount)
    (hknown : ¬(bitOf write = true ∧ bitOf clk = true ∧ x.prev = .uninit)) :
    exec (.ram1r inst address dataIn write clk) s =
      .next ((s.setInst inst
          (.ram (ramNext x (zext x.addrW (bitsOf address)) (bitsOf dataIn) (bitOf write) (bitOf clk)))).returns
        [ramOut (ramNext x (zext x.addrW (bitsOf address)) (bitsOf dataIn) (bitOf write) (bitOf clk))]) := by
  obtain ⟨y, hy, -, -, -, hexec⟩ := exec_ram1r_ok ha hv
  cases hx.symm.trans hy
  have hedge : ¬(bitOf write && edgeOf x.prev (bitOf clk) == .unknown) = true := by
    simpa [edgeOf_eq_unknown_iff] using hknown
  rw [hexec, if_neg (Nat.not_le.2 hrow), if_neg hedge]

end Call

/-- Settles O55: the range check comes first behind the front of the call. -/
theorem ramAddressOutOfRange : Obligations.RamAddressOutOfRange :=
  fun _ _ _ _ _ _ _ hx ha hv hrow => exec_ram1r_of_le hx ha hv hrow

/-- Settles O56: out of range both primitives raise what the call raises; in range the row `MemWrite` leaves, on a
write edge or without one, is the row the call puts out. -/
theorem ramCallIsMemWriteThenMemRead : Obligations.RamCallIsMemWriteThenMemRead := by
  intro s inst x address dataIn write clk hx ha hv hknown
  rcases Nat.lt_or_ge (udec (bitsOf address)) x.rowCount with hrow | hrow
  · rw [exec_ram1r_of_lt hx ha hv hrow hknown, ramOut_ramNext, udec_zext]
    by_cases hedge : bitOf write = true ∧ bitOf clk = true ∧ x.prev = .known false
    · have hread := memRead_of_lt
        (x := { x with mem := x.mem.write (udec (bitsOf address)) (zext x.w (bitsOf dataIn)) }) hrow
      simp only [if_pos hedge, memWrite_of_lt hrow, hread, ramNext_of_writeEdge hedge, udec_zext]
    · simp only [if_neg hedge, memRead_of_lt hrow, ramNext_of_not_writeEdge hedge]
  · rw [exec_ram1r_of_le hx ha hv hrow]
    by_cases hedge : bitOf write = true ∧ bitOf clk = true ∧ x.prev = .known false
    · simp only [if_pos hedge, memWrite_of_le hrow]
    · simp only [if_neg hedge, memRead_of_le hrow]

end Sys2Proof.Machine

/-! SUPPORT. Proofs of the encoding family (spec/30_encoding.md): what the decoder answers for a call record, that it
inverts the encoder, and the operations that do not exist. -/

namespace Sys2Proof

/-! The selector column of R83. -/

theorem Opcode.ofSelector_eq_some_iff {b : BitVec 8} {o : Opcode} :
    Opcode.ofSelector b = some o ↔ o.selector = b :=
  ⟨Opcode.selector_of_ofSelector, fun h => h ▸ Opcode.ofSelector_selector o⟩

/-- A selector is reserved exactly where it differs from every number in the selector column. -/
theorem Opcode.ofSelector_eq_none_iff {b : BitVec 8} :
    Opcode.ofSelector b = none ↔ ∀ n ∈ opcodeTable.map fun o => o.selector.toNat, n ≠ b.toNat := by
  simp only [Opcode.ofSelector, List.find?_eq_none, beq_iff_eq, List.forall_mem_map, ne_eq, BitVec.toNat_inj]

section Rows
variable {c : Call} {i : Instr} {o : Opcode}

/-! What the decoder answers, by the row the selector names and what that row reads. -/

theorem decode_cases (c : Call) :
    (Opcode.ofSelector c.op = none ∧ decode c = .error (.unsupported (.sel c.op))) ∨
      (∃ o, Opcode.ofSelector c.op = some o ∧ o.assemble c = none ∧ decode c = .error .operandCount) ∨
      ∃ o i, Opcode.ofSelector c.op = some o ∧ o.assemble c = some i ∧ decode c = .ok i := by
  simp only [decode]
  rcases Opcode.ofSelector c.op with - | o
  · simp
  · rcases h : o.assemble c with - | i <;> simp [h]

theorem decode_eq_ok_iff : decode c = .ok i ↔ ∃ o : Opcode, o.selector = c.op ∧ o.assemble c = some i := by
  simp only [← Opcode.ofSelector_eq_some_iff]
  rcases decode_cases c with ⟨ho, hd⟩ | ⟨o, ho, ha, hd⟩ | ⟨o, j, ho, ha, hd⟩ <;> simp [*]

theorem decode_eq_operandCount_iff :
    decode c = .error .operandCount ↔ ∃ o : Opcode, o.selector = c.op ∧ o.assemble c = none := by
  simp only [← Opcode.ofSelector_eq_some_iff]
  rcases decode_cases c with ⟨ho, hd⟩ | ⟨o, ho, ha, hd⟩ | ⟨o, j, ho, ha, hd⟩ <;> simp [*]

theorem decode_eq_unsupported_iff :
    decode c = .error (.unsupported (.sel c.op)) ↔ Opcode.ofSelector c.op = none := by
  rcases decode_cases c with ⟨ho, hd⟩ | ⟨o, ho, ha, hd⟩ | ⟨o, j, ho, ha, hd⟩ <;> simp [*]

/-! What a row reads: an instruction with the operands of the record and the parameters its format has. -/

/-- The row of an instruction reads it back from its call record. -/
theorem Instr.assemble_encode (i : Instr) : i.opcode.assemble (encode i) = some i := by
  cases i with
  | mux inputs selector =>
    exact congrArg (Option.map fun p => Instr.mux p.1 p.2) (splitLast_append inputs selector)
  | _ => rfl

theorem Opcode.operands_of_assemble (h : o.assemble c = some i) : i.operands = c.operands := by
  by_cases hmux : o = .mux
  · subst hmux
    obtain ⟨p, hp, rfl⟩ := Option.map_eq_some_iff.1 h
    exact (eq_of_splitLast hp).symm
  · unfold Opcode.assemble at h
    split at h <;> simp_all <;> subst h <;> rfl

/-- The operand counts the format of a row takes (R81). A gate with two or more operands leaves its count to R100. -/
def Opcode.takes : Opcode → Nat → Bool
  | .and, _ | .or, _ | .nand, _ | .nor, _ | .xor, _ | .xnor, _ => true
  | .mux, k => k != 0
  | o, k => k == o.leastOperands

theorem Instr.takes_operands (i : Instr) : i.opcode.takes i.operands.length = true := by
  cases i with
  | mux inputs selector => simp [Instr.opcode, Instr.operands, Opcode.takes]
  | _ => rfl

theorem Opcode.takes_of_assemble (h : o.assemble c = some i) : o.takes c.operands.length = true := by
  rw [← Opcode.operands_of_assemble h, ← (Opcode.opcode_of_assemble h).1]
  exact i.takes_operands

theorem Opcode.assemble_of_takes (h : o.takes c.operands.length = true) :
    (o.assemble c).isSome = true := by
  cases o with
  | and | or | nand | nor | xor | xnor => rfl
  | mux =>
    obtain ⟨inputs, selector, hops⟩ :=
      List.eq_nil_or_concat c.operands |>.resolve_left fun hnil => by simp [Opcode.takes, hnil] at h
    simp [Opcode.assemble, hops]
  | testGate =>
    have hops := List.length_eq_zero_iff.1 (eq_of_beq h)
    simp only [Opcode.assemble, hops, Option.isSome_some]
  | not | twoComplement | zero =>
    obtain ⟨x, hops⟩ := List.length_eq_one_iff.1 (eq_of_beq h)
    simp only [Opcode.assemble, hops, Option.isSome_some]
  | halfAdd | add | addFixed | eq | demux | dff | register =>
    obtain ⟨x, y, hops⟩ := List.length_eq_two.1 (eq_of_beq h)
    simp only [Opcode.assemble, hops, Option.isSome_some]
  | fullAdd | srFf | jkFf =>
    obtain ⟨x, y, z, hops⟩ := List.length_eq_three.1 (eq_of_beq h)
    simp only [Opcode.assemble, hops, Option.isSome_some]
  | dffSc | ram1r =>
    obtain ⟨x, y, z, clk, hops⟩ := List.length_eq_four.1 (eq_of_beq h)
    simp only [Opcode.assemble, hops, Option.isSome_some]

theorem Opcode.assemble_eq_none_iff : o.assemble c = none ↔ o.takes c.operands.length = false := by
  have hsome : (o.assemble c).isSome = true ↔ o.takes c.operands.length = true :=
    ⟨fun h => Opcode.takes_of_assemble (Option.some_get h).symm, Opcode.assemble_of_takes⟩
  rw [← Option.not_isSome_iff_eq_none, hsome, Bool.not_eq_true]

theorem Opcode.eq_of_assemble_addFixed (h : Opcode.addFixed.assemble c = some i) :
    ∃ a b, i = .addFixed c.params.n a b := by
  obtain ⟨a, b, hops⟩ := List.length_eq_two.1 (eq_of_beq (Opcode.takes_of_assemble h))
  simp only [Opcode.assemble, hops] at h
  exact ⟨a, b, (Option.some.inj h).symm⟩

theorem Opcode.eq_of_assemble_testGate (h : Opcode.testGate.assemble c = some i) :
    i = .testGate c.params.gate c.params.numInputs c.params.sink := by
  have hops := List.length_eq_zero_iff.1 (eq_of_beq (Opcode.takes_of_assemble h))
  simp only [Opcode.assemble, hops] at h
  exact (Option.some.inj h).symm

/-- What a row reads keeps the call: its selector, its operands, its component and the parameters its format has. -/
theorem Opcode.keepsCall_of_assemble (hop : o.selector = c.op) (h : o.assemble c = some i) :
    (encode i).op = c.op ∧ (encode i).operands = c.operands ∧ (∀ k, i.inst? = some k → k = c.inst) ∧
      (∀ n a b, i = .addFixed n a b → n = c.params.n) ∧
      ∀ g n k, i = .testGate g n k → g = c.params.gate ∧ n = c.params.numInputs ∧ k = c.params.sink := by
  obtain ⟨rfl, hinst⟩ := Opcode.opcode_of_assemble h
  refine ⟨hop, Opcode.operands_of_assemble h, hinst, ?_, ?_⟩
  · rintro n a b rfl
    obtain ⟨_, _, heq⟩ := Opcode.eq_of_assemble_addFixed h
    cases heq
    rfl
  · rintro g n k rfl
    cases Opcode.eq_of_assemble_testGate h
    exact ⟨rfl, rfl, rfl⟩

/-- A selector in the column of rows that all refuse an operand count names a row that refuses it. -/
theorem Opcode.exists_row_not_takes {b : BitVec 8} {k : Nat} (rows : List Opcode)
    (hrows : ∀ o ∈ rows, o.takes k = false) (hb : b ∈ rows.map Opcode.selector) :
    ∃ o : Opcode, o.selector = b ∧ o.takes k = false := by
  obtain ⟨o, ho, hop⟩ := List.mem_map.1 hb
  exact ⟨o, hop, hrows o ho⟩

theorem decode_eq_operandCount_iff_count : decode c = .error .operandCount ↔
    (c.op ∈ [0x03#8, 0x14#8, 0x16#8] ∧ c.operands.length ≠ 1) ∨
    (c.op ∈ [0x10#8, 0x12#8, 0x13#8, 0x15#8, 0x21#8, 0x30#8, 0x34#8] ∧ c.operands.length ≠ 2) ∨
    (c.op ∈ [0x11#8, 0x32#8, 0x33#8] ∧ c.operands.length ≠ 3) ∨
    (c.op ∈ [0x31#8, 0x40#8] ∧ c.operands.length ≠ 4) ∨
    (c.op = 0x20#8 ∧ c.operands.length = 0) ∨ (c.op = 0x70#8 ∧ c.operands.length ≠ 0) := by
  simp only [decode_eq_operandCount_iff, Opcode.assemble_eq_none_iff]
  constructor
  · rintro ⟨o, hop, hk⟩
    rw [← hop]
    cases o with
    | and | or | nand | nor | xor | xnor => cases hk
    | not | twoComplement | zero => exact .inl ⟨by decide, ne_of_beq_false hk⟩
    | halfAdd | add | addFixed | eq | demux | dff | register =>
      exact .inr (.inl ⟨by decide, ne_of_beq_false hk⟩)
    | fullAdd | srFf | jkFf => exact .inr (.inr (.inl ⟨by decide, ne_of_beq_false hk⟩))
    | dffSc | ram1r => exact .inr (.inr (.inr (.inl ⟨by decide, ne_of_beq_false hk⟩)))
    | mux => exact .inr (.inr (.inr (.inr (.inl ⟨rfl, by simpa [Opcode.takes] using hk⟩))))
    | testGate => exact .inr (.inr (.inr (.inr (.inr ⟨rfl, ne_of_beq_false hk⟩))))
  · rintro (⟨hop, hk⟩ | ⟨hop, hk⟩ | ⟨hop, hk⟩ | ⟨hop, hk⟩ | ⟨hop, hk⟩ | ⟨hop, hk⟩)
    · exact Opcode.exists_row_not_takes [.not, .twoComplement, .zero]
        (by simpa [Opcode.takes, Opcode.leastOperands] using hk) hop
    · exact Opcode.exists_row_not_takes [.halfAdd, .add, .addFixed, .eq, .demux, .dff, .register]
        (by simpa [Opcode.takes, Opcode.leastOperands] using hk) hop
    · exact Opcode.exists_row_not_takes [.fullAdd, .srFf, .jkFf]
        (by simpa [Opcode.takes, Opcode.leastOperands] using hk) hop
    · exact Opcode.exists_row_not_takes [.dffSc, .ram1r]
        (by simpa [Opcode.takes, Opcode.leastOperands] using hk) hop
    · exact ⟨.mux, hop.symm, by simp [Opcode.takes, hk]⟩
    · exact ⟨.testGate, hop.symm, beq_false_of_ne hk⟩

end Rows

/-- Settles O1: the selector column names the row of the instruction, and that row reads the instruction back. -/
theorem decodeOfEncodeIsIdentity : Obligations.DecodeOfEncodeIsIdentity :=
  fun i => decode_eq_ok_iff.2 ⟨i.opcode, rfl, i.assemble_encode⟩

/-- Settles O2: a row keeps the call it reads, and reads exactly the operand counts its format takes. -/
theorem encodeOfDecodeKeepsTheCall : Obligations.EncodeOfDecodeKeepsTheCall := by
  refine ⟨fun c i h => ?_, fun c => decode_eq_operandCount_iff_count⟩
  obtain ⟨o, hop, ho⟩ := decode_eq_ok_iff.1 h
  exact Opcode.keepsCall_of_assemble hop ho

/-- Settles O3: the ranges are the gaps between the numbers of the selector column. -/
theorem reservedSelectorsAreExactlyTheRest : Obligations.ReservedSelectorsAreExactlyTheRest := by
  intro c
  have hcolumn : (opcodeTable.map fun o => o.selector.toNat) = [0x01, 0x02, 0x03, 0x04, 0x05, 0x06, 0x07, 0x10, 0x11,
    0x12, 0x13, 0x14, 0x15, 0x16, 0x20, 0x21, 0x30, 0x31, 0x32, 0x33, 0x34, 0x40, 0x70] := rfl
  rw [decode_eq_unsupported_iff, Opcode.ofSelector_eq_none_iff, hcolumn]
  simp only [List.forall_mem_cons, List.not_mem_nil, false_implies, implies_true, and_true]
  omega

/-- Settles O5: each word is a number of the selector column, and the row it names reads the operands. -/
theorem writtenOutWordsDecode : Obligations.WrittenOutWordsDecode := by
  exact ⟨decode_eq_ok_iff.2 ⟨.and, rfl, rfl⟩, decode_eq_operandCount_iff.2 ⟨.not, rfl, rfl⟩,
    decode_eq_ok_iff.2 ⟨.addFixed, rfl, rfl⟩, decode_eq_ok_iff.2 ⟨.mux, rfl, rfl⟩,
    decode_eq_ok_iff.2 ⟨.dffSc, rfl, rfl⟩, decode_eq_ok_iff.2 ⟨.ram1r, rfl, rfl⟩,
    decode_eq_ok_iff.2 ⟨.testGate, rfl, rfl⟩⟩

/-! The gates, by selector and by name (R84). -/

/-- The selectors of the gates are 0x01 to 0x07. -/
theorem Gate.selector_range (g : Gate) : 1 ≤ g.opcode.selector.toNat ∧ g.opcode.selector.toNat ≤ 7 := by
  cases g <;> decide

theorem Gate.name_mem (g : Gate) : g.name ∈ [['a', 'n', 'd'], ['o', 'r'], ['n', 'a', 'n', 'd'], ['n', 'o', 'r'],
    ['x', 'o', 'r'], ['x', 'n', 'o', 'r'], ['n', 'o', 't']] := by
  cases g <;> decide

theorem Gate.ofName_eq_none {n : Symbols} (h : n ∉ [['a', 'n', 'd'], ['o', 'r'], ['n', 'a', 'n', 'd'],
    ['n', 'o', 'r'], ['x', 'o', 'r'], ['x', 'n', 'o', 'r'], ['n', 'o', 't']]) : Gate.ofName n = none :=
  List.find?_eq_none.2 fun g _ hg => h (eq_of_beq hg ▸ g.name_mem)

theorem OpName.gate?_sel_eq_none {b : BitVec 8} (h : ¬(1 ≤ b.toNat ∧ b.toNat ≤ 7)) : (OpName.sel b).gate? = none :=
  List.find?_eq_none.2 fun g _ hg => h (eq_of_beq hg ▸ g.selector_range)

end Sys2Proof

namespace Sys2Proof.Machine

/-! A call of an operation that does not exist (R85): with every operand of width 1 or more it raises, and an operand
of width 0 makes it ill-formed. -/

section Unsupported
variable {s : State} {op : OpName} {ops : List Symbols} {rest : List HostOp}

theorem recordRefusal_unsupportedCall_of_forall_ne_nil (h : ∀ x ∈ ops, x ≠ []) :
    recordRefusal s (unsupportedCall op ops s) = .next (s.raises none (.unsupportedOperation op)) := by
  have hwidths : ¬(ops.any fun x => x.length == 0) = true := by
    simpa only [List.any_eq_true, beq_iff_eq, List.length_eq_zero_iff, not_exists, not_and] using h
  rw [unsupportedCall, if_neg hwidths, raise, recordRefusal_next]

theorem recordRefusal_unsupportedCall_of_nil_mem (h : [] ∈ ops) :
    recordRefusal s (unsupportedCall op ops s) = .next (s.refuses .zeroWidth) := by
  have hwidths : (ops.any fun x => x.length == 0) = true := List.any_eq_true.2 ⟨[], h, rfl⟩
  rw [unsupportedCall, if_pos hwidths, refuseCall, recordRefusal_illFormed]

theorem step_unsupportedCall {c : Call} (hp : s.pending = .call c :: rest)
    (hd : decode c = .error (.unsupported op)) :
    step s = recordRefusal (State.issueCall { s with pending := rest } none)
      (unsupportedCall op c.operands (State.issueCall { s with pending := rest } none)) := by
  rw [step_call hp]
  simp only [runCall, execCall, hd, Call.target?_of_unsupported hd]

theorem step_evaluate_unknown {n : Symbols} (hp : s.pending = .evaluate n ops :: rest)
    (hn : Gate.ofName n = none) :
    step s = recordRefusal (State.issueCall { s with pending := rest } none)
      (unsupportedCall (.name n) ops (State.issueCall { s with pending := rest } none)) := by
  simp only [step, hp, runHostOp, runEvaluate, hn]

end Unsupported

/-- Settles O4: a reserved selector and an unknown name take the same shared call of no operation, which looks at the
widths first; a TEST_GATE presents no operand, so nothing comes before its gate. -/
theorem unknownOperationsRaiseAndChangeNothing : Obligations.UnknownOperationsRaiseAndChangeNothing := by
  refine ⟨fun s c rest hp hd => ?_, fun s n ops rest hp hn => ?_, fun s g n sink hsel hname => ?_⟩
  · have hstep := step_unsupportedCall hp hd
    exact ⟨fun hw => ⟨_, hstep.trans (recordRefusal_unsupportedCall_of_forall_ne_nil hw), rfl, rfl, rfl, rfl, rfl, rfl,
      rfl, rfl⟩, fun hw => hstep.trans (recordRefusal_unsupportedCall_of_nil_mem hw)⟩
  · have hstep := step_evaluate_unknown hp (Gate.ofName_eq_none hn)
    exact ⟨fun hw => ⟨_, hstep.trans (recordRefusal_unsupportedCall_of_forall_ne_nil hw), rfl, rfl, rfl, rfl, rfl, rfl,
      rfl, rfl⟩, fun hw => hstep.trans (recordRefusal_unsupportedCall_of_nil_mem hw)⟩
  · have hgate : g.gate? = none := by
      cases g with
      | sel b => exact OpName.gate?_sel_eq_none (hsel b rfl)
      | name m => exact Gate.ofName_eq_none (hname m rfl)
    exact exec_testGate_noGate hgate

end Sys2Proof.Machine

/-! SUPPORT. Proofs of the bit-algebra family (spec/41_bit_algebra.md): validation before any gate, each gate bit by
bit, the laws of the gates, the gate called by its name, and the truth-table harness. -/

namespace Sys2Proof

/-! The gates, by selector and by name (R84), and the call of each. -/

theorem Gate.ofName_name (g : Gate) : Gate.ofName g.name = some g := by
  cases g <;> decide

theorem OpName.gate?_name (g : Gate) : (OpName.name g.name).gate? = some g :=
  g.ofName_name

theorem OpName.gate?_sel (g : Gate) : (OpName.sel g.opcode.selector).gate? = some g := by
  cases g <;> decide

/-- The call of a gate on an operand list. NOT takes one operand, which is the concatenation of a list of one. -/
def Gate.instr : Gate → List Symbols → Instr
  | .and => .andGate
  | .or => .orGate
  | .not => fun ops => .notGate ops.flatten
  | .nand => .nandGate
  | .nor => .norGate
  | .xor => .xorGate
  | .xnor => .xnorGate

/-- The legal integer input counts (R120, D3): 1 for NOT, 2 or more for every other gate. -/
theorem Gate.inputsOk_iff (g : Gate) (n : Int) :
    g.inputsOk n = true ↔ if g == .not then n = 1 else 2 ≤ n := by
  cases g with
  | not =>
    simp only [Gate.inputsOk, Gate.arityOk, Bool.and_eq_true, decide_eq_true_eq, beq_iff_eq, if_true]
    omega
  | and | or | nand | nor | xor | xnor =>
    simp only [Gate.inputsOk, Gate.arityOk, Bool.and_eq_true, decide_eq_true_eq, beq_iff_eq, reduceCtorEq, if_false]
    omega

/-- No gate takes an empty operand list (D3). -/
theorem Gate.pos_of_arityOk {g : Gate} {k : Nat} (h : g.arityOk k = true) : 0 < k := by
  cases g with
  | not => exact eq_of_beq h ▸ Nat.one_pos
  | and | or | nand | nor | xor | xnor => exact Nat.lt_of_lt_of_le Nat.two_pos (of_decide_eq_true h)

end Sys2Proof

namespace Sys2Proof.Machine

/-! Validation comes before every result (R86, R109). -/

/-- Settles O11: validation reports some symbol unless all are valid, and what it reports is raised at once. -/
theorem shortCircuitIsNotObservable : Obligations.ShortCircuitIsNotObservable := by
  rintro i s hA ⟨x, hx, c, hc, hinvalid⟩
  rcases hbad : badOperandFrom 0 i.operands with - | e
  · exact absurd ((badOperandFrom_none 0 _).1 hbad x hx c hc) hinvalid
  · obtain ⟨j, p, d, rfl, hat, hd⟩ := badOperandFrom_isInvalid hbad
    rw [Nat.zero_add] at hbad
    refine ⟨j, p, d, exec_badSymbol hA hbad, by simpa only [Option.bind_eq_some_iff] using hat, ?_⟩
    rw [← validSymbol_iff, hd]
    exact Bool.false_ne_true

/-! `evaluate` (R101). -/

section Evaluate
variable {s : State} {i : Instr} {g : Gate} {n : Symbols} {ops : List Symbols} {rest : List HostOp}

/-- The record `evaluate` issues is the one that encodes the gate's call. -/
theorem encode_eq_gateCallRecord (hi : Instr.gateCall? i = some (g, ops)) : encode i = gateCallRecord g ops := by
  cases i with
  | andGate | orGate | notGate | nandGate | norGate | xorGate | xnorGate => cases hi; rfl
  | _ => cases hi

theorem inst?_of_gateCall? (hi : Instr.gateCall? i = some (g, ops)) : i.inst? = none := by
  cases i with
  | andGate | orGate | notGate | nandGate | norGate | xorGate | xnorGate => rfl
  | _ => cases hi

theorem step_evaluate_gate (hp : s.pending = .evaluate n ops :: rest) (hn : n = g.name) :
    step s = runCall (gateCallRecord g ops) { s with pending := rest } := by
  subst hn
  simp only [step, hp, runHostOp, runEvaluate, g.ofName_name]

theorem step_evaluate_of_gateCall? (hp : s.pending = .evaluate n ops :: rest)
    (hi : Instr.gateCall? i = some (g, ops)) (hn : n = g.name) :
    step s = recordRefusal (State.issueCall { s with pending := rest } none)
      (exec i (State.issueCall { s with pending := rest } none)) := by
  have hd : decode (gateCallRecord g ops) = .ok i :=
    encode_eq_gateCallRecord hi ▸ decodeOfEncodeIsIdentity i
  rw [step_evaluate_gate hp hn, runCall_decoded _ hd, inst?_of_gateCall? hi]

theorem step_evaluate_not_operandCount (hp : s.pending = .evaluate n ops :: rest) (hn : n = Gate.name .not)
    (hops : ops.length ≠ 1) :
    step s = .next ((State.issueCall { s with pending := rest } none).refuses .operandCount) := by
  have hd : decode (gateCallRecord .not ops) = .error .operandCount :=
    decode_eq_operandCount_iff.2 ⟨.not, rfl, Opcode.assemble_eq_none_iff.2 (beq_false_of_ne hops)⟩
  exact (step_evaluate_gate hp hn).trans (runCall_operandCount _ hd)

end Evaluate

/-- Settles O7: the record that `evaluate` issues decodes to the call of the gate it names. -/
theorem evaluateRunsTheNamedGate : Obligations.EvaluateRunsTheNamedGate := by
  intro s n ops rest hp
  refine ⟨step_evaluate_of_gateCall? (g := .and) hp rfl, step_evaluate_of_gateCall? (g := .or) hp rfl,
    step_evaluate_of_gateCall? (g := .nand) hp rfl, step_evaluate_of_gateCall? (g := .nor) hp rfl,
    step_evaluate_of_gateCall? (g := .xor) hp rfl, step_evaluate_of_gateCall? (g := .xnor) hp rfl, ?_,
    step_evaluate_not_operandCount hp⟩
  rintro x hn rfl
  exact step_evaluate_of_gateCall? (g := .not) hp rfl hn

/-! The bit function of each gate (R102 to R108, D4). -/

section GateBit
variable {nary : Nary} {bs : List Bit}

theorem gateBit_and_iff : gateBit nary .and bs = true ↔ ∀ b ∈ bs, b = true := by
  simp only [gateBit, List.all_eq_true, id]

theorem gateBit_or_iff : gateBit nary .or bs = true ↔ true ∈ bs := by
  simp only [gateBit, List.any_eq_true, id, exists_eq_right]

theorem gateBit_xor_iff : gateBit nary .xor bs = true ↔ bs.count true % 2 = 1 :=
  oddParity_iff bs

theorem gateBit_nand_standard : gateBit .standard .nand bs = !gateBit .standard .and bs := rfl

theorem gateBit_nor_standard : gateBit .standard .nor bs = !gateBit .standard .or bs := rfl

theorem gateBit_xnor_standard : gateBit .standard .xnor bs = !gateBit .standard .xor bs := rfl

theorem gateBit_nand_leftFold : gateBit .leftFold .nand bs = foldGate (fun x y => !(x && y)) bs := rfl

theorem gateBit_nor_leftFold : gateBit .leftFold .nor bs = foldGate (fun x y => !(x || y)) bs := rfl

theorem gateBit_xnor_leftFold_iff (h : bs ≠ []) :
    gateBit .leftFold .xnor bs = true ↔ (bs.count true + bs.length) % 2 = 0 := by
  obtain ⟨b, r, rfl⟩ := List.exists_cons_of_ne_nil h
  have hcount : (b :: r).count true = r.count true + b.toNat := by cases b <;> simp
  rw [gateBit, foldGate, foldl_xnor, hcount, List.length_cons]
  omega

theorem foldGate_map_cons {α : Type} (f : Bit → Bit → Bit) (v : α → Bit) (a : α) (l : List α) :
    foldGate f ((a :: l).map v) = l.foldl (fun acc x => f acc (v x)) (v a) :=
  List.foldl_map

theorem count_true_map {α : Type} (v : α → Bit) (l : List α) : (l.map v).count true = l.countP v := by
  simp only [List.count_eq_countP, List.countP_map, Function.comp_def, beq_true]

end GateBit

/-! Each gate on accepted operands of valid symbols, bit by bit (R100). -/

theorem exec_gate_bits {s : State} {i : Instr} {g : Gate} {ops : List Symbols} (hi : Instr.gateCall? i = some (g, ops))
    (hA : Accepts s i = true) (hv : AllSymbolsValid i.operands) :
    ∃ y, exec i s = .next (s.returns [knownBits y]) ∧ y.length = maxWidth (ops.map bitsOf) ∧
      ∀ j < y.length, bitAt y j = gateBit s.params.nary g (ops.map fun x => bitAt (bitsOf x) j) := by
  refine ⟨_, exec_gate_ok hi hA hv, gateVec_length _ _, fun j hj => ?_⟩
  rw [bitAt_gateVec _ _ (by rwa [gateVec_length] at hj), List.map_map, Function.comp_def]

/-- Settles O22: the bit function of AND is the conjunction of a list. -/
theorem andResult : Obligations.AndResult := by
  intro s ops hA hv
  obtain ⟨y, hexec, hwidth, hbit⟩ := exec_gate_bits (i := .andGate ops) rfl hA hv
  refine ⟨y, hexec, hwidth, fun j hj => ?_⟩
  rw [hbit j hj, gateBit_and_iff, List.forall_mem_map]

/-- Settles O23: the bit function of OR is the disjunction of a list. -/
theorem orResult : Obligations.OrResult := by
  intro s ops hA hv
  obtain ⟨y, hexec, hwidth, hbit⟩ := exec_gate_bits (i := .orGate ops) rfl hA hv
  refine ⟨y, hexec, hwidth, fun j hj => ?_⟩
  rw [hbit j hj, gateBit_or_iff, List.mem_map]

/-- Settles O24: the widest of one operand is that operand, and the bit function of NOT complements its bit. -/
theorem notResult : Obligations.NotResult := by
  intro s x hA hv
  obtain ⟨y, hexec, hwidth, hbit⟩ := exec_gate_bits (i := .notGate x) rfl hA hv
  rw [List.map_singleton, maxWidth_single, bitsOf_length] at hwidth
  exact ⟨y, hexec, hwidth, fun j hj => hbit j (hwidth ▸ hj)⟩

/-- Settles O25: the bit function of XOR is odd parity, whatever NARY is. -/
theorem xorResult : Obligations.XorResult := by
  intro s ops hA hv
  obtain ⟨y, hexec, hwidth, hbit⟩ := exec_gate_bits (i := .xorGate ops) rfl hA hv
  refine ⟨y, hexec, hwidth, fun j hj => ?_⟩
  rw [hbit j hj, gateBit_xor_iff, count_true_map]

/-- Settles O26: under Standard the complement of AND, under LeftFold the fold over the operands' bits. -/
theorem nandResult : Obligations.NandResult := by
  intro s ops hA hv
  obtain ⟨y, hexec, hwidth, hbit⟩ := exec_gate_bits (i := .nandGate ops) rfl hA hv
  refine ⟨y, hexec, hwidth, fun hnary j hj => ?_, ?_⟩
  · rw [hbit j hj, hnary, gateBit_nand_standard, Bool.not_eq_true', ← Bool.not_eq_true, gateBit_and_iff,
      List.forall_mem_map]
  · rintro hnary a rest rfl j hj
    rw [hbit j hj, hnary, gateBit_nand_leftFold, foldGate_map_cons]

/-- Settles O27: under Standard the complement of OR, under LeftFold the fold over the operands' bits. -/
theorem norResult : Obligations.NorResult := by
  intro s ops hA hv
  obtain ⟨y, hexec, hwidth, hbit⟩ := exec_gate_bits (i := .norGate ops) rfl hA hv
  refine ⟨y, hexec, hwidth, fun hnary j hj => ?_, ?_⟩
  · rw [hbit j hj, hnary, gateBit_nor_standard, Bool.not_eq_true', ← Bool.not_eq_true, gateBit_or_iff, List.mem_map]
    simp only [not_exists, not_and, Bool.not_eq_true]
  · rintro hnary a rest rfl j hj
    rw [hbit j hj, hnary, gateBit_nor_leftFold, foldGate_map_cons]

/-- Settles O28: under Standard the complement of XOR, under LeftFold the parity of the ones and of the operands, of
which an accepted call has some. -/
theorem xnorResult : Obligations.XnorResult := by
  intro s ops hA hv
  obtain ⟨y, hexec, hwidth, hbit⟩ := exec_gate_bits (i := .xnorGate ops) rfl hA hv
  have hops : ops ≠ [] := by
    rintro rfl
    exact Bool.false_ne_true hA
  refine ⟨y, hexec, hwidth, fun hnary j hj => ?_, fun hnary j hj => ?_⟩
  · rw [hbit j hj, hnary, gateBit_xnor_standard, Bool.not_eq_true', ← Bool.not_eq_true, gateBit_xor_iff,
      count_true_map, Nat.mod_two_not_eq_one]
  · rw [hbit j hj, hnary, gateBit_xnor_leftFold_iff (List.map_eq_nil_iff.not.2 hops), count_true_map,
      List.length_map]

/-! The laws of R110: from the bit functions to vectors of one width. -/

/-- A law of two bit functions is one of the vectors they compute. -/
theorem gateVec_eq_of_bits {f f' : List Bit → Bit} {vs vs' : List BitVector} (hw : maxWidth vs = maxWidth vs')
    (h : ∀ i < maxWidth vs, f (vs.map fun v => bitAt v i) = f' (vs'.map fun v => bitAt v i)) :
    gateVec f vs = gateVec f' vs' := by
  refine eq_of_bitAt (by simpa only [gateVec_length] using hw) fun i hi => ?_
  rw [gateVec_length] at hi
  rw [bitAt_gateVec f vs hi, bitAt_gateVec f' vs' (hw ▸ hi), h i hi]

/-- NOT of a gate's result is the gate of the complemented bit function. -/
theorem gateVec_not_gateVec (nary : Nary) (f : List Bit → Bit) (vs : List BitVector) :
    gateVec (gateBit nary .not) [gateVec f vs] = gateVec (fun bs => !f bs) vs := by
  have hw : maxWidth [gateVec f vs] = maxWidth vs := by rw [maxWidth_single, gateVec_length]
  refine gateVec_eq_of_bits hw fun i hi => ?_
  rw [List.map_singleton, bitAt_gateVec f vs (hw ▸ hi)]
  rfl

theorem gateVec_pair_comm {f : List Bit → Bit} (hf : ∀ x y, f [x, y] = f [y, x]) (a b : BitVector) :
    gateVec f [a, b] = gateVec f [b, a] :=
  gateVec_eq_of_bits (by rw [maxWidth_pair, maxWidth_pair, max_comm]) fun _ _ => hf _ _

theorem gateVec_triple_assoc {f : List Bit → Bit} (hf : ∀ x y z, f [x, y, z] = f [f [x, y], z]) {a b c : BitVector}
    (hab : a.length = b.length) (hbc : b.length = c.length) :
    gateVec f [a, b, c] = gateVec f [gateVec f [a, b], c] := by
  have hw : maxWidth [a, b, c] = b.length := by simp [maxWidth, hab, ← hbc]
  refine gateVec_eq_of_bits (by simp [hw, hab, ← hbc]) fun i hi => ?_
  have hi' : i < maxWidth [a, b] := by simpa only [maxWidth_pair, hab, max_self, hw] using hi
  simp only [List.map_cons, List.map_nil, bitAt_gateVec f [a, b] hi', hf]

theorem gateBit_pair_comm {g : Gate} (hg : g ≠ .not) (x y : Bit) :
    gateBit .standard g [x, y] = gateBit .standard g [y, x] := by
  cases g with
  | not => exact absurd rfl hg
  | and | nand => simp [gateBit, Bool.and_comm]
  | or | nor => simp [gateBit, Bool.or_comm]
  | xor | xnor => simp [gateBit, oddParity, Bool.xor_comm]

theorem gateBit_triple_assoc {g : Gate} (hg : g = .and ∨ g = .or ∨ g = .xor) (x y z : Bit) :
    gateBit .standard g [x, y, z] = gateBit .standard g [gateBit .standard g [x, y], z] := by
  rcases hg with rfl | rfl | rfl
  · simp [gateBit, Bool.and_assoc]
  · simp [gateBit, Bool.or_assoc]
  · simp [gateBit, oddParity]

/-- Settles O29: each law holds of the bit functions, and a vector is its bits. -/
theorem gateLaws : Obligations.GateLaws := by
  refine ⟨fun vs _ _ => ?_, fun g a b hg _ => gateVec_pair_comm (gateBit_pair_comm hg) a b,
    fun g a b c hg hab hbc => gateVec_triple_assoc (gateBit_triple_assoc hg) hab hbc⟩
  simp only [gateVec_not_gateVec]
  exact ⟨rfl, rfl, rfl⟩

/-! TEST_GATE (R120). -/

section TestGate
variable {s : State} {gate : OpName} {g : Gate} {n : Int} {sink : Nat}

theorem exec_gateInstr {ops : List Symbols} (h : g.arityOk ops.length = true) :
    exec (g.instr ops) s = gateCall g ops s := by
  cases g with
  | not =>
    obtain ⟨x, rfl⟩ := List.length_eq_one_iff.1 (eq_of_beq h)
    simp only [Gate.instr, List.flatten_singleton, exec, execNotGate]
  | and | or | nand | nor | xor | xnor => rfl

/-- The one-bit operand strings that present a pattern, most significant bit first. -/
def oneBitOperands (p : BitVector) : List Symbols := p.map fun b => [if b then '1' else '0']

@[simp] theorem oneBitOperands_length (p : BitVector) : (oneBitOperands p).length = p.length :=
  List.length_map _

theorem oneBitOperands_nonZeroWidth (p : BitVector) : (oneBitOperands p).all nonZeroWidth = true := by
  simp [oneBitOperands, nonZeroWidth]

theorem oneBitOperands_valid (p : BitVector) : AllSymbolsValid (oneBitOperands p) := by
  simp only [AllSymbolsValid, oneBitOperands, List.forall_mem_map, List.forall_mem_singleton]
  rintro (_ | _) -
  · exact .inl rfl
  · exact .inr rfl

theorem bitsOf_oneBitOperands (p : BitVector) : (oneBitOperands p).map bitsOf = p.map fun b => [b] := by
  rw [oneBitOperands, List.map_map]
  refine List.map_congr_left fun b _ => ?_
  cases b <;> rfl

theorem maxWidth_map_singleton {p : BitVector} (hp : p ≠ []) : maxWidth (p.map fun b => [b]) = 1 := by
  obtain ⟨b, r, rfl⟩ := List.exists_cons_of_ne_nil hp
  induction r generalizing b with
  | nil => rfl
  | cons c r ih => exact (congrArg (max 1) (ih c (List.cons_ne_nil c r))).trans (max_self 1)

/-- On one-bit operands a gate's result is the one bit of its bit function. -/
theorem gateVec_map_singleton (f : List Bit → Bit) {p : BitVector} (hp : p ≠ []) :
    gateVec f (p.map fun b => [b]) = [f p] := by
  have hw := maxWidth_map_singleton hp
  refine eq_of_bitAt (by rw [gateVec_length, hw, List.length_singleton]) fun i hi => ?_
  rw [gateVec_length, hw, Nat.lt_one_iff] at hi
  subst hi
  rw [bitAt_gateVec f _ (by rw [hw]; exact Nat.one_pos), List.map_map]
  exact congrArg f (List.map_id p)

theorem exec_gateInstr_oneBitOperands {p : BitVector} (h : g.arityOk p.length = true) :
    exec (g.instr (oneBitOperands p)) s = .next (s.returns [[.known (gateBit s.params.nary g p)]]) := by
  have harity : g.arityOk (oneBitOperands p).length = true := by rwa [oneBitOperands_length]
  have hp : p ≠ [] := List.ne_nil_of_length_pos (Gate.pos_of_arityOk h)
  rw [exec_gateInstr harity, gateCall_ok harity (oneBitOperands_nonZeroWidth p) (oneBitOperands_valid p),
    bitsOf_oneBitOperands, gateVec_map_singleton _ hp]
  rfl

theorem gateRecords_length (nary : Nary) (g : Gate) (k sink : Nat) : (gateRecords nary g k sink).length = 2 ^ k := by
  rw [gateRecords, List.length_map, List.length_range]

theorem gateRecords_getElem? (nary : Nary) (g : Gate) {k c : Nat} (sink : Nat) (hk : 0 < k) (hc : c < 2 ^ k) :
    (gateRecords nary g k sink)[c]? = some
      { sink := sink, inputs := (bitsNat k c).map fun b => [b], output := [gateBit nary g (bitsNat k c)] } := by
  have hp : bitsNat k c ≠ [] := List.ne_nil_of_length_pos (by rwa [bitsNat_length])
  simp only [gateRecords, List.getElem?_map, List.getElem?_range hc, Option.map_some, gateVec_map_singleton _ hp]

theorem exec_testGate_refused (hg : gate.gate? = some g) (h : ¬g.inputsOk n = true) :
    exec (.testGate gate n sink) s = .refused (.illFormed .operandCount) := by
  simp only [exec, execTestGate, hg, if_neg h, refuseCall]

/-- On a legal input count the records are the truth table of the gate's calls, in ascending order. -/
theorem exec_testGate_records (hg : gate.gate? = some g) (h : g.inputsOk n = true) :
    ∃ rs, exec (.testGate gate n sink) s = .next ((s.deliver rs).returns []) ∧ rs.length = 2 ^ n.toNat ∧
      ∀ c < 2 ^ n.toNat, ∃ (p : BitVector) (y : Bit), (p.length : Int) = n ∧ udec p = c ∧
        rs[c]? = some { sink := sink, inputs := p.map fun b => [b], output := [y] } ∧
        exec (g.instr (oneBitOperands p)) s = .next (s.returns [[.known y]]) := by
  have haccepts : Accepts s (.testGate gate n sink) = true := by simpa only [Accepts, Instr.wf, hg] using h
  refine ⟨_, exec_testGate_ok hg haccepts, gateRecords_length _ _ _ _, fun c hc => ?_⟩
  obtain ⟨hnonneg, harity⟩ := (Bool.and_eq_true _ _).mp h
  refine ⟨bitsNat n.toNat c, _, ?_, ?_, gateRecords_getElem? _ _ _ (Gate.pos_of_arityOk harity) hc,
    exec_gateInstr_oneBitOperands (by rwa [bitsNat_length])⟩
  · rw [bitsNat_length, Int.toNat_of_nonneg (of_decide_eq_true hnonneg)]
  · rw [udec_bitsNat, Nat.mod_eq_of_lt hc]

end TestGate

/-- Settles O30: the list of the statement is the gate table by selector and by name. -/
theorem testGateResult : Obligations.TestGateResult := by
  intro s gate n sink call isNot hmem
  obtain ⟨g, hg, rfl, rfl⟩ : ∃ g : Gate, gate.gate? = some g ∧ g.instr = call ∧ (g == .not) = isNot := by
    change _ ∈ gateTable.map (fun g => (OpName.sel g.opcode.selector, g.instr, g == .not)) ++
      gateTable.map (fun g => (OpName.name g.name, g.instr, g == .not)) at hmem
    rcases List.mem_append.1 hmem with h | h
    · obtain ⟨g, -, hrow⟩ := List.mem_map.1 h
      cases hrow
      exact ⟨g, OpName.gate?_sel g, rfl, rfl⟩
    · obtain ⟨g, -, hrow⟩ := List.mem_map.1 h
      cases hrow
      exact ⟨g, OpName.gate?_name g, rfl, rfl⟩
  rw [← g.inputsOk_iff]
  exact ⟨exec_testGate_records hg, exec_testGate_refused hg⟩

end Sys2Proof.Machine

/-! SUPPORT. Proofs of the arithmetic family (spec/42_arithmetic.md): the adders with their laws, negation, equality
and the zero test. -/

namespace Sys2Proof.Machine

/-! The one-bit adders (R140, R141). -/

theorem halfAdder_value (a b : Bit) :
    2 * (halfAdder a b).2.toNat + (halfAdder a b).1.toNat = a.toNat + b.toNat := by
  cases a <;> cases b <;> rfl

/-- The value of a one-bit operand is its Bit. -/
theorem udec_bitsOf_oneBit {x : Symbols} (h : oneBitWide x = true) : udec (bitsOf x) = (bitOf x).toNat := by
  obtain ⟨c, rfl⟩ := List.length_eq_one_iff.1 (of_decide_eq_true h)
  simp [bitOf, bitsOf, udec]

/-- Settles O31: the call returns the half adder's bits, whose value is the sum of two one-bit values. -/
theorem halfAddResult : Obligations.HalfAddResult := by
  intro s a b hA hv
  obtain ⟨ha, hb⟩ : oneBitWide a = true ∧ oneBitWide b = true := (Bool.and_eq_true _ _).mp hA
  refine ⟨_, _, exec_halfAdd_ok hA hv, rfl, rfl, ?_⟩
  rw [halfAdder_value, udec_bitsOf_oneBit ha, udec_bitsOf_oneBit hb]

/-- Settles O32: the call returns the full adder's bits, whose value is the sum of three one-bit values. -/
theorem fullAddResult : Obligations.FullAddResult := by
  intro s a b cin hA hv
  obtain ⟨hab, hcin⟩ := (Bool.and_eq_true _ _).mp hA
  obtain ⟨ha, hb⟩ := (Bool.and_eq_true _ _).mp hab
  refine ⟨_, _, exec_fullAdd_ok hA hv, rfl, rfl, ?_⟩
  rw [fullAdder_value, udec_bitsOf_oneBit ha, udec_bitsOf_oneBit hb, udec_bitsOf_oneBit hcin]

/-! ADD (R143). -/

/-- Settles O33: the value and the width of the carry chain's result, on the operands' widths. -/
theorem addResult : Obligations.AddResult := by
  intro s a b hA hv
  refine ⟨_, exec_add_ok hA hv, addVec_value _ _, ?_⟩
  simpa only [maxWidth_pair, bitsOf_length] using addVec_length (bitsOf a) (bitsOf b)

/-! The signed value of a vector (R9). -/

section Signed
variable {n : Nat} {v : BitVector}

theorem sdec_cons (b : Bit) (v : BitVector) : sdec (b :: v) = udec v - b.toNat * 2 ^ v.length := by
  simp only [sdec, udec, List.headD_cons, List.length_cons]
  push_cast
  ring

theorem sdec_bounds (h : v.length = n + 1) : -2 ^ n ≤ sdec v ∧ sdec v < 2 ^ n := by
  obtain ⟨b, u, rfl⟩ := List.exists_cons_of_length_eq_add_one h
  have hu : (udec u : Int) < 2 ^ u.length := mod_cast udec_lt u
  obtain rfl : u.length = n := Nat.succ.inj h
  rw [sdec_cons]
  cases b
  · simp; omega
  · simp; omega

/-- The most significant bit is the sign. -/
theorem bitAt_top (h : v.length = n + 1) : bitAt v n = decide (sdec v < 0) := by
  obtain ⟨b, u, rfl⟩ := List.exists_cons_of_length_eq_add_one h
  have hu : (udec u : Int) < 2 ^ u.length := mod_cast udec_lt u
  obtain rfl : u.length = n := Nat.succ.inj h
  rw [sdec_cons, bitAt_eq_getD (Nat.lt_succ_self _)]
  cases b
  · simp
  · simp; omega

end Signed

/-! The carry chain at its top position (R142). -/

theorem rippleLsb_concat (c a b : Bit) {as bs : BitVector} (h : as.length = bs.length) :
    rippleLsb c (as ++ [a]) (bs ++ [b]) =
      ((rippleLsb c as bs).1 ++ [(fullAdder a b (carryAt (rippleLsb c as bs).2 as.length)).1],
        (rippleLsb c as bs).2 ++ [(fullAdder a b (carryAt (rippleLsb c as bs).2 as.length)).2]) := by
  induction as generalizing c bs with
  | nil =>
    obtain rfl := List.length_eq_zero_iff.1 h.symm
    rfl
  | cons x as ih =>
    obtain ⟨y, bs, rfl⟩ := List.exists_cons_of_length_eq_add_one h.symm
    simp only [List.cons_append, rippleLsb, ih _ (Nat.succ.inj h), List.length_cons, carryAt, List.getD_cons_succ]

theorem chain_carries_length {a b : BitVector} (h : a.length = b.length) :
    (chain a b).2.length = a.length + 1 := by
  simpa [chain] using rippleLsb_carries_length false (as := a.reverse) (bs := b.reverse) (by simpa using h)

theorem chain_cons (a b : Bit) {u v : BitVector} (h : u.length = v.length) :
    chain (a :: u) (b :: v) =
      ((fullAdder a b (carryAt (chain u v).2 u.length)).1 :: (chain u v).1,
        (chain u v).2 ++ [(fullAdder a b (carryAt (chain u v).2 u.length)).2]) := by
  have hrev : u.reverse.length = v.reverse.length := by simpa using h
  simp only [chain, List.reverse_cons, rippleLsb_concat false a b hrev, List.reverse_append, List.length_reverse,
    List.reverse_nil, List.nil_append, List.cons_append]

/-- The signed sum is exact up to what the last two carries differ by (R145). -/
theorem chain_signed {n : Nat} {a b : BitVector} (ha : a.length = n + 1) (hb : b.length = n + 1) :
    sdec (chain a b).1 + ((carryAt (chain a b).2 n).toNat - (carryAt (chain a b).2 (n + 1)).toNat) * 2 ^ (n + 1) =
      sdec a + sdec b := by
  obtain ⟨x, u, rfl⟩ := List.exists_cons_of_length_eq_add_one ha
  obtain ⟨y, v, rfl⟩ := List.exists_cons_of_length_eq_add_one hb
  obtain rfl : u.length = n := Nat.succ.inj ha
  have huv : u.length = v.length := (Nat.succ.inj hb).symm
  have hlow : carryAt (chain (x :: u) (y :: v)).2 u.length = carryAt (chain u v).2 u.length := by
    simp [chain_cons x y huv, carryAt, chain_carries_length huv]
  have htop : carryAt (chain (x :: u) (y :: v)).2 (u.length + 1) =
      (fullAdder x y (carryAt (chain u v).2 u.length)).2 := by
    simp [chain_cons x y huv, carryAt, chain_carries_length huv]
  rw [hlow, htop, chain_cons x y huv, sdec_cons, sdec_cons, sdec_cons, chain_length huv, ← huv]
  have hvalue := congrArg (Nat.cast (R := Int)) (chain_value huv)
  have hbit := congrArg (Nat.cast (R := Int)) (fullAdder_value x y (carryAt (chain u v).2 u.length))
  push_cast at hvalue hbit
  linear_combination hvalue - 2 ^ u.length * hbit

/-! ADD_FIXED (R144) and its laws (R145). -/

section AddFixed
variable {n : Nat} {a b : BitVector}

theorem addFixedVec_length (ha : a.length ≤ n) (hb : b.length ≤ n) : (addFixedVec n a b).1.length = n := by
  simp only [addFixedVec]
  rw [chain_length (by rw [zext_length ha, zext_length hb]), zext_length ha]

theorem addFixedVec_value (ha : a.length ≤ n) (hb : b.length ≤ n) :
    2 ^ n * (addFixedVec n a b).2.1.toNat + udec (addFixedVec n a b).1 = udec a + udec b := by
  have hvalue := chain_value (a := zext n a) (b := zext n b) (by rw [zext_length ha, zext_length hb])
  rw [zext_length ha, udec_zext, udec_zext] at hvalue
  rw [← hvalue, addFixedVec]
  ring

/-- The signed sum is exact without overflow, and off by 2^N with it. -/
theorem addFixedVec_signed (ha : a.length ≤ n + 1) (hb : b.length ≤ n + 1) :
    let r := addFixedVec (n + 1) a b
    let total := sdec (zext (n + 1) a) + sdec (zext (n + 1) b)
    (r.2.2 = false ∧ sdec r.1 = total) ∨ (r.2.2 = true ∧ sdec r.1 = total - 2 ^ (n + 1)) ∨
      (r.2.2 = true ∧ sdec r.1 = total + 2 ^ (n + 1)) := by
  have hsigned := chain_signed (zext_length ha) (zext_length hb)
  simp only [addFixedVec, Nat.add_sub_cancel]
  rw [← hsigned]
  generalize carryAt (chain (zext (n + 1) a) (zext (n + 1) b)).2 n = cin
  generalize carryAt (chain (zext (n + 1) a) (zext (n + 1) b)).2 (n + 1) = cout
  cases cin <;> cases cout <;> simp

end AddFixed

/-- Settles O34: the signed sum is one of three values, and the ranges of the operands and of the result tell which. -/
theorem addFixedResult : Obligations.AddFixedResult := by
  intro s n a b hA hv
  obtain ⟨hna, hb⟩ := (Bool.and_eq_true _ _).mp hA
  obtain ⟨hn, ha⟩ := (Bool.and_eq_true _ _).mp hna
  obtain ⟨n, rfl⟩ := Nat.exists_eq_add_one.2 (of_decide_eq_true hn)
  have hwa := fitsPort_le ha
  have hwb := fitsPort_le hb
  have hlen := addFixedVec_length hwa hwb
  refine ⟨_, _, _, exec_addFixed_ok hA hv, hlen, addFixedVec_value hwa hwb, ?_⟩
  rw [Nat.add_sub_cancel, ← bitAt_zext (n + 1) (bitsOf a), ← bitAt_zext (n + 1) (bitsOf b),
    bitAt_top (zext_length hwa), bitAt_top (zext_length hwb), bitAt_top hlen]
  have hra := sdec_bounds (zext_length hwa)
  have hrb := sdec_bounds (zext_length hwb)
  have hrs := sdec_bounds hlen
  have hcases := addFixedVec_signed hwa hwb
  simp only [pow_succ, ne_eq, decide_eq_decide] at hcases ⊢
  -- Exact, and so in range; too great, so both operands are nonnegative; or too small, so both are negative.
  rcases hcases with ⟨hov, hsum⟩ | ⟨hov, hsum⟩ | ⟨hov, hsum⟩
  · simp only [hov, reduceCtorEq, false_iff, true_imp_iff, false_imp_iff, true_and]
    omega
  · simp only [hov, reduceCtorEq, true_iff, true_imp_iff, false_imp_iff, true_and]
    omega
  · simp only [hov, reduceCtorEq, true_iff, true_imp_iff, false_imp_iff, true_and]
    omega

/-! TWO_COMPLEMENT (R150). -/

/-- The complement plus one is at least as wide as the operand. -/
theorem length_le_addVec_not_one (v : BitVector) : v.length ≤ (addVec (v.map not) (zext v.length [true])).length := by
  rw [addVec_length, maxWidth_pair, List.length_map]
  split_ifs <;> omega

@[simp] theorem twoComplementVec_length (v : BitVector) : (twoComplementVec v).length = v.length :=
  trunc_length (length_le_addVec_not_one v)

theorem udec_twoComplementVec (v : BitVector) :
    udec (twoComplementVec v) = (2 ^ v.length - udec v) % 2 ^ v.length := by
  have hone : udec [true] = 1 := rfl
  have hnot : udec (v.map not) + 1 = 2 ^ v.length - udec v := by
    have := udec_map_not v
    omega
  rw [twoComplementVec, udec_trunc (length_le_addVec_not_one v), addVec_value, udec_zext, hone, hnot]

/-- Settles O35: the complement plus one is `2^w` less the value. -/
theorem twoComplementResult : Obligations.TwoComplementResult := by
  intro s x hA hv
  refine ⟨_, exec_twoComplement_ok hA hv, ?_, ?_⟩
  · rw [twoComplementVec_length, bitsOf_length]
  · rw [udec_twoComplementVec, bitsOf_length]

/-- Settles O36: the value modulo `2^w` comes back, and a vector is its width and its value. -/
theorem negationIsAnInvolution : Obligations.NegationIsAnInvolution := by
  intro v
  have hlt := udec_lt v
  refine udec_inj (by simp) ?_
  rw [udec_twoComplementVec, twoComplementVec_length, udec_twoComplementVec]
  rcases Nat.eq_zero_or_pos (udec v) with h0 | hpos
  · rw [h0, Nat.sub_zero, Nat.mod_self, Nat.sub_zero, Nat.mod_self]
  · rw [Nat.mod_eq_of_lt (Nat.sub_lt_self hpos hlt.le), Nat.sub_sub_self hlt.le, Nat.mod_eq_of_lt hlt]

/-! EQ (R151) and ZERO (R152). -/

/-- Settles O37: vectors extended to one width are equal exactly where their values are. -/
theorem eqResult : Obligations.EqResult := fun _ _ _ hA hv =>
  ⟨_, exec_eqCompare_ok hA hv, eqVec_iff _ _⟩

section Concat
variable {p : Port} {x : Symbols}

theorem firstMisfit_concat (hp : p.misfit x = none) (ports : List (Port × Symbols)) :
    firstMisfit (ports ++ [(p, x)]) = firstMisfit ports := by
  induction ports with
  | nil => simp [firstMisfit, hp]
  | cons y r ih => simp only [List.cons_append, firstMisfit, ih]

theorem badOperandFrom_concat (hx : AllSymbolsValid [x]) (k : Nat) (ops : List Symbols) :
    badOperandFrom k (ops ++ [x]) = badOperandFrom k ops := by
  induction ops generalizing k with
  | nil => exact (badOperandFrom_none k [x]).2 hx
  | cons y r ih => simp only [List.cons_append, badOperandFrom, ih]

/-- A last operand that fits its port and is valid makes no difference to the front of a call. -/
theorem callFront_concat (hp : p.misfit x = none) (hx : AllSymbolsValid [x]) (inst : Option Nat)
    (legal : Option IllFormed) (ports : List (Port × Symbols)) (s : State) (k : Result) :
    callFront inst legal (ports ++ [(p, x)]) s k = callFront inst legal ports s k := by
  simp only [callFront, firstMisfit_concat hp, List.map_append, List.map_singleton, badOperandFrom_concat hx]

end Concat

theorem udec_eq_zero_iff (v : BitVector) : udec v = 0 ↔ ∀ b ∈ v, b = false := by
  induction v with
  | nil => simp [udec]
  | cons b v ih => simp [udec, ih]

theorem bitsOf_all_false_iff {x : Symbols} (hv : AllSymbolsValid [x]) :
    (∀ b ∈ bitsOf x, b = false) ↔ ∀ c ∈ x, c = '0' := by
  rw [bitsOf, List.forall_mem_map]
  refine forall₂_congr fun c hc => ?_
  rcases hv x (List.mem_singleton_self x) c hc with rfl | rfl <;> decide

theorem zeroVec_iff (v : BitVector) : zeroVec v = true ↔ ∀ b ∈ v, b = false :=
  (eqVec_iff v [false]).trans (udec_eq_zero_iff v)

/-- Settles O38: the operand "0" passes every front, and a vector has value 0 where all its bits are 0. -/
theorem zeroResult : Obligations.ZeroResult := by
  refine ⟨fun s x => ?_, fun s x hA hv => ⟨_, exec_zeroTest_ok hA hv, ?_⟩⟩
  · exact (callFront_concat (p := .any) (x := ['0']) rfl (by simp [AllSymbolsValid]) none none [(.any, x)] s _).symm
  · rw [zeroVec_iff, bitsOf_all_false_iff hv]

end Sys2Proof.Machine

/-! SUPPORT. Proofs of the selection family (spec/43_selection.md): the input a MUX returns and the line a DEMUX
sets. -/

namespace Sys2Proof.Machine

/-- Settles O39: the input of the selector's number is extended to the widest, which keeps its value. -/
theorem muxResult : Obligations.MuxResult := by
  intro s inputs sel x hA hinputs hsel hx
  have hexec := exec_mux_ok hA (List.forall_mem_append.2 ⟨hinputs, hsel⟩)
  rw [List.getElem?_map, hx] at hexec
  have hmem : bitsOf x ∈ inputs.map bitsOf := List.mem_map_of_mem (List.mem_of_getElem? hx)
  exact ⟨_, hexec, zext_length (le_maxWidth hmem), udec_zext _ _⟩

/-! The lines of a DEMUX (R181), by string position and by bit number. -/

section Demux
variable {order : DemuxOrder} {enable : Bit} {v : BitVector}

@[simp] theorem demuxVec_length (order : DemuxOrder) (enable : Bit) (v : BitVector) :
    (demuxVec order enable v).length = 2 ^ v.length := by
  rw [demuxVec, List.length_map, List.length_range]

theorem demuxVec_getElem? {j : Nat} (hj : j < 2 ^ v.length) :
    (demuxVec order enable v)[j]? = some (enable && j == demuxPosition order (2 ^ v.length) (udec v)) := by
  rw [demuxVec, List.getElem?_map, List.getElem?_range hj, Option.map_some]

theorem demuxVec_stringIndex_getElem?_iff {j : Nat} (hj : j < 2 ^ v.length) :
    (demuxVec .stringIndex enable v)[j]? = some true ↔ enable = true ∧ j = udec v := by
  rw [demuxVec_getElem? hj, Option.some_inj, Bool.and_eq_true, beq_iff_eq, demuxPosition]

/-- Bit number i stands at string position `2^S - 1 - i`, as the selected line does under `lsbNumber`. -/
theorem bitAt_demuxVec_lsbNumber_iff {i : Nat} (hi : i < 2 ^ v.length) :
    bitAt (demuxVec .lsbNumber enable v) i = true ↔ enable = true ∧ i = udec v := by
  have hpos : 2 ^ v.length - 1 - i < 2 ^ v.length := by omega
  have hmirror : 2 ^ v.length - 1 - i = 2 ^ v.length - 1 - udec v ↔ i = udec v := by
    have hline := udec_lt v
    omega
  rw [bitAt_eq_getD (by rwa [demuxVec_length]), demuxVec_length, List.getD_eq_getElem?_getD, demuxVec_getElem? hpos,
    Option.getD_some, Bool.and_eq_true, beq_iff_eq, demuxPosition, hmirror]

end Demux

theorem bitOf_eq_true_iff {x : Symbols} (h : oneBitWide x = true) : bitOf x = true ↔ x = ['1'] := by
  obtain ⟨c, rfl⟩ := List.length_eq_one_iff.1 (of_decide_eq_true h)
  simp [bitOf, bitsOf, symbolBit]

/-- Settles O41: of the `2^S` lines the one of the selector's value takes the enable bit, under either order. -/
theorem demuxResult : Obligations.DemuxResult := by
  intro s e sel hA hv
  obtain ⟨he, -⟩ : oneBitWide e = true ∧ nonZeroWidth sel = true := (Bool.and_eq_true _ _).mp hA
  refine ⟨_, exec_demux_ok hA hv, ?_⟩
  rw [demuxVec_length, ← bitOf_eq_true_iff he, ← bitsOf_length sel]
  refine ⟨rfl, udec_lt _, fun horder j hj => ?_, fun horder i hi => ?_⟩
  · rw [horder, demuxVec_stringIndex_getElem?_iff hj]
  · rw [horder, bitAt_demuxVec_lsbNumber_iff hi]

end Sys2Proof.Machine

/-! SUPPORT. Proofs of the sequential family (spec/44_sequential.md): the synchronous path with and without an edge,
the per-bit rules, the asynchronous lines, and the one update per rising edge. -/

namespace Sys2Proof.Machine

/-! The synchronous path (R201, R202), by what the edge test answers. -/

theorem edgeOf_eq_still {prev : Held Bit} {clk : Bit} (hknown : prev ≠ .uninit ∨ clk = false)
    (hedge : ¬(prev = .known false ∧ clk = true)) : edgeOf prev clk = .still := by
  cases he : edgeOf prev clk with
  | still => rfl
  | rising => exact absurd (edgeOf_eq_rising_iff.1 he).symm hedge
  | unknown =>
    obtain ⟨hclk, hprev⟩ := edgeOf_eq_unknown_iff.1 he
    rcases hknown with h | h
    · exact absurd hprev h
    · rw [hclk] at h; cases h

section Sync
variable {s : State} {inst : Nat} {x : SeqInst} {c : Bit}

theorem seqSync_unknown (hprev : x.prev = .uninit) (hc : c = true) (next : Except Error HeldBits) :
    seqSync inst x c next s = .next (s.raises (some inst) .uninitialisedClock) := by
  simp only [seqSync, edgeOf_eq_unknown_iff.2 ⟨hc, hprev⟩, raise]

theorem seqSync_rising (hedge : x.prev = .known false ∧ c = true) (q : HeldBits) :
    seqSync inst x c (.ok q) s = seqDone inst x q c s := by
  simp only [seqSync, edgeOf_eq_rising_iff.2 hedge.symm]

theorem seqSync_still (hknown : x.prev ≠ .uninit ∨ c = false) (hedge : ¬(x.prev = .known false ∧ c = true))
    (next : Except Error HeldBits) : seqSync inst x c next s = seqDone inst x x.q c s := by
  simp only [seqSync, edgeOf_eq_still hknown hedge]

/-- Where the clock level is recorded or clk = 0, and `next` gives the output `new` on an edge, the call completes. -/
theorem seqSync_completes {next : Except Error HeldBits} {new : HeldBits} (hknown : x.prev ≠ .uninit ∨ c = false)
    (hnext : x.prev = .known false ∧ c = true → next = .ok new) :
    ∃ q, seqSync inst x c next s =
        .next ((s.setInst inst (.seq ⟨x.kind, q, .known c⟩)).returns [q, notq q]) ∧
      (x.prev = .known false ∧ c = true → q = new) ∧ (¬(x.prev = .known false ∧ c = true) → q = x.q) := by
  by_cases hedge : x.prev = .known false ∧ c = true
  · rw [hnext hedge, seqSync_rising hedge]
    exact ⟨new, rfl, fun _ => rfl, fun h => absurd hedge h⟩
  · rw [seqSync_still hknown hedge]
    exact ⟨x.q, rfl, fun h => absurd h hedge, fun _ => rfl⟩

end Sync

/-! The per-bit rules (R203, R209): bit number i stands at string position `n - 1 - i`. -/

section EachBit
variable {f : Held Bit → Bit → Bit → Held Bit}

theorem eachBit_getElem? {q : HeldBits} {a b : BitVector} (ha : a.length = q.length) (hb : b.length = q.length)
    (p : Nat) : (eachBit f q a b)[p]? = q[p]?.map fun h => f h (a.getD p false) (b.getD p false) := by
  induction q generalizing a b p with
  | nil => rfl
  | cons h q ih =>
    obtain ⟨u, a, rfl⟩ := List.exists_cons_of_length_eq_add_one ha
    obtain ⟨v, b, rfl⟩ := List.exists_cons_of_length_eq_add_one hb
    cases p with
    | zero => rfl
    | succ p => simpa [eachBit] using ih (Nat.succ.inj ha) (Nat.succ.inj hb) p

theorem eachBit_zext_getElem? {q : HeldBits} {a b : Symbols} (ha : fitsPort q.length a = true)
    (hb : fitsPort q.length b = true) {i : Nat} (hi : i < q.length) :
    ∃ h, q[q.length - 1 - i]? = some h ∧
      (eachBit f q (zext q.length (bitsOf a)) (zext q.length (bitsOf b)))[q.length - 1 - i]? =
        some (f h (bitAt (bitsOf a) i) (bitAt (bitsOf b) i)) := by
  have hbit : ∀ v : Symbols, fitsPort q.length v = true →
      (zext q.length (bitsOf v)).getD (q.length - 1 - i) false = bitAt (bitsOf v) i := by
    intro v hv
    have hlen := zext_bits_length hv
    rw [← bitAt_zext q.length, bitAt_eq_getD (by rwa [hlen]), hlen]
  obtain ⟨h, hh⟩ : ∃ h, q[q.length - 1 - i]? = some h := ⟨_, List.getElem?_eq_getElem (by omega)⟩
  refine ⟨h, hh, ?_⟩
  rw [eachBit_getElem? (zext_bits_length ha) (zext_bits_length hb), hh, hbit a ha, hbit b hb, Option.map_some]

/-- A synchronous call whose edge takes the per-bit rule `f` of two operands: each bit by its rule on an edge, q held
without one. -/
theorem seqSync_eachBit {s : State} {inst : Nat} {x : SeqInst} {c : Bit} {a b : Symbols}
    {next : Except Error HeldBits} (ha : fitsPort x.q.length a = true) (hb : fitsPort x.q.length b = true)
    (hknown : x.prev ≠ .uninit ∨ c = false)
    (hnext : x.prev = .known false ∧ c = true →
      next = .ok (eachBit f x.q (zext x.q.length (bitsOf a)) (zext x.q.length (bitsOf b)))) :
    ∃ q, seqSync inst x c next s =
        .next ((s.setInst inst (.seq ⟨x.kind, q, .known c⟩)).returns [q, notq q]) ∧
      q.length = x.q.length ∧ (¬(x.prev = .known false ∧ c = true) → q = x.q) ∧
      (x.prev = .known false ∧ c = true → ∀ i < x.q.length, ∃ h, x.q[x.q.length - 1 - i]? = some h ∧
        q[x.q.length - 1 - i]? = some (f h (bitAt (bitsOf a) i) (bitAt (bitsOf b) i))) := by
  obtain ⟨q, hsync, hrise, hhold⟩ := seqSync_completes (s := s) (inst := inst) hknown hnext
  refine ⟨q, hsync, ?_, hhold, fun hedge i hi => ?_⟩
  · by_cases hedge : x.prev = .known false ∧ c = true
    · rw [hrise hedge, eachBit_length (zext_bits_length ha) (zext_bits_length hb)]
    · rw [hhold hedge]
  · rw [hrise hedge]
    exact eachBit_zext_getElem? ha hb hi

end EachBit

/-! The conflict check of SR_FF (R206). -/

theorem conflictFrom_eq_none {s r : BitVector} (h : ∀ j, ¬(s.getD j false = true ∧ r.getD j false = true)) (i : Nat) :
    conflictFrom i s r = none := by
  induction s generalizing r i with
  | nil => rfl
  | cons a s ih =>
    cases r with
    | nil => rfl
    | cons b r =>
      have hbit : ¬(a && b) = true := by simpa using h 0
      rw [conflictFrom, if_neg hbit]
      exact ih (fun j => by simpa using h (j + 1)) (i + 1)

theorem srEdge_eq_ok {q : HeldBits} {s r : BitVector} (h : ∀ i, ¬(bitAt s i = true ∧ bitAt r i = true)) :
    srEdge q s r = .ok (eachBit srNext q s r) := by
  simp only [srEdge, lowestConflict, conflictFrom_eq_none h]

/-! The results of the flip-flops and the register. -/

theorem seqWidth_of_kind {s : State} {inst : Nat} {x : SeqInst} {kind : SeqKind}
    (hx : s.inst? inst = some (.seq x)) (hk : x.kind = kind) : seqWidth s inst kind = x.q.length :=
  hk ▸ seqWidth_of hx

/-- Settles O42: both calls are the synchronous path that loads d, extended to the component's width. -/
theorem dffAndRegisterResult : Obligations.DffAndRegisterResult := by
  intro s inst x d clk hx hd hclk hv hknown
  obtain ⟨q, hsync, hrise, hhold⟩ := seqSync_completes (s := s) (inst := inst) hknown
    (new := knownBits (zext x.q.length (bitsOf d))) fun _ => rfl
  refine ⟨q, hrise, hhold, fun hk => ?_, fun hk => ?_⟩
  · have hA : Accepts s (.dff inst d clk) = true := by simp [Accepts, seqWidth_of_kind hx hk, hd, hclk]
    obtain ⟨y, hy, -, -, hexec⟩ := exec_dff_ok hA hv
    cases hx.symm.trans hy
    exact hexec.trans hsync
  · have hA : Accepts s (.register inst d clk) = true := by simp [Accepts, seqWidth_of_kind hx hk, hd, hclk]
    obtain ⟨y, hy, -, -, hexec⟩ := exec_register_ok hA hv
    cases hx.symm.trans hy
    exact hexec.trans hsync

/-- Settles O43: a set or a clear completes with its constant output, and with neither line the call is the
synchronous path that loads d. -/
theorem dffScResult : Obligations.DffScResult := by
  intro s inst x d set clr clk hx hk hd hset hclr hclk hv hboth hknown
  have hA : Accepts s (.dffSc inst d set clr clk) = true := by
    simp [Accepts, seqWidth_of_kind hx hk, hd, hset, hclr, hclk]
  obtain ⟨y, hy, -, -, hexec⟩ := exec_dffSc_ok hA hv
  cases hx.symm.trans hy
  rcases hs : bitOf set with - | - <;> rcases hc : bitOf clr with - | -
  · obtain ⟨q, hsync, hrise, hhold⟩ := seqSync_completes (s := s) (inst := inst) (x := x) (c := bitOf clk)
      (by simpa [hs, hc] using hknown) (new := knownBits (zext x.q.length (bitsOf d))) fun _ => rfl
    rw [hs, hc] at hexec
    exact ⟨q, hexec.trans hsync, nofun, nofun, fun _ _ => ⟨hrise, hhold⟩⟩
  · rw [hs, hc] at hexec
    exact ⟨_, hexec, nofun, fun _ => rfl, nofun⟩
  · rw [hs, hc] at hexec
    exact ⟨_, hexec, fun _ => rfl, nofun, nofun⟩
  · exact absurd ⟨hs, hc⟩ hboth

/-- Settles O44: without a conflict the edge takes the S-R column of R203 at every bit. -/
theorem srResult : Obligations.SrResult := by
  intro st inst x s r clk hx hk hs hr hclk hv hknown hconflict
  have hA : Accepts st (.srFf inst s r clk) = true := by simp [Accepts, seqWidth_of_kind hx hk, hs, hr, hclk]
  obtain ⟨y, hy, -, -, -, hexec⟩ := exec_srFf_ok hA hv
  cases hx.symm.trans hy
  have hnext : x.prev = .known false ∧ bitOf clk = true →
      srEdge x.q (zext x.q.length (bitsOf s)) (zext x.q.length (bitsOf r)) =
        .ok (eachBit srNext x.q (zext x.q.length (bitsOf s)) (zext x.q.length (bitsOf r))) := by
    refine fun hedge => srEdge_eq_ok fun i => ?_
    rw [bitAt_zext, bitAt_zext]
    rcases Nat.lt_or_ge i x.q.length with hi | hi
    · exact hconflict hedge i hi
    · simp [bitAt_of_le ((fitsPort_le hs).trans hi)]
  obtain ⟨q, hsync, hlen, hhold, hrise⟩ := seqSync_eachBit (s := st) (inst := inst) hs hr hknown hnext
  refine ⟨q, hexec.trans hsync, hlen, hhold, fun hedge i hi => ?_⟩
  obtain ⟨h, hold, hnew⟩ := hrise hedge i hi
  rw [hold, hnew]
  exact ⟨fun hsi => by rw [hsi, srNext], fun hsi hri => by rw [hsi, hri, srNext],
    fun hsi hri => by rw [hsi, hri, srNext]⟩

/-- Settles O45: the edge takes the J-K column of R203 at every bit. -/
theorem jkResult : Obligations.JkResult := by
  intro s inst x j k clk hx hk hj hkk hclk hv hknown
  have hA : Accepts s (.jkFf inst j k clk) = true := by simp [Accepts, seqWidth_of_kind hx hk, hj, hkk, hclk]
  obtain ⟨y, hy, -, -, -, hexec⟩ := exec_jkFf_ok hA hv
  cases hx.symm.trans hy
  obtain ⟨q, hsync, hlen, hhold, hrise⟩ := seqSync_eachBit (s := s) (inst := inst) (f := jkNext) hj hkk hknown
    fun _ => rfl
  refine ⟨q, hexec.trans hsync, hlen, hhold, fun hedge i hi => ?_⟩
  obtain ⟨h, hold, hnew⟩ := hrise hedge i hi
  rw [hold, hnew]
  refine ⟨fun hji hki => by rw [hji, hki, jkNext], fun hji hki => by rw [hji, hki, jkNext],
    fun hji hki => by rw [hji, hki, jkNext], fun hji hki => ⟨?_, ?_⟩⟩
  · rintro b ⟨⟩
    rw [hji, hki, jkNext, heldNot]
  · rintro ⟨⟩
    rw [hji, hki, jkNext, heldNot]

/-! The errors of the clock and of the asynchronous lines. -/

/-- Settles O47: the conflict is looked at before the lines and the edge. -/
theorem asyncSetClearConflictIsRaised : Obligations.AsyncSetClearConflictIsRaised := by
  intro s inst d set clr clk hA hv hset hclr
  obtain ⟨x, -, -, -, hexec⟩ := exec_dffSc_ok hA hv
  rw [hexec, hset, hclr]
  rfl

/-- Settles O46: five calls come to the synchronous path, whose edge test is unknown; the RAM call comes to its own. -/
theorem uninitialisedClockIsRaised : Obligations.UninitialisedClockIsRaised := by
  intro i s inst y clk hA hv hi hy hprev hclk hc hasync hram
  have sync : ∀ {k : Nat} {x : SeqInst} {c : Symbols} {next : Except Error HeldBits}, some k = some inst →
      some c = some clk → s.inst? k = some (.seq x) →
      exec i s = seqSync k x (bitOf c) next s → exec i s = .next (s.raises (some inst) .uninitialisedClock) := by
    rintro k x c next ⟨⟩ ⟨⟩ hx hexec
    cases hy.symm.trans hx
    rw [hexec, seqSync_unknown hprev hc]
  cases i with
  | dff k d c =>
    obtain ⟨x, hx, -, -, hexec⟩ := exec_dff_ok hA hv
    exact sync hi hclk hx hexec
  | register k d c =>
    obtain ⟨x, hx, -, -, hexec⟩ := exec_register_ok hA hv
    exact sync hi hclk hx hexec
  | dffSc k d set clr c =>
    obtain ⟨x, hx, -, -, hexec⟩ := exec_dffSc_ok hA hv
    obtain ⟨hset, hclr⟩ : bitOf set = false ∧ bitOf clr = false := by simpa [assertsAsync] using hasync
    exact sync hi hclk hx (by simpa [hset, hclr] using hexec)
  | srFf k a r c =>
    obtain ⟨x, hx, -, -, -, hexec⟩ := exec_srFf_ok hA hv
    exact sync hi hclk hx hexec
  | jkFf k a r c =>
    obtain ⟨x, hx, -, -, -, hexec⟩ := exec_jkFf_ok hA hv
    exact sync hi hclk hx hexec
  | ram1r k address d write c =>
    cases hi
    cases hclk
    obtain ⟨x, hx, -, -, -, hexec⟩ := exec_ram1r_ok hA hv
    cases hy.symm.trans hx
    obtain ⟨hwrite, hrow⟩ := hram _ _ _ _ rfl
    have hedge : edgeOf x.prev (bitOf clk) = .unknown := edgeOf_eq_unknown_iff.2 ⟨hc, hprev⟩
    rw [hexec, if_neg (Nat.not_le.2 (hrow x rfl)), hwrite, hedge]
    rfl
  | _ => cases hi

/-! What a call does to the flip-flop or register it is on. -/

theorem clockOf_of_inst? {i : Instr} {k : Nat} (hi : i.inst? = some k) : ∃ clk, clockOf i = some clk := by
  cases i with
  | dff | dffSc | srFf | jkFf | register | ram1r => exact ⟨_, rfl⟩
  | _ => cases hi

/-- A call on a flip-flop or register faults, or takes its output and the clock level; the output moves only on a
rising edge or an asynchronous line (R202, R211). -/
theorem exec_seq_cases {i : Instr} {s t : State} {k : Nat} {x : SeqInst} (h : exec i s = .next t)
    (hi : i.inst? = some k) (hx : s.inst? k = some (.seq x)) :
    (∃ e, t = s.raises (some k) e) ∨
      ∃ clk q, clockOf i = some clk ∧
        t = (s.setInst k (.seq { x with q := q, prev := .known (bitOf clk) })).returns [q, notq q] ∧
        (q = x.q ∨ assertsAsync i = true ∨ (bitOf clk = true ∧ x.prev = .known false)) := by
  obtain ⟨clk, hclk⟩ := clockOf_of_inst? hi
  cases exec_clocked h hi hclk with
  | raised e => exact .inl ⟨e, rfl⟩
  | seq y q hy _ hq =>
    cases hx.symm.trans hy
    exact .inr ⟨clk, q, hclk, rfl, hq⟩
  | ram y _ _ _ hy => cases hx.symm.trans hy

theorem State.raises_faults_ne (s : State) (k : Option Nat) (e : Error) : (s.raises k e).faults ≠ s.faults := by
  simp

theorem notq_getElem? (q : HeldBits) (j : Nat) : (notq q)[j]? = q[j]?.map heldNot := List.getElem?_map ..

/-- Settles O50: a call that does not fault returns the output it leaves and `notq` of it. -/
theorem complementOutputHoldsAtEveryReturn : Obligations.ComplementOutputHoldsAtEveryReturn := by
  intro i s t k x h hi hx hf
  rcases exec_seq_cases h hi hx with ⟨e, rfl⟩ | ⟨clk, q, -, rfl, -⟩
  · exact absurd hf (s.raises_faults_ne _ e)
  · refine ⟨_, notq q, State.setInst_inst?_same .., rfl, List.length_map _, fun j => ⟨fun b hb => ?_, fun hu => ?_⟩⟩
    · rw [notq_getElem?, hb, Option.map_some, heldNot]
    · rw [notq_getElem?, hu, Option.map_some, heldNot]

/-! One update per rising edge (R211). -/

/-- A property of the state that every call of a sequence keeps holds after the sequence. -/
theorem execAll_keeps {P : State → Prop} {calls : List Instr} {s t : State}
    (hstep : ∀ i ∈ calls, ∀ u v, exec i u = .next v → P u → P v) (h : execAll calls s = some t) (hs : P s) : P t := by
  induction calls generalizing s with
  | nil => cases h; exact hs
  | cons i calls ih =>
    obtain ⟨hi, hcalls⟩ := List.forall_mem_cons.1 hstep
    unfold execAll at h
    split at h
    · next u hu => exact ih hcalls h (hi s u hu hs)
    · cases h
    · cases h

/-- The flip-flop or register under an identifier has recorded the clock level 1. -/
def RecordedHigh (k : Nat) (s : State) : Prop := ∃ x, s.inst? k = some (.seq x) ∧ x.prev = .known true

/-- If the call is on the component, its clk is 1. -/
def ClockHighOn (k : Nat) (i : Instr) : Prop := i.inst? = some k → ∀ clk, clockOf i = some clk → bitOf clk = true

section High
variable {i : Instr} {s t : State} {k : Nat}

theorem exec_inst?_other (h : exec i s = .next t) (hi : i.inst? ≠ some k) : t.inst? k = s.inst? k :=
  (exec_effect h).inst?_other hi

/-- With clk = 1 on a recorded 1 and no line asserted, the component stays as it is. -/
theorem exec_recordedHigh_eq {x : SeqInst} (h : exec i s = .next t) (hx : s.inst? k = some (.seq x))
    (hprev : x.prev = .known true) (hhigh : ClockHighOn k i) (hasync : i.inst? = some k → assertsAsync i = false) :
    t.inst? k = s.inst? k := by
  by_cases hi : i.inst? = some k
  swap
  · exact exec_inst?_other h hi
  rcases exec_seq_cases h hi hx with ⟨e, rfl⟩ | ⟨clk, q, hclk, rfl, hq⟩
  · rfl
  · obtain rfl : q = x.q := by simpa [hasync hi, hprev] using hq
    rw [State.returns_inst?, State.setInst_inst?_same, hhigh hi clk hclk, hx, ← hprev]

/-- A call that completes on a flip-flop or register with clk = 1 records the level 1. -/
theorem recordedHigh_of_completed {x : SeqInst} (h : exec i s = .next t) (hx : s.inst? k = some (.seq x))
    (hi : i.inst? = some k) (hhigh : ClockHighOn k i) (hf : t.faults = s.faults) : RecordedHigh k t := by
  rcases exec_seq_cases h hi hx with ⟨e, rfl⟩ | ⟨clk, q, hclk, rfl, -⟩
  · exact absurd hf (s.raises_faults_ne _ e)
  · exact ⟨_, State.setInst_inst?_same .., congrArg Held.known (hhigh hi clk hclk)⟩

/-- A call that changes a component is a call on it and does not fault. -/
theorem completed_of_changed (h : exec i s = .next t) (hne : t.inst? k ≠ s.inst? k) :
    i.inst? = some k ∧ t.faults = s.faults := by
  by_cases hi : i.inst? = some k
  swap
  · exact absurd (exec_inst?_other h hi) hne
  refine ⟨hi, ?_⟩
  have he : Effect s (delivers i) (some k) t := hi ▸ exec_effect h
  cases he with
  | raised => exact absurd rfl hne
  | seq | ram => rfl

/-- Calls with clk = 1 keep a recorded 1, whether they complete, asynchronously too, or fault. -/
theorem exec_keeps_recordedHigh (h : exec i s = .next t) (hhigh : ClockHighOn k i) (hs : RecordedHigh k s) :
    RecordedHigh k t := by
  by_cases hne : t.inst? k = s.inst? k
  · rwa [RecordedHigh, hne]
  · obtain ⟨x, hx, -⟩ := hs
    obtain ⟨hi, hf⟩ := completed_of_changed h hne
    exact recordedHigh_of_completed h hx hi hhigh hf

end High

/-- Settles O51: q moves only on an edge or an asynchronous line; with clk = 1 a recorded 1 stays one, and on it a call
without such a line leaves the component as it is. -/
theorem oneUpdatePerRisingEdge : Obligations.OneUpdatePerRisingEdge := by
  refine ⟨?_, ?_, ?_⟩
  · intro i s t k x y clk h hi hclk hx hy hne
    rcases exec_seq_cases h hi hx with ⟨e, rfl⟩ | ⟨c, q, hc, rfl, hq⟩
    · cases hx.symm.trans hy
      exact absurd rfl hne
    · cases hclk.symm.trans hc
      cases (State.setInst_inst?_same ..).symm.trans hy
      exact hq.resolve_left hne
  · intro calls s t k x h hx hprev hcalls
    refine execAll_keeps (P := fun u => u.inst? k = some (.seq x)) (fun i hi u v huv hu => ?_) h hx
    rw [← hu]
    exact exec_recordedHigh_eq huv hu hprev (fun hk => (hcalls i hi hk).2) fun hk => (hcalls i hi hk).1
  · intro i j between s s' s'' t k x y hi hbetween hj hhigh hx hy hfirst hasync
    obtain ⟨hihigh, hrest⟩ := List.forall_mem_cons.1 hhigh
    obtain ⟨hbhigh, hjhigh⟩ := List.forall_mem_append.1 hrest
    obtain ⟨hik, hf⟩ : i.inst? = some k ∧ s'.faults = s.faults := by
      rcases hfirst with hne | hdone
      · refine completed_of_changed hi fun heq => hne ?_
        cases hy.symm.trans (heq.trans hx)
        rfl
      · exact hdone
    obtain ⟨z, hz, hprev⟩ := execAll_keeps (fun c hc u v huv => exec_keeps_recordedHigh huv (hbhigh c hc)) hbetween
      (recordedHigh_of_completed hi hx hik hihigh hf)
    exact exec_recordedHigh_eq hj hz hprev (hjhigh j (List.mem_singleton_self j)) fun _ => hasync

end Sys2Proof.Machine

/-! SUPPORT. Proofs of the storage family (spec/45_storage.md): the clock level a call records, the rows and the output
of a RAM call, and the preload. -/

namespace Sys2Proof.Machine

/-- Settles O49: each shape of a call with a clock faults, and then writes no component, or records the level. -/
theorem completedCallsRecordTheClock : Obligations.CompletedCallsRecordTheClock := by
  intro i s t k clk h hi hclk
  cases exec_clocked h hi hclk with
  | raised e => exact ⟨fun hf => absurd hf (s.raises_faults_ne _ e), fun _ => rfl⟩
  | seq | ram => exact ⟨fun _ => ⟨_, State.setInst_inst?_same .., rfl⟩, fun hf => absurd rfl hf⟩

/-! The RAM call (R250 to R255). -/

section RamCall
variable {s : State} {inst : Nat} {x : RamInst} {address dataIn write clk : Symbols}

theorem accepts_ram1r_iff (hx : s.inst? inst = some (.ram x)) (hl : ramLegal x.rowCount x.addrW x.w = true) :
    Accepts s (.ram1r inst address dataIn write clk) = true ↔
      fitsPort x.addrW address = true ∧ fitsPort x.w dataIn = true ∧ oneBitWide write = true ∧
        oneBitWide clk = true := by
  simp only [Accepts, legalRam?_eq.2 ⟨hx, hl⟩, Bool.and_eq_true, and_assoc]

/-- The rows after a call: the addressed one is replaced on a rising edge with `write`, every other one stays. -/
theorem ramNext_mem_read (x : RamInst) (a d : BitVector) (w c : Bit) (r : Nat) :
    (ramNext x a d w c).mem.read r =
      if w = true ∧ c = true ∧ x.prev = .known false ∧ r = udec a then .known (zext x.w d) else x.mem.read r := by
  by_cases hedge : w = true ∧ c = true ∧ x.prev = .known false
  · rw [ramNext_of_writeEdge hedge]
    by_cases hr : r = udec a
    · simp [hr, hedge]
    · simp [hr, Memory.read_write_other _ hr]
  · rw [ramNext_of_not_writeEdge hedge, if_neg fun ⟨hw, hc, hprev, _⟩ => hedge ⟨hw, hc, hprev⟩]

end RamCall

/-- Settles O53: the call leaves `ramNext` of the RAM and returns the row of it that the address names. -/
theorem ramResult : Obligations.RamResult := by
  intro s inst x address dataIn write clk hx hl haddress hdata hwrite hclk hv hrow hknown
  have hA := (accepts_ram1r_iff hx hl).2 ⟨haddress, hdata, hwrite, hclk⟩
  have hmem := ramNext_mem_read x (zext x.addrW (bitsOf address)) (bitsOf dataIn) (bitOf write) (bitOf clk)
  have hout := ramOut_ramNext (x := x) (w := bitOf write) (c := bitOf clk) (zext x.addrW (bitsOf address))
    (bitsOf dataIn)
  simp only [udec_zext] at hmem hout
  exact ⟨_, _, exec_ram1r_of_lt hx hA hv hrow hknown, hmem, fun v hr => hout.trans (congrArg (rowOut x.w) hr),
    fun hr => hout.trans (congrArg (rowOut x.w) hr)⟩

/-- Settles O54: the output is read from the rows as the call leaves them, the addressed one just written. -/
theorem ramWriteIsReadInTheSameCall : Obligations.RamWriteIsReadInTheSameCall := by
  intro s inst x address dataIn write clk hx hA hv hrow hwrite hclk hprev
  have hknown : ¬(bitOf write = true ∧ bitOf clk = true ∧ x.prev = .uninit) := by simp [hprev]
  refine ⟨_, exec_ram1r_of_lt hx hA hv hrow hknown, ?_⟩
  rw [State.returns_outcomes, State.setInst_outcomes, ramOut_ramNext, ramNext_mem_read,
    if_pos ⟨hwrite, hclk, hprev, rfl⟩, rowOut]

/-! The preload (R256): which values are refused, which row number is reported, and the rows it leaves. -/

theorem misfit_upTo_reason {n : Nat} {v : Symbols} {why : IllFormed} (h : (Port.upTo n).misfit v = some why) :
    (why = .tooWide ∧ n < v.length) ∨ (why = .zeroWidth ∧ v = []) := by
  simp only [Port.misfit] at h
  split_ifs at h with hzero hwide
  · cases h
    exact .inr ⟨rfl, List.length_eq_zero_iff.1 hzero⟩
  · cases h
    exact .inl ⟨rfl, Nat.lt_of_not_le hwide⟩

/-- The reason of a misfit is one that some operand has. -/
theorem exists_misfit_of_firstMisfit {ports : List (Port × Symbols)} {why : IllFormed}
    (h : firstMisfit ports = some why) : ∃ p ∈ ports, p.1.misfit p.2 = some why := by
  induction ports with
  | nil => cases h
  | cons p ports ih =>
    unfold firstMisfit at h
    split at h
    · next hp => cases h; exact ⟨p, List.mem_cons_self, hp⟩
    · obtain ⟨q, hq, hwhy⟩ := ih h
      exact ⟨q, List.mem_cons_of_mem _ hq, hwhy⟩

theorem badRow_eq_some {n : Nat} {rows : List (Nat × Symbols)} {e : Error} (h : badRow n rows = some e) :
    ∃ a, n ≤ a ∧ a ∈ rows.map Prod.fst ∧ e = .addressOutOfRange a := by
  induction rows with
  | nil => cases h
  | cons p rows ih =>
    unfold badRow at h
    split_ifs at h with hp
    · cases h; exact ⟨p.1, hp, List.mem_cons_self, rfl⟩
    · obtain ⟨a, ha, hmem, he⟩ := ih h
      exact ⟨a, ha, List.mem_cons_of_mem _ hmem, he⟩

theorem badRow_eq_none_iff {n : Nat} {rows : List (Nat × Symbols)} :
    badRow n rows = none ↔ ∀ p ∈ rows, p.1 < n := by
  refine ⟨badRow_none, fun h => Option.eq_none_iff_forall_ne_some.2 fun e he => ?_⟩
  obtain ⟨a, ha, hmem, -⟩ := badRow_eq_some he
  obtain ⟨p, hp, rfl⟩ := List.mem_map.1 hmem
  exact absurd (h p hp) (Nat.not_lt.2 ha)

theorem exists_badRow {n : Nat} {rows : List (Nat × Symbols)} (h : ∃ p ∈ rows, n ≤ p.1) :
    ∃ a, n ≤ a ∧ a ∈ rows.map Prod.fst ∧ badRow n rows = some (.addressOutOfRange a) := by
  obtain ⟨p, hp, hle⟩ := h
  have hne : badRow n rows ≠ none := fun hnone => absurd (badRow_none hnone p hp) (Nat.not_lt.2 hle)
  obtain ⟨e, he⟩ := Option.ne_none_iff_exists'.1 hne
  obtain ⟨a, ha, hmem, rfl⟩ := badRow_eq_some he
  exact ⟨a, ha, hmem, he⟩

/-- A row after a preload holds the last value the list gives it, and its old contents if there is none. -/
theorem preloadRows_read (w : Nat) (m : Memory) (rows : List (Nat × Symbols)) (r : Nat) :
    (preloadRows w m rows).read r =
      rows.foldl (fun old p => if p.1 = r then .known (zext w (bitsOf p.2)) else old) (m.read r) := by
  induction rows generalizing m with
  | nil => rfl
  | cons p rows ih =>
    rw [preloadRows, ih, List.foldl_cons]
    by_cases hp : p.1 = r
    · rw [if_pos hp, hp, Memory.read_write_same]
    · rw [if_neg hp, Memory.read_write_other _ (Ne.symm hp)]

section Preload
variable {s : State} {inst : Nat} {x : RamInst} {rows : List (Nat × Symbols)}

theorem step_preload {rest : List HostOp} (hp : s.pending = .preload inst rows :: rest) :
    step s = runPreload inst rows { s with pending := rest } := by
  simp only [step, hp, runHostOp]

theorem runPreload_of_mem_called (h : inst ∈ s.called) :
    runPreload inst rows s = .refused (.preloadAfterCall inst) := by
  simp [runPreload, beforeFirstCall, h]

theorem step_preload_of_not_mem_called {rest : List HostOp} {r : Result}
    (hp : s.pending = .preload inst rows :: rest) (hcalled : inst ∉ s.called)
    (hr : setRows inst rows { s with pending := rest } = r) :
    step s = recordRefusal { s with pending := rest } r := by
  simp [step_preload hp, runPreload, beforeFirstCall, hcalled, hr]

section OnRam
variable (hx : s.inst? inst = some (.ram x)) (hl : ramLegal x.rowCount x.addrW x.w = true)
include hx hl

/-- A value that does not fit a row has the preload refused, for a reason that one of the values has. -/
theorem setRows_of_misfit (h : ∃ p ∈ rows, fitsPort x.w p.2 = false) :
    ∃ why, setRows inst rows s = .refused (.illFormed why) ∧
      ∃ p ∈ rows, (why = .tooWide ∧ x.w < p.2.length) ∨ (why = .zeroWidth ∧ p.2 = []) := by
  obtain ⟨p, hp, hfit⟩ := h
  have hne : firstMisfit (rows.map fun p => (Port.upTo x.w, p.2)) ≠ none := fun hnone =>
    absurd ((firstMisfit_rows _ _).1 hnone p hp) (by simp [hfit])
  obtain ⟨why, hwhy⟩ := Option.ne_none_iff_exists'.1 hne
  refine ⟨why, by simp only [setRows, ramFront, hx, callFront, hl, if_true, hwhy, refuseCall], ?_⟩
  obtain ⟨q, hq, hmisfit⟩ := exists_misfit_of_firstMisfit hwhy
  obtain ⟨p, hp, rfl⟩ := List.mem_map.1 hq
  exact ⟨p, hp, misfit_upTo_reason hmisfit⟩

variable (hfit : ∀ p ∈ rows, fitsPort x.w p.2 = true)
include hfit

/-- Fitting values are validated, all of them, before any row number is looked at (R279). -/
theorem setRows_of_fits :
    setRows inst rows s =
      match badOperandFrom 0 (rows.map Prod.snd) with
      | some e => .next (s.raises (some inst) e)
      | none =>
        match badRow x.rowCount rows with
        | some e => .next (s.raises (some inst) e)
        | none => .next (s.setInst inst (.ram { x with mem := preloadRows x.w x.mem rows })) := by
  simp only [setRows, ramFront, hx]
  rw [callFront_passed (if_pos hl) ((firstMisfit_rows _ _).2 hfit), List.map_map]
  rfl

theorem setRows_of_badSymbol {e : Error} (he : badOperandFrom 0 (rows.map Prod.snd) = some e) :
    setRows inst rows s = .next (s.raises (some inst) e) := by
  simp only [setRows_of_fits hx hl hfit, he]

theorem setRows_of_badRow (hv : AllSymbolsValid (rows.map Prod.snd)) {e : Error}
    (he : badRow x.rowCount rows = some e) : setRows inst rows s = .next (s.raises (some inst) e) := by
  simp only [setRows_of_fits hx hl hfit, (badOperandFrom_none 0 _).2 hv, he]

theorem setRows_of_inRange (hv : AllSymbolsValid (rows.map Prod.snd)) (hr : ∀ p ∈ rows, p.1 < x.rowCount) :
    setRows inst rows s = .next (s.setInst inst (.ram { x with mem := preloadRows x.w x.mem rows })) := by
  simp only [setRows_of_fits hx hl hfit, (badOperandFrom_none 0 _).2 hv, badRow_eq_none_iff.2 hr]

end OnRam
end Preload

/-- Settles O58: a preload before the first call is `setRows` with its refusal recorded, one lemma per way it ends. -/
theorem preloadSetsTheRowsInListOrder : Obligations.PreloadSetsTheRowsInListOrder := by
  intro s inst x rows rest hp hx hl hcalled
  have hx' : State.inst? { s with pending := rest } inst = some (.ram x) := hx
  have hstep {r : Result} := step_preload_of_not_mem_called (r := r) hp hcalled
  refine ⟨fun hfit => ⟨fun hv => ⟨fun hr => ?_, fun hr => ?_⟩, fun j p v c hj hc hbad hbefore hleft => ?_⟩,
    fun hmisfit => ?_⟩
  · exact ⟨_, _, hstep (setRows_of_inRange hx' hl hfit hv hr), rfl, State.setInst_inst?_same .., rfl,
      preloadRows_read x.w x.mem rows, fun k hk => State.setInst_inst?_other _ hk _⟩
  · obtain ⟨a, hle, hmem, he⟩ := exists_badRow hr
    exact ⟨a, hle, hmem, hstep (setRows_of_badRow hx' hl hfit hv he)⟩
  · have he := badOperandFrom_first (k := 0) hj hbefore hc hleft hbad
    rw [Nat.zero_add] at he
    exact hstep (setRows_of_badSymbol hx' hl hfit he)
  · obtain ⟨why, hrefused, hreason⟩ := setRows_of_misfit hx' hl hmisfit
    exact ⟨why, hstep hrefused, hreason⟩

/-! The components that have been called (R256, R302). -/

/-- The selectors of R83 whose format has an instance name the component of the record. -/
theorem Call.target?_of_instSelector {c : Call} (h : c.op ∈ [0x30#8, 0x31#8, 0x32#8, 0x33#8, 0x34#8, 0x40#8]) :
    c.target? = some c.inst := by
  have hrow : ∀ b ∈ [0x30#8, 0x31#8, 0x32#8, 0x33#8, 0x34#8, 0x40#8],
      (Opcode.ofSelector b).map Opcode.hasInst = some true := by decide
  obtain ⟨o, ho, hinst⟩ := Option.map_eq_some_iff.1 (hrow c.op h)
  simp only [Call.target?, ho, hinst, if_true]

section Called
variable {s t : State} {c : Call}

theorem execCall_called_eq (h : execCall c s = .next t) : t.called = s.called := by
  unfold execCall at h
  split at h
  · exact (exec_effect h).called_eq
  · exact (unsupportedCall_effect (g := false) h).called_eq
  · cases h

/-- Whatever a call answers, what it marks is what issuing it marks. -/
theorem runCall_called_eq (h : runCall c s = .next t) : t.called = (s.issueCall c.target?).called := by
  rcases recordRefusal_cases h with h | ⟨why, -, rfl⟩
  · exact execCall_called_eq h
  · rfl

theorem runCall_marks {k : Nat} (h : runCall c s = .next t) (hc : c.target? = some k)
    (hk : (s.inst? k).isSome = true) : k ∈ t.called := by
  rw [runCall_called_eq h]
  exact State.mem_issueCall_called.2 (.inr ⟨hc, hk⟩)

/-- A call that runs names a constructed component: on another one D36 gives it no move. -/
theorem isSome_inst?_of_runCall {i : Instr} {k : Nat} (h : runCall c s = .next t) (hd : decode c = .ok i)
    (hi : i.inst? = some k) : (s.inst? k).isSome = true := by
  by_contra hk
  have hnone : (s.issueCall i.inst?).inst? k = none := Option.not_isSome_iff_eq_none.1 hk
  rw [runCall_decoded s hd, exec_noComponent hi hnone, recordRefusal_stays (by simp)] at h
  cases h

theorem HostEffect.called_subset (he : HostEffect s t) : s.called ⊆ t.called := by
  intro k hk
  cases he with
  | call g j _ he => rw [he.called_eq]; exact State.mem_issueCall_called.2 (.inl hk)
  | callRefused j why => exact State.mem_issueCall_called.2 (.inl hk)
  | refused | constructed | preloaded | raised | readAnswered => exact hk

end Called

/-- Settles O59: a call marks its component when it is issued, before it can answer anything, and no shape of a next
state takes a mark away. -/
theorem preloadIsOnlyBeforeTheFirstCall : Obligations.PreloadIsOnlyBeforeTheFirstCall := by
  refine ⟨fun s inst rows rest hp hcalled => ?_, fun s t c rest i k hp hd hi hstep => ?_,
    fun s t c rest hp hop hinst hstep => ?_, fun s t hstep k hk => ?_⟩
  · exact (step_preload hp).trans (runPreload_of_mem_called hcalled)
  · rw [step_call hp] at hstep
    exact runCall_marks hstep ((Call.target?_of_decode hd).trans hi) (isSome_inst?_of_runCall hstep hd hi)
  · rw [step_call hp] at hstep
    exact runCall_marks hstep (Call.target?_of_instSelector hop) hinst
  · obtain ⟨op, rest, -, he⟩ := step_effect hstep
    exact he.called_subset hk

end Sys2Proof.Machine

/-! SUPPORT. Proofs of the exceptions family (spec/60_exceptions.md): the order of validation, the frame of a call that
faults, which errors a step records, and what each error a call raises says of the call. -/

namespace Sys2Proof.Machine

/-! Validation (R272). -/

/-- Settles O10: validation finds that symbol, and what it finds is raised before the call's own rule. -/
theorem firstInvalidSymbolIsRaised : Obligations.FirstInvalidSymbolIsRaised := by
  intro i s j p x c hA hx hc hbad hbefore hleft
  have hfound := badOperandFrom_first (k := 0) hx hbefore hc hleft hbad
  rw [Nat.zero_add] at hfound
  exact exec_badSymbol hA hfound

/-! A call takes an error or returns (R12, R280). -/

section Taken
variable {s t : State} {g : Bool} {k : Option Nat} {i : Instr} {e : Error}

/-- A call's next state is that of taking an error, or it returns outputs and leaves the fault record. -/
theorem Effect.raises_or_returns (he : Effect s g k t) :
    (∃ e, t = s.raises k e) ∨ t.faults = s.faults ∧ ∃ outs, t.outcomes = s.outcomes ++ [.returned outs] := by
  cases he with
  | raised _ e => exact .inl ⟨e, rfl⟩
  | returned | seq | ram => exact .inr ⟨rfl, _, rfl⟩

/-- A call whose outcome is an error is the taking of that error. -/
theorem exec_eq_raises (h : exec i s = .next t) (ho : t.outcomes = s.outcomes ++ [.raised e]) :
    exec i s = .next (s.raises i.inst? e) := by
  rcases (exec_effect h).raises_or_returns with ⟨e', rfl⟩ | ⟨-, outs, hr⟩
  · obtain rfl : e' = e := by simpa using ho
    exact h
  · simp [ho] at hr

/-- An error taken is told by the next state. -/
theorem error_eq_of_raises_eq {e e' : Error} {k' : Option Nat}
    (h : (.next (s.raises k e) : Result) = .next (s.raises k' e')) : e = e' := by
  have ho : (s.raises k e).outcomes = (s.raises k' e').outcomes := congrArg State.outcomes (Host.Outcome.next.inj h)
  simpa using ho

theorem next_ne_raises (hf : t.faults = s.faults) : (.next t : Result) ≠ .next (s.raises k e) := fun h =>
  s.raises_faults_ne k e (Host.Outcome.next.inj h ▸ hf)

theorem accepts_of_exec_next (h : exec i s = .next t) : Accepts s i = true := by
  by_contra hA
  obtain ⟨r, hr⟩ := exec_refused (Bool.eq_false_iff.2 hA)
  cases h.symm.trans hr

end Taken

/-- Settles O12: a call that leaves the fault record returned; every other one is the taking of its error. -/
theorem faultingCallChangesNothing : Obligations.FaultingCallChangesNothing := by
  intro i s t hexec hne
  rcases (exec_effect hexec).raises_or_returns with ⟨e, rfl⟩ | ⟨heq, -⟩
  · exact ⟨e, rfl, rfl, rfl, rfl, rfl, rfl, rfl, rfl⟩
  · exact absurd heq hne

/-! The errors a step records (R271, R273, R276). -/

/-- Every fault of `t` is one of `s` or carries an error the block can raise. -/
def AddsRaisable (s t : State) : Prop := ∀ f ∈ t.faults, f ∈ s.faults ∨ f.error.raisable = true

theorem AddsRaisable.of_faults_eq {s t : State} (h : t.faults = s.faults) : AddsRaisable s t :=
  fun _ hf => .inl (h ▸ hf)

theorem State.raises_addsRaisable (s : State) (k : Option Nat) {e : Error} (he : e.raisable = true) :
    AddsRaisable s (s.raises k e) := by
  intro f hf
  rcases List.mem_append.1 hf with hold | hnew
  · exact .inl hold
  · cases List.mem_singleton.1 hnew
    exact .inr he

theorem Effect.addsRaisable {s t : State} {g : Bool} {k : Option Nat} (he : Effect s g k t) : AddsRaisable s t := by
  cases he with
  | raised _ _ he => exact s.raises_addsRaisable k he
  | returned | seq | ram => exact .of_faults_eq rfl

theorem HostEffect.addsRaisable {s t : State} (he : HostEffect s t) : AddsRaisable s t := by
  cases he with
  | call g k _ he => exact he.addsRaisable
  | raised k e he => exact s.raises_addsRaisable k he
  | callRefused | refused | constructed | preloaded | readAnswered => exact .of_faults_eq rfl

/-- Settles O14: each shape of a next state records no error, or one that the block can raise. -/
theorem onlyTheBlocksErrorsAreRaised : Obligations.OnlyTheBlocksErrorsAreRaised := by
  intro s t hstep f hf
  obtain ⟨op, rest, -, he⟩ := step_effect hstep
  exact (he.addsRaisable f hf).imp_right List.contains_iff_mem.1

/-! The conflict check of SR_FF (R206, R274): it reports the lowest bit number with s = r = 1. -/

theorem conflictFrom_eq_some {s r : BitVector} {b : Nat} (hs : s.getD b false = true) (hr : r.getD b false = true)
    (hlow : ∀ k < b, ¬(s.getD k false = true ∧ r.getD k false = true)) (i : Nat) :
    conflictFrom i s r = some (i + b) := by
  induction s generalizing r b i with
  | nil => simp at hs
  | cons a s ih =>
    cases r with
    | nil => simp at hr
    | cons c r =>
      cases b with
      | zero =>
        have hbit : (a && c) = true := by simpa using And.intro hs hr
        rw [conflictFrom, if_pos hbit, Nat.add_zero]
      | succ b =>
        have hbit : ¬(a && c) = true := by simpa using hlow 0 b.succ_pos
        rw [conflictFrom, if_neg hbit, Nat.add_comm b 1, ← Nat.add_assoc]
        exact ih hs hr (fun k hk => hlow (k + 1) (Nat.succ_lt_succ hk)) (i + 1)

theorem bits_of_conflictFrom {s r : BitVector} {i n : Nat} (h : conflictFrom i s r = some n) :
    ∃ b, n = i + b ∧ s.getD b false = true ∧ r.getD b false = true := by
  induction s generalizing r i with
  | nil => cases h
  | cons a s ih =>
    cases r with
    | nil => cases h
    | cons c r =>
      rw [conflictFrom] at h
      split_ifs at h with hbit
      · cases h
        exact ⟨0, rfl, (Bool.and_eq_true _ _).mp hbit⟩
      · obtain ⟨b, rfl, hbits⟩ := ih h
        exact ⟨b + 1, by omega, hbits⟩

theorem srEdge_eq_error {q : HeldBits} {s r : BitVector} {b : Nat} (hs : bitAt s b = true) (hr : bitAt r b = true)
    (hlow : ∀ k < b, ¬(bitAt s k = true ∧ bitAt r k = true)) : srEdge q s r = .error (.invalidState b) := by
  simp only [srEdge, lowestConflict, conflictFrom_eq_some hs hr hlow, Nat.zero_add]

theorem bits_of_srEdge_error {q : HeldBits} {s r : BitVector} {e : Error} (h : srEdge q s r = .error e) :
    ∃ b, e = .invalidState b ∧ bitAt s b = true ∧ bitAt r b = true := by
  unfold srEdge at h
  split at h
  · next n hn =>
    cases h
    obtain ⟨b, hb, hbits⟩ := bits_of_conflictFrom hn
    exact ⟨n, rfl, by rwa [hb, Nat.zero_add]⟩
  · cases h

/-! What each error says of the call that raises it. -/

/-- The errors a call `i` may raise in the state `s`: one constructor per cause of R271 that a call can have. -/
inductive Raises (s : State) : Instr → Error → Prop where
  /-- an operand has an invalid symbol there (R272) -/
  | symbol {i : Instr} {j p : Nat} {x : Symbols} {c : Symbol} (hx : i.operands[j]? = some x) (hc : x[p]? = some c)
      (hbad : ¬(c = '0' ∨ c = '1')) : Raises s i (.invalidBitSymbol j p c)
  /-- SR_FF with s = r = 1 at a bit on a rising edge (R274) -/
  | conflict {inst b : Nat} {x : SeqInst} {a r clk : Symbols} (hx : s.inst? inst = some (.seq x))
      (hprev : x.prev = .known false) (hclk : bitOf clk = true) (ha : bitAt (bitsOf a) b = true)
      (hr : bitAt (bitsOf r) b = true) : Raises s (.srFf inst a r clk) (.invalidState b)
  /-- a MUX selector past the inputs (R275) -/
  | selector {inputs : List Symbols} {sel : Symbols} (h : inputs.length ≤ udec (bitsOf sel)) :
      Raises s (.mux inputs sel) (.selectorOutOfRange (udec (bitsOf sel)) inputs.length)
  /-- a TEST_GATE of no gate (R85, R278) -/
  | noGate {g : OpName} {n : Int} {sink : Nat} (hg : g.gate? = none) :
      Raises s (.testGate g n sink) (.unsupportedOperation g)
  /-- DFF_SC with both lines asserted (R205, R278) -/
  | setClear {inst : Nat} {d set clr clk : Symbols} (hset : bitOf set = true) (hclr : bitOf clr = true) :
      Raises s (.dffSc inst d set clr clk) .asyncSetClearConflict
  /-- a RAM address past the rows (R250, R278) -/
  | row {inst : Nat} {x : RamInst} {address d w clk : Symbols} (hx : s.inst? inst = some (.ram x))
      (h : x.rowCount ≤ udec (bitsOf address)) :
      Raises s (.ram1r inst address d w clk) (.addressOutOfRange (udec (bitsOf address)))
  /-- an edge test with clk = 1 and no recorded level (R201, R278) -/
  | clock {i : Instr} {inst : Nat} {y : Inst} {clk : Symbols} (hi : i.inst? = some inst)
      (hy : s.inst? inst = some y) (hprev : y.prev = .uninit) (hclk : clockOf i = some clk) (hc : bitOf clk = true)
      (hasync : assertsAsync i = false) (hwrite : ∀ a d w c, i = .ram1r inst a d w c → bitOf w = true) :
      Raises s i .uninitialisedClock

section Cause
variable {s : State} {i : Instr} {e : Error}

theorem seqSync_rising_error {k : Nat} {x : SeqInst} {c : Bit} (hedge : x.prev = .known false ∧ c = true)
    (e : Error) : seqSync k x c (.error e) s = .next (s.raises (some k) e) := by
  simp only [seqSync, edgeOf_eq_rising_iff.2 hedge.symm, raise]

/-- The synchronous path raises for an unknown edge, or what its edge function raises. -/
theorem seqSync_eq_raises {k : Nat} {x : SeqInst} {c : Bit} {next : Except Error HeldBits}
    (h : seqSync k x c next s = .next (s.raises (some k) e)) :
    (c = true ∧ x.prev = .uninit ∧ e = .uninitialisedClock) ∨
      (c = true ∧ x.prev = .known false ∧ next = .error e) := by
  unfold seqSync at h
  split at h
  · next hedge =>
    obtain ⟨hc, hprev⟩ := edgeOf_eq_unknown_iff.1 hedge
    exact .inl ⟨hc, hprev, (error_eq_of_raises_eq h).symm⟩
  · exact absurd h (next_ne_raises rfl)
  · next hedge =>
    obtain ⟨hc, hprev⟩ := edgeOf_eq_rising_iff.1 hedge
    split at h
    · exact .inr ⟨hc, hprev, congrArg Except.error (error_eq_of_raises_eq h)⟩
    · exact absurd h (next_ne_raises rfl)

/-- What a call raises on its synchronous path, its edge function's errors being known. -/
theorem Raises.of_seqSync {k : Nat} {x : SeqInst} {clk : Symbols} {next : Except Error HeldBits}
    (hi : i.inst? = some k) (hclk : clockOf i = some clk) (hasync : assertsAsync i = false)
    (hwrite : ∀ a d w c, i = .ram1r k a d w c → bitOf w = true) (hx : s.inst? k = some (.seq x))
    (h : seqSync k x (bitOf clk) next s = .next (s.raises (some k) e))
    (hnext : bitOf clk = true → x.prev = .known false → next = .error e → Raises s i e) : Raises s i e := by
  rcases seqSync_eq_raises h with ⟨hc, hprev, rfl⟩ | ⟨hc, hprev, herr⟩
  · exact .clock hi hx hprev hclk hc hasync hwrite
  · exact hnext hc hprev herr

/-- A call whose symbols are valid raises only for a cause of its own rule. -/
theorem raises_of_valid (hv : AllSymbolsValid i.operands) (h : exec i s = .next (s.raises i.inst? e)) :
    Raises s i e := by
  have hA := accepts_of_exec_next h
  have silent : ∀ {u : State}, exec i s = .next u → u.faults = s.faults → Raises s i e := fun hu hf =>
    absurd (hu.symm.trans h) (next_ne_raises hf)
  rcases hg : Instr.gateCall? i with - | ⟨g, ops⟩
  swap
  · exact silent (exec_gate_ok hg hA hv) rfl
  cases i with
  | andGate | orGate | notGate | nandGate | norGate | xorGate | xnorGate => cases hg
  | halfAdd a b => exact silent (exec_halfAdd_ok hA hv) rfl
  | fullAdd a b c => exact silent (exec_fullAdd_ok hA hv) rfl
  | add a b => exact silent (exec_add_ok hA hv) rfl
  | addFixed n a b => exact silent (exec_addFixed_ok hA hv) rfl
  | twoComplement x => exact silent (exec_twoComplement_ok hA hv) rfl
  | eqCompare a b => exact silent (exec_eqCompare_ok hA hv) rfl
  | zeroTest x => exact silent (exec_zeroTest_ok hA hv) rfl
  | demux en sel => exact silent (exec_demux_ok hA hv) rfl
  | mux inputs sel =>
    have hexec := exec_mux_ok hA hv
    split at hexec
    · next hsel =>
      cases error_eq_of_raises_eq (h.symm.trans hexec)
      exact .selector (by simpa using hsel)
    · exact silent hexec rfl
  | testGate g n sink =>
    rcases hgate : g.gate? with - | gate
    · cases error_eq_of_raises_eq (h.symm.trans (exec_testGate_noGate hgate))
      exact .noGate hgate
    · exact silent (exec_testGate_ok hgate hA) rfl
  | dff k d clk =>
    obtain ⟨x, hx, -, -, hexec⟩ := exec_dff_ok hA hv
    exact .of_seqSync rfl rfl rfl nofun hx (hexec.symm.trans h) nofun
  | register k d clk =>
    obtain ⟨x, hx, -, -, hexec⟩ := exec_register_ok hA hv
    exact .of_seqSync rfl rfl rfl nofun hx (hexec.symm.trans h) nofun
  | jkFf k a r clk =>
    obtain ⟨x, hx, -, -, -, hexec⟩ := exec_jkFf_ok hA hv
    exact .of_seqSync rfl rfl rfl nofun hx (hexec.symm.trans h) nofun
  | srFf k a r clk =>
    obtain ⟨x, hx, -, -, -, hexec⟩ := exec_srFf_ok hA hv
    refine .of_seqSync rfl rfl rfl nofun hx (hexec.symm.trans h) fun hc hprev herr => ?_
    obtain ⟨b, rfl, ha, hr⟩ := bits_of_srEdge_error herr
    rw [bitAt_zext] at ha hr
    exact .conflict hx hprev hc ha hr
  | dffSc k d set clr clk =>
    obtain ⟨x, hx, -, -, hexec⟩ := exec_dffSc_ok hA hv
    split_ifs at hexec with hboth hset hclr
    · cases error_eq_of_raises_eq (h.symm.trans hexec)
      obtain ⟨hset, hclr⟩ := (Bool.and_eq_true _ _).mp hboth
      exact .setClear hset hclr
    · exact silent hexec rfl
    · exact silent hexec rfl
    · exact .of_seqSync rfl rfl (by simp [assertsAsync, hset, hclr]) nofun hx (hexec.symm.trans h) nofun
  | ram1r k address d w clk =>
    obtain ⟨x, hx, -, -, -, hexec⟩ := exec_ram1r_ok hA hv
    split_ifs at hexec with hrow hedge
    · cases error_eq_of_raises_eq (h.symm.trans hexec)
      exact .row hx hrow
    · cases error_eq_of_raises_eq (h.symm.trans hexec)
      obtain ⟨hwrite, hunknown⟩ := (Bool.and_eq_true _ _).mp hedge
      obtain ⟨hc, hprev⟩ := edgeOf_eq_unknown_iff.1 (eq_of_beq hunknown)
      refine .clock rfl hx hprev rfl hc rfl ?_
      rintro _ _ _ _ ⟨⟩
      exact hwrite
    · exact silent hexec rfl

/-- Every error a call raises has one of the causes of `Raises`. -/
theorem exec_raises {t : State} (hexec : exec i s = .next t) (ho : t.outcomes = s.outcomes ++ [.raised e]) :
    Raises s i e := by
  have h := exec_eq_raises hexec ho
  rcases hbad : badOperandFrom 0 i.operands with - | e'
  · exact raises_of_valid ((badOperandFrom_none 0 _).1 hbad) h
  · obtain rfl := error_eq_of_raises_eq (h.symm.trans (exec_badSymbol (accepts_of_exec_next h) hbad))
    obtain ⟨j, p, c, rfl, hat, hc⟩ := badOperandFrom_isInvalid hbad
    obtain ⟨x, hx, hp⟩ := Option.bind_eq_some_iff.1 hat
    rw [Nat.zero_add]
    exact .symbol hx hp fun hvalid => Bool.eq_false_iff.1 hc ((validSymbol_iff c).2 hvalid)

end Cause

/-- Settles O15: the causes of `Raises` are those of R271. -/
theorem everyErrorHasItsCause : Obligations.EveryErrorHasItsCause := by
  intro i s t e hexec ho
  cases exec_raises hexec ho with
  | symbol hx hc hbad => exact ⟨⟨_, hx, hc⟩, hbad⟩
  | conflict hx hprev hclk ha hr => exact ⟨_, _, _, _, _, rfl, hx, hprev, hclk, ha, hr⟩
  | selector h => exact ⟨_, _, rfl, rfl, rfl, h⟩
  | noGate hg => exact ⟨_, _, rfl, hg⟩
  | setClear hset hclr => exact ⟨_, _, _, _, _, rfl, hset, hclr⟩
  | row hx h => exact ⟨_, _, _, _, _, _, rfl, hx, rfl, h⟩
  | clock hi hy hprev hclk hc hasync hwrite => exact ⟨_, _, _, hi, hy, hprev, hclk, hc, hasync, hwrite⟩

/-- Settles O40: no input has the selector's number; no cause of `SelectorOutOfRange` is a DEMUX. -/
theorem muxSelectorOutOfRange : Obligations.MuxSelectorOutOfRange := by
  refine ⟨fun s inputs sel hA hinputs hsel hpast => ?_, fun s t e sel n m hexec ho => ?_⟩
  · have hnone : (inputs.map bitsOf)[udec (bitsOf sel)]? = none := by simpa using hpast
    rw [exec_mux_ok hA (List.forall_mem_append.2 ⟨hinputs, hsel⟩), hnone]
  · cases exec_raises hexec ho

/-- Settles O48: on an edge the lowest conflict is the error; the one cause of `InvalidState` is such an edge. -/
theorem invalidStateIsRaised : Obligations.InvalidStateIsRaised := by
  refine ⟨fun st inst x s r clk i hx hk hs hr hclk hv hprev hc hsi hri hlow => ?_, fun c st t b hexec ho => ?_⟩
  · have hA : Accepts st (.srFf inst s r clk) = true := by simp [Accepts, seqWidth_of_kind hx hk, hs, hr, hclk]
    obtain ⟨y, hy, -, -, -, hexec⟩ := exec_srFf_ok hA hv
    cases hx.symm.trans hy
    have herr : srEdge x.q (zext x.q.length (bitsOf s)) (zext x.q.length (bitsOf r)) = .error (.invalidState i) :=
      srEdge_eq_error (by rwa [bitAt_zext]) (by rwa [bitAt_zext]) (by simpa only [bitAt_zext] using hlow)
    rw [hexec, herr, seqSync_rising_error ⟨hprev, hc⟩]
  · cases exec_raises hexec ho with
    | conflict hx hprev hclk => exact ⟨_, _, _, _, _, rfl, hx, hprev, hclk⟩

end Sys2Proof.Machine

/-! SUPPORT. Proofs of the reset and hazards family (spec/70_reset_and_hazards.md): no host operation ends the run, and
the edge that an asynchronous call consumes. -/

namespace Sys2Proof.Machine

/-! No host operation answers a fault: the end of the run is the only one (R310). -/

section NoFault
variable {s : State} {f : Fault}

theorem callFront_ne_fault {inst : Option Nat} {legal : Option IllFormed} {ports : List (Port × Symbols)} {k : Result}
    (hk : k ≠ .fault f) : callFront inst legal ports s k ≠ .fault f := by
  by_cases hm : legal = none ∧ firstMisfit ports = none
  · rw [callFront_passed hm.1 hm.2]
    split
    · nofun
    · exact hk
  · obtain ⟨why, hwhy⟩ := callFront_refused (inst := inst) (s := s) (k := k) hm
    rw [hwhy]
    nofun

theorem ramFront_ne_fault {inst : Nat} {ports : RamInst → List (Port × Symbols)} {k : RamInst → Result}
    (hk : ∀ x, k x ≠ .fault f) : ramFront inst ports s k ≠ .fault f := by
  rcases ramFront_cases inst ports s k with ⟨r, hr, -⟩ | ⟨x, -, hfront⟩
  · rw [hr]
    nofun
  · rw [hfront]
    exact callFront_ne_fault (hk x)

theorem unsupportedCall_ne_fault {op : OpName} {ops : List Symbols} : unsupportedCall op ops s ≠ .fault f := by
  unfold unsupportedCall
  split_ifs <;> nofun

theorem runCall_ne_fault {c : Call} : runCall c s ≠ .fault f := by
  refine recordRefusal_fault.not.2 ?_
  unfold execCall
  split
  · exact exec_noFault _ _ f
  · exact unsupportedCall_ne_fault
  · nofun

theorem runEvaluate_ne_fault {n : Symbols} {ops : List Symbols} : runEvaluate n ops s ≠ .fault f := by
  unfold runEvaluate
  split
  · exact runCall_ne_fault
  · exact recordRefusal_fault.not.2 unsupportedCall_ne_fault

theorem runConstruct_ne_fault {inst : Nat} {c : Component} : runConstruct inst c s ≠ .fault f := by
  unfold runConstruct
  split
  · nofun
  · split <;> nofun

theorem setRows_ne_fault {inst : Nat} {rows : List (Nat × Symbols)} : setRows inst rows s ≠ .fault f := by
  refine ramFront_ne_fault fun x => ?_
  split <;> nofun

theorem runPreload_ne_fault {inst : Nat} {rows : List (Nat × Symbols)} : runPreload inst rows s ≠ .fault f := by
  unfold runPreload
  split_ifs
  · exact recordRefusal_fault.not.2 setRows_ne_fault
  · nofun

theorem runRead_ne_fault {inst : Nat} {output : OutputName} : runRead inst output s ≠ .fault f := by
  unfold runRead
  split
  · nofun
  · split
    · nofun
    · split <;> nofun

theorem runHostOp_ne_fault (op : HostOp) : runHostOp op s ≠ .fault f := by
  cases op with
  | construct => exact runConstruct_ne_fault
  | preload => exact runPreload_ne_fault
  | call => exact runCall_ne_fault
  | evaluate => exact runEvaluate_ne_fault
  | read => exact runRead_ne_fault

theorem step_of_pending_nil (h : s.pending = []) : step s = .fault .endOfRun := by
  simp only [step, h]

theorem step_of_pending_cons {op : HostOp} {rest : List HostOp} (h : s.pending = op :: rest) :
    step s = runHostOp op { s with pending := rest } := by
  simp only [step, h]

end NoFault

/-- Settles O8: a pending operation is performed, and no host operation answers a fault; with none pending the run
ends, for the one reason there is. -/
theorem stepFaultsExactlyAtTheEndOfTheRun : Obligations.StepFaultsExactlyAtTheEndOfTheRun := by
  intro s f
  cases hp : s.pending with
  | nil =>
    cases f
    simp only [step_of_pending_nil hp]
  | cons op rest => simp only [step_of_pending_cons hp, runHostOp_ne_fault, reduceCtorEq]

/-! The asynchronous lines consume the edge (R205, R304). -/

section Async
variable {s : State} {inst : Nat} {x : SeqInst} {d set clr clk : Symbols}

/-- With exactly one line asserted the call completes, whatever the clock is and was, with every bit at the value of
`set`. -/
theorem exec_dffSc_async (hA : Accepts s (.dffSc inst d set clr clk) = true) (hv : AllSymbolsValid [d, set, clr, clk])
    (hx : s.inst? inst = some (.seq x)) (hone : bitOf set ≠ bitOf clr) :
    exec (.dffSc inst d set clr clk) s =
      seqDone inst x (List.replicate x.q.length (.known (bitOf set))) (bitOf clk) s := by
  obtain ⟨y, hy, -, -, hexec⟩ := exec_dffSc_ok hA hv
  cases hx.symm.trans hy
  rw [hexec]
  cases hs : bitOf set with
  | true =>
    have hc : bitOf clr = false := by simpa [hs] using hone
    simp [hc]
  | false =>
    have hc : bitOf clr = true := by simpa [hs] using hone
    simp [hc]

/-- Which DFF_SC calls are accepted depends on the component's width only, and no call changes it (R6). -/
theorem accepts_dffSc_of_exec {i : Instr} {t : State} (h : exec i s = .next t) (hx : s.inst? inst = some (.seq x))
    (hk : x.kind = .dffSc) (hA : Accepts s (.dffSc inst d set clr clk) = true) :
    Accepts t (.dffSc inst d set clr clk) = true := by
  obtain ⟨y, hy, hkind, hwidth⟩ := (exec_effect h).seq_kept hx
  simpa only [Accepts, seqWidth_of_kind hx hk, seqWidth_of_kind hy (hkind.trans hk), hwidth] using hA

end Async

/-- Settles O52: the asynchronous call records the level 1, and on a recorded 1 a call with clk = 1 and no line asserted
leaves the component as it is. -/
theorem asyncCallConsumesTheEdge : Obligations.AsyncCallConsumesTheEdge := by
  intro s inst x d set clr clk d' set' clr' clk' hx hk _ hA hv hA' _ hone hclk hset' hclr' hclk'
  have hfirst := exec_dffSc_async hA hv hx hone
  obtain ⟨u, hsecond⟩ := exec_next_of_accepted (accepts_dffSc_of_exec hfirst hx hk hA')
  refine ⟨_, u, hfirst, hsecond, ?_⟩
  have hhigh : ClockHighOn inst (.dffSc inst d' set' clr' clk') := by
    rintro - _ ⟨⟩
    exact hclk'
  have hheld := exec_recordedHigh_eq hsecond (State.setInst_inst?_same ..) (congrArg Held.known hclk) hhigh
    fun _ => by simp [assertsAsync, hset', hclr']
  rw [hheld, State.returns_inst?, State.setInst_inst?_same, hk, hclk]

end Sys2Proof.Machine
